-- ==== Sys2Proof/Word.lean ====
section
/-! DEFINITION. The word types of the BVALU: 32-bit words (00_scope.md R5), bytes of the two buffers
(20_memory.md R50), 4-bit vector register numbers (30_encoding.md R74) and 64-bit command words (R70). -/

namespace Sys2Proof

/-- A word of a vector, and the width of every 32-bit register (00_scope.md R5). -/
abbrev Word := BitVec 32

/-- One byte of IBUF or OBUF (20_memory.md R50). -/
abbrev Byte := BitVec 8

/-- A vector register number as the VA and VB fields hold it (30_encoding.md R71, R74). -/
abbrev VNum := BitVec 4

/-- One command word, delivered whole by one ISSUE (30_encoding.md R70). -/
abbrev CommandWord := BitVec 64

end Sys2Proof
end

