-- ==== Sys2Proof/Syntax.lean ====
section
/-! DEFINITION. The 25 commands of BVALU-1 (30_encoding.md R76), one constructor per row of the opcode table,
with the operands of its form (R72): a vector register number VA or VB, the immediate IMM, the bit F. -/

namespace Sys2Proof

/-- A command with its operands (30_encoding.md R72, R76). -/
inductive Instr where
  /-- NEW va, length (R100). -/
  | new (va : VNum) (imm : Word)
  /-- FROMHEX va (R103). -/
  | fromhex (va : VNum)
  /-- FROMHEXL va, length (R104). -/
  | fromhexl (va : VNum) (imm : Word)
  /-- FROMJSON va, length (R106). -/
  | fromjson (va : VNum) (imm : Word)
  /-- FROMARRAY va (R107). -/
  | fromarray (va : VNum)
  /-- SIZE va (R131). -/
  | size (va : VNum)
  /-- GET va, index (R132). -/
  | get (va : VNum) (imm : Word)
  /-- SET va, index, value (R133). -/
  | set (va : VNum) (imm : Word) (f : Bool)
  /-- TOGGLE va, index (R134). -/
  | toggle (va : VNum) (imm : Word)
  /-- RESET va (R135). -/
  | reset (va : VNum)
  /-- COPY va, vb (R150). -/
  | copy (va vb : VNum)
  /-- EQUALS va, vb (R151). -/
  | equals (va vb : VNum)
  /-- COUNT va (R153). -/
  | count (va : VNum)
  /-- NOT va (R154). -/
  | vnot (va : VNum)
  /-- AND va, vb (R156). -/
  | vand (va vb : VNum)
  /-- OR va, vb (R157). -/
  | vor (va vb : VNum)
  /-- XOR va, vb (R158). -/
  | vxor (va vb : VNum)
  /-- TOARRAY va (R181). -/
  | toarray (va : VNum)
  /-- TOINTARRAY va (R182). -/
  | tointarray (va : VNum)
  /-- TOSTRING va (R183). -/
  | tostring (va : VNum)
  /-- TOBINSTR va (R184). -/
  | tobinstr (va : VNum)
  /-- TOHEX va (R185). -/
  | tohex (va : VNum)
  /-- TOJSON va (R186). -/
  | tojson (va : VNum)
  /-- ITSTART va (R200). -/
  | itstart (va : VNum)
  /-- ITNEXT (R201). -/
  | itnext
  deriving DecidableEq, Repr

/-- The pseudo-instruction CLR va, index, written for SET va, index, 0 (30_encoding.md R82). -/
def Instr.clr (va : VNum) (imm : Word) : Instr := .set va imm false

end Sys2Proof
end

