-- ==== Sys2Proof/WellFormed.lean ====
section
/-! DEFINITION. Which commands an instance with NV vector registers has: a register number in a field the form
uses is below NV (30_encoding.md R74). Every other operand is in range by its type. -/

namespace Sys2Proof

/-- A vector register number that exists in an instance with `nv` registers (30_encoding.md R74). -/
def regExists (nv : Nat) (a : VNum) : Bool := decide (a.toNat < nv)

/-- The command names only registers below NV, in the fields its form uses (30_encoding.md R74, R79). -/
def Instr.wf (nv : Nat) : Instr → Bool
  | .new va _ => regExists nv va
  | .fromhex va => regExists nv va
  | .fromhexl va _ => regExists nv va
  | .fromjson va _ => regExists nv va
  | .fromarray va => regExists nv va
  | .size va => regExists nv va
  | .get va _ => regExists nv va
  | .set va _ _ => regExists nv va
  | .toggle va _ => regExists nv va
  | .reset va => regExists nv va
  | .copy va vb => regExists nv va && regExists nv vb
  | .equals va vb => regExists nv va && regExists nv vb
  | .count va => regExists nv va
  | .vnot va => regExists nv va
  | .vand va vb => regExists nv va && regExists nv vb
  | .vor va vb => regExists nv va && regExists nv vb
  | .vxor va vb => regExists nv va && regExists nv vb
  | .toarray va => regExists nv va
  | .tointarray va => regExists nv va
  | .tostring va => regExists nv va
  | .tobinstr va => regExists nv va
  | .tohex va => regExists nv va
  | .tojson va => regExists nv va
  | .itstart va => regExists nv va
  | .itnext => true

end Sys2Proof
end

