-- ==== Sys2Proof/Decode.lean ====
section
/-! DEFINITION. The decoder of 30_encoding.md R79, total on all 2^64 command words, rejecting by name; and after
it the encoder, written from the field layout (R71), the forms (R72) and the opcode map (R76). -/

namespace Sys2Proof

/-- The five operand forms (30_encoding.md R72). -/
inductive Form where
  /-- no operand field -/
  | N
  /-- VA -/
  | A
  /-- VA, VB -/
  | AB
  /-- VA, IMM -/
  | AI
  /-- VA, F, IMM -/
  | AFI
  deriving DecidableEq, Repr

/-- MASK(f): the bits that carry no operand in the form (30_encoding.md R77). -/
def Form.mask : Form → CommandWord
  | .N => 0xFFFFFFFFFFFFFFFF#64
  | .A => 0xFFFFFFFFFFFFF0FF#64
  | .AB => 0xFFFFFFFFFFFF00FF#64
  | .AI => 0x00000000FFFFF0FF#64
  | .AFI => 0x00000000FFFEF0FF#64

/-- The fields of a command word (30_encoding.md R71). -/
structure Fields where
  op : BitVec 8
  va : VNum
  vb : VNum
  f : Bool
  imm : Word
  deriving DecidableEq, Repr

/-- Pull the fields out of a command word (30_encoding.md R71, R79). -/
def fieldsOf (c : CommandWord) : Fields :=
  { op := c.extractLsb' 0 8
    va := c.extractLsb' 8 4
    vb := c.extractLsb' 12 4
    f := c.getLsbD 16
    imm := c.extractLsb' 32 32 }

/-- One row of the opcode map: the operand form, and the command that the fields make. -/
structure OpRow where
  form : Form
  build : Fields → Instr

/-- OPMAP, the opcode map (30_encoding.md R76); `none` where OP is unassigned (R78). -/
def opMap (op : BitVec 8) : Option OpRow :=
  match op.toNat with
  | 0x01 => some { form := .AI, build := fun x => .new x.va x.imm }
  | 0x02 => some { form := .A, build := fun x => .fromhex x.va }
  | 0x03 => some { form := .AI, build := fun x => .fromhexl x.va x.imm }
  | 0x04 => some { form := .AI, build := fun x => .fromjson x.va x.imm }
  | 0x05 => some { form := .A, build := fun x => .fromarray x.va }
  | 0x10 => some { form := .A, build := fun x => .size x.va }
  | 0x11 => some { form := .AI, build := fun x => .get x.va x.imm }
  | 0x12 => some { form := .AFI, build := fun x => .set x.va x.imm x.f }
  | 0x13 => some { form := .AI, build := fun x => .toggle x.va x.imm }
  | 0x14 => some { form := .A, build := fun x => .reset x.va }
  | 0x20 => some { form := .AB, build := fun x => .copy x.va x.vb }
  | 0x21 => some { form := .AB, build := fun x => .equals x.va x.vb }
  | 0x22 => some { form := .A, build := fun x => .count x.va }
  | 0x23 => some { form := .A, build := fun x => .vnot x.va }
  | 0x24 => some { form := .AB, build := fun x => .vand x.va x.vb }
  | 0x25 => some { form := .AB, build := fun x => .vor x.va x.vb }
  | 0x26 => some { form := .AB, build := fun x => .vxor x.va x.vb }
  | 0x30 => some { form := .A, build := fun x => .toarray x.va }
  | 0x31 => some { form := .A, build := fun x => .tointarray x.va }
  | 0x32 => some { form := .A, build := fun x => .tostring x.va }
  | 0x33 => some { form := .A, build := fun x => .tobinstr x.va }
  | 0x34 => some { form := .A, build := fun x => .tohex x.va }
  | 0x35 => some { form := .A, build := fun x => .tojson x.va }
  | 0x40 => some { form := .A, build := fun x => .itstart x.va }
  | 0x41 => some { form := .N, build := fun _ => .itnext }
  | _ => none

/-- Why a command word is illegal (60_exceptions.md R217). Each of them raises IllegalCommand; the machine
records which by nothing (60_exceptions.md R211). -/
inductive Reject where
  /-- OP is not in the opcode map (30_encoding.md R78). -/
  | unassignedOpcode
  /-- a bit outside the opcode's form is one (30_encoding.md R77). -/
  | nonzeroOutsideForm
  /-- VA, or VB in form AB, is NV or more (30_encoding.md R74). -/
  | noSuchRegister
  deriving DecidableEq, Repr

/-- What the decoder makes of a command word. -/
inductive Decoded where
  | command (i : Instr)
  | illegal (r : Reject)
  deriving DecidableEq, Repr

/-- The checks of 30_encoding.md R79 that look at the word alone: the opcode (R78), then the fields outside the
form (R77). -/
def decodeFields (c : CommandWord) : Decoded :=
  match opMap (fieldsOf c).op with
  | none => .illegal .unassignedOpcode
  | some row =>
    if c &&& row.form.mask = ((fieldsOf c).op).setWidth 64 then .command (row.build (fieldsOf c))
    else .illegal .nonzeroOutsideForm

/-- The decoder of an instance with `nv` vector registers (30_encoding.md R79): the checks on the word, then the
register numbers (R74). -/
def decode (nv : Nat) (c : CommandWord) : Decoded :=
  match decodeFields c with
  | .illegal r => .illegal r
  | .command i => if i.wf nv then .command i else .illegal .noSuchRegister

/-- The host's question of the decoder: the command that a word of the opcode table names. A command is one
64-bit word without a byte order (30_encoding.md R70, R84); bits from `nbits` up are zero. It asks the checks on
the word alone, which is the decoder of an instance with all 16 registers (R74). -/
def decodeTableWord (nbits w : Nat) : Option Instr :=
  if nbits ≤ 64 then
    match decodeFields (BitVec.ofNat 64 (w % 2 ^ nbits)) with
    | .command i => some i
    | .illegal _ => none
  else none

/-- The opcode of a command (30_encoding.md R76). -/
def Instr.opcode : Instr → BitVec 8
  | .new _ _ => 0x01#8
  | .fromhex _ => 0x02#8
  | .fromhexl _ _ => 0x03#8
  | .fromjson _ _ => 0x04#8
  | .fromarray _ => 0x05#8
  | .size _ => 0x10#8
  | .get _ _ => 0x11#8
  | .set _ _ _ => 0x12#8
  | .toggle _ _ => 0x13#8
  | .reset _ => 0x14#8
  | .copy _ _ => 0x20#8
  | .equals _ _ => 0x21#8
  | .count _ => 0x22#8
  | .vnot _ => 0x23#8
  | .vand _ _ => 0x24#8
  | .vor _ _ => 0x25#8
  | .vxor _ _ => 0x26#8
  | .toarray _ => 0x30#8
  | .tointarray _ => 0x31#8
  | .tostring _ => 0x32#8
  | .tobinstr _ => 0x33#8
  | .tohex _ => 0x34#8
  | .tojson _ => 0x35#8
  | .itstart _ => 0x40#8
  | .itnext => 0x41#8

/-- The operand form of a command (30_encoding.md R72). -/
def Instr.form : Instr → Form
  | .new _ _ => .AI
  | .fromhex _ => .A
  | .fromhexl _ _ => .AI
  | .fromjson _ _ => .AI
  | .fromarray _ => .A
  | .size _ => .A
  | .get _ _ => .AI
  | .set _ _ _ => .AFI
  | .toggle _ _ => .AI
  | .reset _ => .A
  | .copy _ _ => .AB
  | .equals _ _ => .AB
  | .count _ => .A
  | .vnot _ => .A
  | .vand _ _ => .AB
  | .vor _ _ => .AB
  | .vxor _ _ => .AB
  | .toarray _ => .A
  | .tointarray _ => .A
  | .tostring _ => .A
  | .tobinstr _ => .A
  | .tohex _ => .A
  | .tojson _ => .A
  | .itstart _ => .A
  | .itnext => .N

/-- The fields of a command, zero where its form has none (30_encoding.md R72, R77). -/
def Instr.fields (i : Instr) : Fields :=
  match i with
  | .new va imm | .fromhexl va imm | .fromjson va imm | .get va imm | .toggle va imm =>
    { op := i.opcode, va := va, vb := 0, f := false, imm := imm }
  | .set va imm f => { op := i.opcode, va := va, vb := 0, f := f, imm := imm }
  | .copy va vb | .equals va vb | .vand va vb | .vor va vb | .vxor va vb =>
    { op := i.opcode, va := va, vb := vb, f := false, imm := 0 }
  | .fromhex va | .fromarray va | .size va | .reset va | .count va | .vnot va | .toarray va | .tointarray va
  | .tostring va | .tobinstr va | .tohex va | .tojson va | .itstart va =>
    { op := i.opcode, va := va, vb := 0, f := false, imm := 0 }
  | .itnext => { op := i.opcode, va := 0, vb := 0, f := false, imm := 0 }

/-- The command word of the fields, `{imm, RSV = 0, f, vb, va, op}` (30_encoding.md R71, R81). -/
def Fields.word (x : Fields) : CommandWord :=
  x.imm ++ 0#15 ++ BitVec.ofBool x.f ++ x.vb ++ x.va ++ x.op

/-- The command word of a command (30_encoding.md R81). -/
def encode (i : Instr) : CommandWord := i.fields.word

end Sys2Proof
end

