-- ==== Sys2Proof/Config.lean ====
section
/-! DEFINITION. The parameters of a BVALU instance (00_scope.md R6 to R9). The four configuration registers of
10_state.md R42 report them. State carries one value of this type, which no step changes, so a statement about
every state is a statement about every instance. The spec leaves no value of the machine open, so there is no
opaque constant here. -/

namespace Sys2Proof

/-- The parameters NV, MAXLEN, IBUF_CAP and OBUF_CAP (00_scope.md R6 to R9). `Config.Legal` in Safety.lean says
which values the spec admits. -/
structure Config where
  /-- NV, the number of vector registers (R6). -/
  nv : Nat
  /-- MAXLEN, the largest vector length in bits (R7). -/
  maxlen : Nat
  /-- IBUF_CAP, the bytes of the input buffer (R8). -/
  ibufCap : Nat
  /-- OBUF_CAP, the bytes of the output buffer (R9, 10_state.md R42). -/
  obufCap : Nat
  deriving DecidableEq, Repr

/-- The instance of 95_test_vectors.md, "Test environment". DESIGN CHOICE (log 1): the one that `State.reset`
has; unsafe for a claim that rests on these four numbers. -/
def Config.testEnvironment : Config :=
  { nv := 8, maxlen := 256, ibufCap := 128, obufCap := 1024 }

end Sys2Proof
end

