-- ==== Sys2Proof/Machine/State.lean ====
section
/-! DEFINITION. The state of the BVALU (10_state.md), the host agent's list of operations beside it
(10_state.md R28), and the reset state (70_reset_and_hazards.md R240). -/

namespace Sys2Proof.Machine

/-- A byte buffer as plain data: the bytes that differ from 0x00, at strictly rising addresses. Every address not
listed reads 0x00, which is what reset leaves in IBUF and OBUF (70_reset_and_hazards.md R240; log 13). -/
abbrev Memory := List Host.Cell

/-- The canonical form of a buffer from address `lo` on: addresses strictly rising, no listed byte 0x00. -/
def Memory.wfFrom (lo : Nat) : Memory → Bool
  | [] => true
  | (a, b) :: m => decide (lo ≤ a) && decide (b ≠ 0#8) && Memory.wfFrom (a + 1) m

/-- The canonical form of a buffer, so that equal buffers are equal data. -/
def Memory.wf (m : Memory) : Bool := Memory.wfFrom 0 m

/-- A vector register (10_state.md R21): the valid bit, the length in bits and the words in storage order. -/
structure VReg where
  valid : Bool
  len : Nat
  words : List Word
  deriving DecidableEq, Repr

/-- A vector register after reset: unconstructed (10_state.md R21, 70_reset_and_hazards.md R240; log 4). -/
def VReg.reset : VReg := { valid := false, len := 0, words := [] }

/-- The fields of STATUS (10_state.md R29). Bits 31:12 are hard-wired to zero (R36) and have no storage; the
register as the host reads it is `Status.word` in Machine/Flags.lean. -/
structure Status where
  /-- STATUS[3:0] (R30). -/
  err : BitVec 4
  /-- STATUS[4] (R31). -/
  errseen : Bool
  /-- STATUS[5] (R32). -/
  itbit : Bool
  /-- STATUS[6] (R33). -/
  itdone : Bool
  /-- STATUS[7] (R34). -/
  itactive : Bool
  /-- STATUS[11:8] (R35). -/
  itvreg : VNum
  deriving DecidableEq, Repr

/-- STATUS after reset: every field 0 (70_reset_and_hazards.md R240). -/
def Status.reset : Status :=
  { err := 0, errseen := false, itbit := false, itdone := false, itactive := false, itvreg := 0 }

/-- The registers that READ names (20_memory.md R56). -/
inductive RegName where
  | res
  | status
  | ilen
  | olen
  | itpos
  | cfgNv
  | cfgMaxlen
  | cfgIbufCap
  | cfgObufCap
  deriving DecidableEq, Repr

/-- The host operations (20_memory.md R56). -/
inductive HostOp where
  /-- WRITE_IBUF(k, b) -/
  | writeIbuf (k : Word) (b : Byte)
  /-- WRITE_ILEN(n) -/
  | writeIlen (n : Word)
  /-- ISSUE(c) -/
  | issue (c : CommandWord)
  /-- READ(X) -/
  | read (x : RegName)
  /-- READ_IBUF(k) -/
  | readIbuf (k : Word)
  /-- READ_OBUF(k) -/
  | readObuf (k : Word)
  /-- RESET() -/
  | reset
  deriving DecidableEq, Repr

/-- A value a host read returned: a 32-bit register or one byte of a buffer (20_memory.md R58). -/
inductive HostValue where
  | word (w : Word)
  | byte (b : Byte)
  deriving DecidableEq, Repr

/-- The whole state: the BVALU's own (10_state.md R20 to R42), then the host agent's (10_state.md R28; log 2). -/
structure State where
  /-- The parameters, which CFG_NV, CFG_MAXLEN, CFG_IBUF_CAP and CFG_OBUF_CAP report (R42); never written. -/
  cfg : Config
  /-- V[0 .. NV-1] (R20). -/
  vregs : List VReg
  /-- RES (R27). -/
  res : Word
  /-- STATUS (R29). -/
  status : Status
  /-- ITPOS (R37). -/
  itpos : Word
  /-- IBUF (R38). -/
  ibuf : Memory
  /-- ILEN (R39). -/
  ilen : Word
  /-- OBUF (R40). -/
  obuf : Memory
  /-- OLEN (R41). -/
  olen : Word
  /-- The host's operations not yet performed, the next one first (R28; log 2). -/
  hostOps : List HostOp
  /-- What the host's reads returned, the newest first (20_memory.md R56; log 2). -/
  hostReads : List HostValue
  deriving DecidableEq, Repr

/-- Why the machine stops. The spec names no such reason: an error is no trap and does not stop the BVALU
(60_exceptions.md R210, R221). Both stand for an access to a buffer byte that does not exist. -/
inductive Fault where
  /-- Raised by a construction command that would read IBUF at or above IBUF_CAP, because ILEN is above IBUF_CAP.
  No reachable state has such an ILEN (10_state.md R39). Safe: the model stops. DESIGN CHOICE (log 7). -/
  | ibufOutOfRange
  /-- Raised by a serialisation command whose output is longer than OBUF_CAP. No legal instance has one
  (00_scope.md R9, 43_serialization.md R180). Safe: the model stops. DESIGN CHOICE (log 7). -/
  | obufOutOfRange
  deriving DecidableEq, Repr

/-- Why the model gives no meaning. -/
inductive Refusal where
  /-- The instruction of this mnemonic has no meaning yet; raised by `exec`'s arm alone. Safe: the model stops. -/
  | notModelled (mnemonic : String)
  deriving DecidableEq, Repr

/-- What a command or a host operation comes to. -/
abbrev Result := Host.Outcome State Fault Refusal

/-- The BVALU of an instance right after power-on (70_reset_and_hazards.md R240), with a host that has nothing to
do (log 2). -/
def State.resetOf (cfg : Config) : State :=
  { cfg := cfg
    vregs := List.replicate cfg.nv VReg.reset
    res := 0
    status := Status.reset
    itpos := 0
    ibuf := []
    ilen := 0
    obuf := []
    olen := 0
    hostOps := []
    hostReads := [] }

/-- The machine right after reset (70_reset_and_hazards.md R240), for the instance of 95_test_vectors.md
(log 1). -/
def State.reset : State := State.resetOf Config.testEnvironment

end Sys2Proof.Machine
end

