-- ==== Sys2Proof/Machine/Bits.lean ====
section
/-! DEFINITION. The word-indexing arithmetic (00_scope.md R10, R14, R15), the lanes of a vector
(42_whole_vector.md R160) and the population count of a word (R152). -/

namespace Sys2Proof.Machine

/-- W(L): the words of a vector of length L (00_scope.md R14). -/
def wordCount (len : Nat) : Nat := (len + 31) / 32

/-- wordOf(i) (00_scope.md R15). -/
def wordOf (i : Nat) : Nat := i / 32

/-- posOf(i) (00_scope.md R15). -/
def posOf (i : Nat) : Nat := i % 32

/-- The u32 with bit posOf(i) alone, `1 << posOf(i)` (41_bit_access.md R133, R134). -/
def bitMask (i : Nat) : Word := 1#32 <<< posOf i

/-- PADMASK(L): ones at the bits of the final word that have an index below L (00_scope.md R15). -/
def padMask (len : Nat) : Word :=
  if len % 32 = 0 then 0xFFFFFFFF#32 else (1#32 <<< (len % 32)) - 1#32

/-- Word j of a vector. A word the list does not hold reads zero, which no constructed register of a reachable
state shows (10_state.md R23; log 5). -/
def VReg.word (v : VReg) (j : Nat) : Word := v.words.getD j 0#32

/-- bit(v, i) (00_scope.md R15). -/
def VReg.bit (v : VReg) (i : Nat) : Bool := (v.word (wordOf i)).getLsbD (posOf i)

/-- The lanes of a vector, words 0 to W(len) - 1: all that a command reads of it (42_whole_vector.md R160,
10_state.md R46). -/
def VReg.lanes (v : VReg) : List Word := (List.range (wordCount v.len)).map v.word

/-- padBits(v): the bits of the final word at indices len and above (00_scope.md R15). -/
def VReg.padBits (v : VReg) : Word :=
  if wordCount v.len = 0 then 0#32 else v.word (wordCount v.len - 1) &&& ~~~(padMask v.len)

/-- The bits of a vector at indices 0 to len - 1, ascending. -/
def VReg.bits (v : VReg) : List Bool := (List.range v.len).map v.bit

/-- The indices of the one bits, ascending (43_serialization.md R182). -/
def VReg.indices (v : VReg) : List Nat := (List.range v.len).filter v.bit

/-- A constructed register (10_state.md R21). -/
def VReg.make (len : Nat) (words : List Word) : VReg := { valid := true, len := len, words := words }

/-- Write bit i of a list of words: `| m` for true, `& ~m` for false (41_bit_access.md R133). -/
def setBit (ws : List Word) (i : Nat) (f : Bool) : List Word :=
  ws.modify (wordOf i) (fun w => if f then w ||| bitMask i else w &&& ~~~(bitMask i))

/-- Flip bit i of a list of words (41_bit_access.md R134). -/
def flipBit (ws : List Word) (i : Nat) : List Word := ws.modify (wordOf i) (fun w => w ^^^ bitMask i)

/-- Clear the padding bits of the final word of a vector of length `len` (42_whole_vector.md R154). -/
def maskLast (len : Nat) (ws : List Word) : List Word :=
  if wordCount len = 0 then ws else ws.modify (wordCount len - 1) (fun w => w &&& padMask len)

/-- popcount32(w), the normative value: how many of the 32 bits are one (42_whole_vector.md R152). -/
def popcount32 (w : Word) : Nat := (List.range 32).countP w.getLsbD

/-- The reduction tree of 42_whole_vector.md R152, as the rule writes it. COUNT uses `popcount32`; that the two
agree is a statement of its own. -/
def popcountTree (w : Word) : Word :=
  let x1 := w - ((w >>> 1) &&& 0x55555555#32)
  let x2 := (x1 &&& 0x33333333#32) + ((x1 >>> 2) &&& 0x33333333#32)
  let x3 := (x2 + (x2 >>> 4)) &&& 0x0F0F0F0F#32
  (x3 * 0x01010101#32) >>> 24

/-- The sum of popcount32 over the lanes (42_whole_vector.md R153). -/
def VReg.popcount (v : VReg) : Nat := (v.lanes.map popcount32).sum

end Sys2Proof.Machine
end

