-- ==== Sys2Proof/Machine/Flags.lean ====
section
/-! DEFINITION. STATUS: the error codes (60_exceptions.md R213), every way a command writes the register's fields
(10_state.md R30 to R35), and the 32-bit word a host reads (R29, R36). The BVALU has no other flag (R43). -/

namespace Sys2Proof.Machine

/-- The errors a command can raise (60_exceptions.md R213). -/
inductive Err where
  /-- 60_exceptions.md R214 -/
  | index
  /-- R215 -/
  | lengthMismatch
  /-- R216 -/
  | format
  /-- R217 -/
  | illegalCommand
  /-- R218 -/
  | uninitialisedVector
  /-- R219 -/
  | capacity
  deriving DecidableEq, Repr

/-- code(E) (60_exceptions.md R213). -/
def errCode : Err → BitVec 4
  | .index => 1
  | .lengthMismatch => 2
  | .format => 3
  | .illegalCommand => 4
  | .uninitialisedVector => 5
  | .capacity => 6

/-- What a command that completes writes: ERR <- 0 (60_exceptions.md R212). -/
def statusCompleted (st : Status) : Status := { st with err := 0 }

/-- What a command that raises E writes: ERR <- code(E), ERRSEEN <- 1 (60_exceptions.md R211). -/
def statusRaised (e : Err) (st : Status) : Status := { st with err := errCode e, errseen := true }

/-- What a successful ITSTART writes (44_iteration.md R200), ERR <- 0 apart. -/
def statusItStarted (va : VNum) (st : Status) : Status :=
  { st with itactive := true, itvreg := va, itbit := false, itdone := false }

/-- What an ITNEXT that returns a pair writes (44_iteration.md R201), ERR <- 0 apart. -/
def statusItPair (b : Bool) (st : Status) : Status := { st with itbit := b, itdone := false }

/-- What an exhausted ITNEXT writes (44_iteration.md R201), ERR <- 0 apart. -/
def statusItExhausted (st : Status) : Status := { st with itdone := true, itbit := false }

/-- STATUS as the host reads it (10_state.md R29); bits 31:12 are zero (R36). -/
def Status.word (st : Status) : Word :=
  0#20 ++ st.itvreg ++ BitVec.ofBool st.itactive ++ BitVec.ofBool st.itdone ++ BitVec.ofBool st.itbit
    ++ BitVec.ofBool st.errseen ++ st.err

end Sys2Proof.Machine
end

