-- ==== Sys2Proof/Machine/Ops.lean ====
section
/-! DEFINITION. The named operations over the buffers, the vector register file and the registers
(00_scope.md R12); how a command completes (60_exceptions.md R212) and how it raises an error (R211). The BVALU
has no exception entry beyond `raise`, and no return from one (R210, R221). -/

namespace Sys2Proof.Machine

/-- The byte at an address of a buffer; an unlisted one is 0x00 (70_reset_and_hazards.md R240; log 13). -/
def Memory.read (m : Memory) (a : Nat) : Byte :=
  match m with
  | [] => 0#8
  | (k, b) :: rest => if a < k then 0#8 else if a = k then b else Memory.read rest a

/-- One cell in canonical form: none for the byte an unlisted address reads. -/
def Memory.cell (a : Nat) (b : Byte) : Memory := if b = 0#8 then [] else [(a, b)]

/-- Write one byte of a buffer, keeping the canonical form. -/
def Memory.write (m : Memory) (a : Nat) (b : Byte) : Memory :=
  match m with
  | [] => Memory.cell a b
  | (k, c) :: rest =>
    if a < k then Memory.cell a b ++ (k, c) :: rest
    else if a = k then Memory.cell a b ++ rest
    else (k, c) :: Memory.write rest a b

/-- Write a string of bytes from address `a` up (43_serialization.md R180). -/
def Memory.writeAll (m : Memory) (a : Nat) (bs : List Byte) : Memory :=
  match bs with
  | [] => m
  | b :: rest => Memory.writeAll (Memory.write m a b) (a + 1) rest

/-- MemRead(m, a, n): the bytes at addresses a to a + n - 1 (00_scope.md R12). -/
def Memory.readAll (m : Memory) (a n : Nat) : List Byte := (List.range n).map (fun k => m.read (a + k))

/-- V[a] (00_scope.md R12). A number that no register has reads as an unconstructed one; step never asks for one
(30_encoding.md R74; log 10). -/
def State.vreg (s : State) (a : VNum) : VReg := s.vregs.getD a.toNat VReg.reset

/-- V[a] <- v (00_scope.md R12). Nothing is written where there is no register (log 10). -/
def State.setVreg (s : State) (a : VNum) (v : VReg) : State :=
  { s with vregs := s.vregs.set a.toNat v }

/-- RES <- w (10_state.md R27). -/
def State.setRes (s : State) (w : Word) : State := { s with res := w }

/-- A command completes without raising: ERR <- 0 beside its own writes (60_exceptions.md R212). -/
def complete (s : State) : Result := .next { s with status := statusCompleted s.status }

/-- `raise E`: STATUS.ERR and STATUS.ERRSEEN are written and nothing else (60_exceptions.md R211). The `info`
argument of the pseudocode is recorded nowhere. -/
def raise (e : Err) (s : State) : Result := .next { s with status := statusRaised e s.status }

/-- `RES <- n` for a count or a length, then completion (10_state.md R27). -/
def completeRes (n : Nat) (s : State) : Result := complete (s.setRes (BitVec.ofNat 32 n))

/-- `V[a] <- v`, then completion. -/
def completeVreg (a : VNum) (v : VReg) (s : State) : Result := complete (s.setVreg a v)

/-- emit(out): the bytes to OBUF[0 ..], OLEN <- their number, then completion (43_serialization.md R180). An
output longer than OBUF has nowhere to go and faults (log 7). -/
def emit (out : List Byte) (s : State) : Result :=
  if out.length ≤ s.cfg.obufCap then
    complete { s with obuf := s.obuf.writeAll 0 out, olen := BitVec.ofNat 32 out.length }
  else .fault .obufOutOfRange

end Sys2Proof.Machine
end

