-- ==== Sys2Proof/Machine/Operands.lean ====
section
/-! DEFINITION. The operand forms and the checks the command rules share: a vector operand
(60_exceptions.md R218), an index (41_bit_access.md R130), a length against MAXLEN (R219), two vectors of equal
length (42_whole_vector.md R155), and the bytes of the input buffer (10_state.md R38). -/

namespace Sys2Proof.Machine

/-- Read V[a] as a vector operand: UninitialisedVector where it is not constructed (60_exceptions.md R218,
10_state.md R22). -/
def withVector (a : VNum) (s : State) (k : VReg → Result) : Result :=
  if (s.vreg a).valid then k (s.vreg a) else raise .uninitialisedVector s

/-- checkIndex(v, i): IndexError where i >= len (41_bit_access.md R130). -/
def withIndex (v : VReg) (imm : Word) (s : State) (k : Nat → Result) : Result :=
  if imm.toNat < v.len then k imm.toNat else raise .index s

/-- CapacityError where a length is above MAXLEN (60_exceptions.md R219). -/
def withCapacity (len : Nat) (s : State) (k : Result) : Result :=
  if len ≤ s.cfg.maxlen then k else raise .capacity s

/-- binopCheck(va, vb): both constructed, VA before VB, and of equal length (42_whole_vector.md R155). -/
def withPair (va vb : VNum) (s : State) (k : VReg → VReg → Result) : Result :=
  withVector va s fun a =>
    withVector vb s fun b => if a.len = b.len then k a b else raise .lengthMismatch s

/-- IBUF[0 .. ILEN-1] (10_state.md R38, R39). -/
def State.input (s : State) : List Byte := s.ibuf.readAll 0 s.ilen.toNat

/-- Read the input text. An ILEN above IBUF_CAP names bytes that do not exist and faults (log 7). -/
def withInput (s : State) (k : List Byte → Result) : Result :=
  if s.ilen.toNat ≤ s.cfg.ibufCap then k s.input else .fault .ibufOutOfRange

/-- Go on with a parsed value, or raise FormatError (60_exceptions.md R216). -/
def orFormatError {α : Type} (x : Option α) (s : State) (k : α → Result) : Result :=
  match x with
  | some y => k y
  | none => raise .format s

end Sys2Proof.Machine
end

