-- ==== Sys2Proof/Machine/BitAccess.lean ====
section
/-! DEFINITION. The bit access commands (41_bit_access.md): SIZE, GET, SET, TOGGLE, RESET. -/

namespace Sys2Proof.Machine

/-- SIZE (41_bit_access.md R131). -/
def execSize (va : VNum) (s : State) : Result := withVector va s fun v => completeRes v.len s

/-- GET (41_bit_access.md R132). -/
def execGet (va : VNum) (imm : Word) (s : State) : Result :=
  withVector va s fun v => withIndex v imm s fun i => completeRes (v.bit i).toNat s

/-- SET (41_bit_access.md R133). -/
def execSet (va : VNum) (imm : Word) (f : Bool) (s : State) : Result :=
  withVector va s fun v =>
    withIndex v imm s fun i => completeVreg va { v with words := setBit v.words i f } s

/-- TOGGLE (41_bit_access.md R134). -/
def execToggle (va : VNum) (imm : Word) (s : State) : Result :=
  withVector va s fun v =>
    withIndex v imm s fun i => completeVreg va { v with words := flipBit v.words i } s

/-- RESET (41_bit_access.md R135). -/
def execReset (va : VNum) (s : State) : Result :=
  withVector va s fun v => completeVreg va (VReg.make v.len (List.replicate (wordCount v.len) 0#32)) s

end Sys2Proof.Machine
end

