-- ==== Sys2Proof/Machine/Text.lean ====
section
/-! DEFINITION. The serialisation converter: the texts the construction commands read (40_construction.md R101,
R102, R105, R107) and the byte strings the serialisation commands write (43_serialization.md R181 to R186), as
functions on lists of bytes. The ASCII codes are those of 00_scope.md R11 (log 8). -/

namespace Sys2Proof.Machine

/-- The codes of '0', '1', 'a', 'A', 'x', 'X', '[', ']' and ',' (00_scope.md R11). -/
def chZero : Byte := 0x30#8
def chOne : Byte := 0x31#8
def chLowerA : Byte := 0x61#8
def chUpperA : Byte := 0x41#8
def chLowerX : Byte := 0x78#8
def chUpperX : Byte := 0x58#8
def chOpen : Byte := 0x5B#8
def chClose : Byte := 0x5D#8
def chComma : Byte := 0x2C#8

/-- The value of a hexadecimal digit, either case (40_construction.md R101). -/
def hexDigit (ch : Byte) : Option (BitVec 4) :=
  if chZero.toNat ≤ ch.toNat ∧ ch.toNat ≤ chZero.toNat + 9 then some (BitVec.ofNat 4 (ch.toNat - chZero.toNat))
  else if chLowerA.toNat ≤ ch.toNat ∧ ch.toNat ≤ chLowerA.toNat + 5 then
    some (BitVec.ofNat 4 (ch.toNat - chLowerA.toNat + 10))
  else if chUpperA.toNat ≤ ch.toNat ∧ ch.toNat ≤ chUpperA.toNat + 5 then
    some (BitVec.ofNat 4 (ch.toNat - chUpperA.toNat + 10))
  else none

/-- Strip one "0x" or "0X" at the start of the text (40_construction.md R101). -/
def stripHexPrefix (t : List Byte) : List Byte :=
  match t with
  | c0 :: c1 :: rest => if c0 = chZero ∧ (c1 = chLowerX ∨ c1 = chUpperX) then rest else t
  | _ => t

/-- The digits of a text, all or none. -/
def hexDigits : List Byte → Option (List (BitVec 4))
  | [] => some []
  | ch :: rest =>
    match hexDigit ch, hexDigits rest with
    | some d, some ds => some (d :: ds)
    | _, _ => none

/-- parseHex() (40_construction.md R101): the digits after an optional prefix, at least one. -/
def parseHex (t : List Byte) : Option (List (BitVec 4)) :=
  if (stripHexPrefix t).length = 0 then none else hexDigits (stripHexPrefix t)

/-- A group of digits as a number, the most significant digit first (40_construction.md R102). -/
def digitsWord (ds : List (BitVec 4)) : Word :=
  ds.foldl (fun acc d => (acc <<< 4) ||| d.setWidth 32) 0#32

/-- The words of `w` groups of 8 digits, the first group to word 0 (40_construction.md R102). -/
def groupWords (w : Nat) (p : List (BitVec 4)) : List Word :=
  (List.range w).map (fun j => digitsWord ((p.drop (8 * j)).take 8))

/-- The final word of a list has no one at an index of `len` or above (40_construction.md R102, R106). -/
def padClear (len : Nat) (ws : List Word) : Bool :=
  decide (wordCount len = 0) || decide (ws.getD (wordCount len - 1) 0#32 &&& ~~~(padMask len) = 0#32)

/-- placeHex(d, L) (40_construction.md R102). -/
def placeHex (d : List (BitVec 4)) (len : Nat) : Option VReg :=
  if d.length ≤ 8 * wordCount len then
    let ws := groupWords (wordCount len) (List.replicate (8 * wordCount len - d.length) 0#4 ++ d)
    if padClear len ws then some (VReg.make len ws) else none
  else none

/-- The length FROMHEX takes for a text of n digits, 32 * W(4n) (40_construction.md R103). -/
def impliedLength (n : Nat) : Nat := 32 * wordCount (4 * n)

/-- The value of a decimal digit (40_construction.md R105). -/
def decDigit (ch : Byte) : Option Nat :=
  if chZero.toNat ≤ ch.toNat ∧ ch.toNat ≤ chZero.toNat + 9 then some (ch.toNat - chZero.toNat) else none

/-- The rest of a JSON word array after its '[' (40_construction.md R105). The first argument is `none` where a
number must begin, and `some n` inside a number whose digits so far have the value n. -/
def parseJsonFrom : Option Nat → List Byte → Option (List Word)
  | _, [] => none
  | none, ch :: rest =>
    match decDigit ch with
    | some d => parseJsonFrom (some d) rest
    | none => none
  | some n, ch :: rest =>
    match decDigit ch with
    | some d => if n = 0 then none else parseJsonFrom (some (10 * n + d)) rest
    | none =>
      if 4294967295 < n then none
      else if ch = chComma then (parseJsonFrom none rest).map (fun ws => BitVec.ofNat 32 n :: ws)
      else if ch = chClose ∧ rest = [] then some [BitVec.ofNat 32 n]
      else none

/-- parseJson() (40_construction.md R105). -/
def parseJson (t : List Byte) : Option (List Word) :=
  if t = [chOpen, chClose] then some []
  else
    match t with
    | [] => none
    | ch :: rest => if ch = chOpen then parseJsonFrom none rest else none

/-- The vector of a parsed word array and a length, where the word count and the padding fit it
(40_construction.md R106). -/
def placeJson (ws : List Word) (len : Nat) : Option VReg :=
  if ws.length = wordCount len ∧ padClear len ws = true then some (VReg.make len ws) else none

/-- One byte of a boolean array (40_construction.md R107). -/
def boolOfByte (b : Byte) : Option Bool := if b = 0x01#8 then some true else if b = 0x00#8 then some false else none

/-- A boolean array, all bytes or none. -/
def boolsOfBytes : List Byte → Option (List Bool)
  | [] => some []
  | b :: rest =>
    match boolOfByte b, boolsOfBytes rest with
    | some x, some xs => some (x :: xs)
    | _, _ => none

/-- Set the bits of a list of words that are true, from index i on (40_construction.md R107). -/
def setBits (ws : List Word) (i : Nat) : List Bool → List Word
  | [] => ws
  | b :: rest => setBits (if b then setBit ws i true else ws) (i + 1) rest

/-- The vector of a boolean array (40_construction.md R107). -/
def placeBools (bs : List Bool) : VReg :=
  VReg.make bs.length (setBits (List.replicate (wordCount bs.length) 0#32) 0 bs)

/-- TOARRAY's output (43_serialization.md R181). -/
def arrayBytes (v : VReg) : List Byte := v.bits.map (fun b => if b then 0x01#8 else 0x00#8)

/-- The four bytes of an index, the least significant first (43_serialization.md R182, 20_memory.md R51). -/
def indexBytes (i : Nat) : List Byte :=
  [BitVec.ofNat 8 i, BitVec.ofNat 8 (i / 2 ^ 8), BitVec.ofNat 8 (i / 2 ^ 16), BitVec.ofNat 8 (i / 2 ^ 24)]

/-- TOINTARRAY's output (43_serialization.md R182). -/
def intArrayBytes (v : VReg) : List Byte := v.indices.flatMap indexBytes

/-- TOSTRING's output, index 0 first (43_serialization.md R183). -/
def stringBytes (v : VReg) : List Byte := v.bits.map (fun b => if b then chOne else chZero)

/-- TOBINSTR's output, index len - 1 first (43_serialization.md R184). -/
def binStringBytes (v : VReg) : List Byte :=
  (List.range v.len).map (fun k => if v.bit (v.len - 1 - k) then chOne else chZero)

/-- hexchar(d), lower case (43_serialization.md R185). -/
def hexChar (d : BitVec 4) : Byte :=
  if d.toNat < 10 then BitVec.ofNat 8 (chZero.toNat + d.toNat)
  else BitVec.ofNat 8 (chLowerA.toNat + (d.toNat - 10))

/-- The 8 digits of a word, the most significant first (43_serialization.md R185). -/
def wordHexChars (w : Word) : List Byte :=
  (List.range 8).map (fun k => hexChar (w.extractLsb' (4 * (7 - k)) 4))

/-- TOHEX's output (43_serialization.md R185). -/
def hexBytes (v : VReg) : List Byte := v.lanes.flatMap wordHexChars

/-- The decimal numeral of a number of at most `fuel` digits, without leading zeros (43_serialization.md R186). -/
def decNumeral : Nat → Nat → List Byte
  | 0, _ => []
  | fuel + 1, n =>
    if n < 10 then [BitVec.ofNat 8 (chZero.toNat + n)]
    else decNumeral fuel (n / 10) ++ [BitVec.ofNat 8 (chZero.toNat + n % 10)]

/-- dec(w): a u32 has at most 10 decimal digits (43_serialization.md R186). -/
def decChars (w : Word) : List Byte := decNumeral 10 w.toNat

/-- The numerals of a list of words with commas between them (43_serialization.md R186). -/
def jsonItems : List Word → List Byte
  | [] => []
  | [w] => decChars w
  | w :: rest => decChars w ++ chComma :: jsonItems rest

/-- The canonical JSON text of a list of words (43_serialization.md R186). -/
def jsonText (ws : List Word) : List Byte := chOpen :: (jsonItems ws ++ [chClose])

/-- TOJSON's output (43_serialization.md R186). -/
def jsonBytes (v : VReg) : List Byte := jsonText v.lanes

end Sys2Proof.Machine
end

