-- ==== Sys2Proof/Machine/Construct.lean ====
section
/-! DEFINITION. The construction commands (40_construction.md): NEW, FROMHEX, FROMHEXL, FROMJSON, FROMARRAY. Each
writes the whole register V[VA] or, raising, leaves it as it was (R108). -/

namespace Sys2Proof.Machine

/-- NEW (40_construction.md R100). -/
def execNew (va : VNum) (imm : Word) (s : State) : Result :=
  withCapacity imm.toNat s
    (completeVreg va (VReg.make imm.toNat (List.replicate (wordCount imm.toNat) 0#32)) s)

/-- FROMHEX (40_construction.md R103): the parse comes before the capacity check. -/
def execFromhex (va : VNum) (s : State) : Result :=
  withInput s fun t =>
    orFormatError (parseHex t) s fun d =>
      withCapacity (impliedLength d.length) s
        (orFormatError (placeHex d (impliedLength d.length)) s fun v => completeVreg va v s)

/-- FROMHEXL (40_construction.md R104): the capacity check comes before the parse. -/
def execFromhexl (va : VNum) (imm : Word) (s : State) : Result :=
  withCapacity imm.toNat s
    (withInput s fun t =>
      orFormatError (parseHex t) s fun d =>
        orFormatError (placeHex d imm.toNat) s fun v => completeVreg va v s)

/-- FROMJSON (40_construction.md R106): the capacity check comes before the parse. -/
def execFromjson (va : VNum) (imm : Word) (s : State) : Result :=
  withCapacity imm.toNat s
    (withInput s fun t =>
      orFormatError (parseJson t) s fun ws =>
        orFormatError (placeJson ws imm.toNat) s fun v => completeVreg va v s)

/-- FROMARRAY (40_construction.md R107): the length is ILEN. -/
def execFromarray (va : VNum) (s : State) : Result :=
  withCapacity s.ilen.toNat s
    (withInput s fun t => orFormatError (boolsOfBytes t) s fun bs => completeVreg va (placeBools bs) s)

end Sys2Proof.Machine
end

