-- ==== Sys2Proof/Machine/Iterate.lean ====
section
/-! DEFINITION. The iteration commands (44_iteration.md): ITSTART, ITNEXT. The iterator is a live view of a vector
register (R202). -/

namespace Sys2Proof.Machine

/-- ITSTART (44_iteration.md R200). -/
def execItstart (va : VNum) (s : State) : Result :=
  withVector va s fun _ => complete { s with status := statusItStarted va s.status, itpos := 0 }

/-- ITNEXT (44_iteration.md R201). An active iterator on an unconstructed register, which no reachable state has
(R202), raises as every read of one does (10_state.md R22; log 6). -/
def execItnext (s : State) : Result :=
  if s.status.itactive then
    withVector s.status.itvreg s fun v =>
      if s.itpos.toNat < v.len then
        complete
          { s with
            res := s.itpos
            status := statusItPair (v.bit s.itpos.toNat) s.status
            itpos := s.itpos + 1 }
      else complete { s with status := statusItExhausted s.status }
  else raise .uninitialisedVector s

end Sys2Proof.Machine
end

