-- ==== Sys2Proof/Machine/Serial.lean ====
section
/-! DEFINITION. The serialisation commands (43_serialization.md): TOARRAY, TOINTARRAY, TOSTRING, TOBINSTR, TOHEX,
TOJSON. Each emits one byte string from OBUF[0] up (R180). -/

namespace Sys2Proof.Machine

/-- TOARRAY (43_serialization.md R181). -/
def execToarray (va : VNum) (s : State) : Result := withVector va s fun v => emit (arrayBytes v) s

/-- TOINTARRAY (43_serialization.md R182). -/
def execTointarray (va : VNum) (s : State) : Result := withVector va s fun v => emit (intArrayBytes v) s

/-- TOSTRING (43_serialization.md R183). -/
def execTostring (va : VNum) (s : State) : Result := withVector va s fun v => emit (stringBytes v) s

/-- TOBINSTR (43_serialization.md R184). -/
def execTobinstr (va : VNum) (s : State) : Result := withVector va s fun v => emit (binStringBytes v) s

/-- TOHEX (43_serialization.md R185). -/
def execTohex (va : VNum) (s : State) : Result := withVector va s fun v => emit (hexBytes v) s

/-- TOJSON (43_serialization.md R186). -/
def execTojson (va : VNum) (s : State) : Result := withVector va s fun v => emit (jsonBytes v) s

end Sys2Proof.Machine
end

