-- ==== Sys2Proof/Machine/Whole.lean ====
section
/-! DEFINITION. The whole-vector commands (42_whole_vector.md): COPY, EQUALS, COUNT, NOT, AND, OR, XOR, over the
lanes of the vectors (R160). -/

namespace Sys2Proof.Machine

/-- COPY (42_whole_vector.md R150): the destination is not checked. -/
def execCopy (va vb : VNum) (s : State) : Result :=
  withVector vb s fun v => completeVreg va (VReg.make v.len v.words) s

/-- The comparison of EQUALS (42_whole_vector.md R151). -/
def sameVector (a b : VReg) : Bool := decide (a.len = b.len) && decide (a.lanes = b.lanes)

/-- EQUALS (42_whole_vector.md R151): lengths that differ raise nothing. -/
def execEquals (va vb : VNum) (s : State) : Result :=
  withVector va s fun a => withVector vb s fun b => completeRes (sameVector a b).toNat s

/-- COUNT (42_whole_vector.md R153). -/
def execCount (va : VNum) (s : State) : Result := withVector va s fun v => completeRes v.popcount s

/-- NOT (42_whole_vector.md R154). -/
def execNot (va : VNum) (s : State) : Result :=
  withVector va s fun v =>
    completeVreg va { v with words := maskLast v.len (v.lanes.map (fun w => ~~~w)) } s

/-- The word-wise executor of AND, OR and XOR: lane j of the result from lane j of the operands
(42_whole_vector.md R160). -/
def lanewise (f : Word → Word → Word) (a b : VReg) : VReg :=
  { a with words := List.zipWith f a.lanes b.lanes }

/-- AND (42_whole_vector.md R156). -/
def execAnd (va vb : VNum) (s : State) : Result :=
  withPair va vb s fun a b => completeVreg va (lanewise (fun x y => x &&& y) a b) s

/-- OR (42_whole_vector.md R157). -/
def execOr (va vb : VNum) (s : State) : Result :=
  withPair va vb s fun a b => completeVreg va (lanewise (fun x y => x ||| y) a b) s

/-- XOR (42_whole_vector.md R158). -/
def execXor (va vb : VNum) (s : State) : Result :=
  withPair va vb s fun a b => completeVreg va (lanewise (fun x y => x ^^^ y) a b) s

end Sys2Proof.Machine
end

