-- ==== Sys2Proof/Machine/Dispatch.lean ====
section
/-! DEFINITION. One arm per command: the command rule it runs (30_encoding.md R76, R79). -/

namespace Sys2Proof.Machine

def exec (i : Instr) (s : State) : Host.Outcome State Fault Refusal :=
  match i with
  | .new va imm => Sys2Proof.Machine.execNew va imm s
  | .fromhex va => Sys2Proof.Machine.execFromhex va s
  | .fromhexl va imm => Sys2Proof.Machine.execFromhexl va imm s
  | .fromjson va imm => Sys2Proof.Machine.execFromjson va imm s
  | .fromarray va => Sys2Proof.Machine.execFromarray va s
  | .size va => Sys2Proof.Machine.execSize va s
  | .get va imm => Sys2Proof.Machine.execGet va imm s
  | .set va imm f => Sys2Proof.Machine.execSet va imm f s
  | .toggle va imm => Sys2Proof.Machine.execToggle va imm s
  | .reset va => Sys2Proof.Machine.execReset va s
  | .copy va vb => Sys2Proof.Machine.execCopy va vb s
  | .equals va vb => Sys2Proof.Machine.execEquals va vb s
  | .count va => Sys2Proof.Machine.execCount va s
  | .vnot va => Sys2Proof.Machine.execNot va s
  | .vand va vb => Sys2Proof.Machine.execAnd va vb s
  | .vor va vb => Sys2Proof.Machine.execOr va vb s
  | .vxor va vb => Sys2Proof.Machine.execXor va vb s
  | .toarray va => Sys2Proof.Machine.execToarray va s
  | .tointarray va => Sys2Proof.Machine.execTointarray va s
  | .tostring va => Sys2Proof.Machine.execTostring va s
  | .tobinstr va => Sys2Proof.Machine.execTobinstr va s
  | .tohex va => Sys2Proof.Machine.execTohex va s
  | .tojson va => Sys2Proof.Machine.execTojson va s
  | .itstart va => Sys2Proof.Machine.execItstart va s
  | .itnext => Sys2Proof.Machine.execItnext s

end Sys2Proof.Machine
end

