-- ==== Sys2Proof/Machine/HostOps.lean ====
section
/-! DEFINITION. The host operations other than ISSUE (20_memory.md R56), and how the host's next operation is
taken from its list (10_state.md R28; log 2). -/

namespace Sys2Proof.Machine

/-- WRITE_IBUF(k, b): ignored where k >= IBUF_CAP (20_memory.md R56). -/
def hostWriteIbuf (k : Word) (b : Byte) (s : State) : State :=
  if k.toNat < s.cfg.ibufCap then { s with ibuf := s.ibuf.write k.toNat b } else s

/-- WRITE_ILEN(n): ignored where n > IBUF_CAP (20_memory.md R56, 10_state.md R39). -/
def hostWriteIlen (n : Word) (s : State) : State :=
  if n.toNat ≤ s.cfg.ibufCap then { s with ilen := n } else s

/-- The 32-bit value of a register as READ returns it (20_memory.md R56, 10_state.md R42). -/
def regValue (x : RegName) (s : State) : Word :=
  match x with
  | .res => s.res
  | .status => s.status.word
  | .ilen => s.ilen
  | .olen => s.olen
  | .itpos => s.itpos
  | .cfgNv => BitVec.ofNat 32 s.cfg.nv
  | .cfgMaxlen => BitVec.ofNat 32 s.cfg.maxlen
  | .cfgIbufCap => BitVec.ofNat 32 s.cfg.ibufCap
  | .cfgObufCap => BitVec.ofNat 32 s.cfg.obufCap

/-- What READ_IBUF(k) returns: 0x00 where k >= IBUF_CAP (20_memory.md R56). -/
def ibufValue (k : Word) (s : State) : Byte := if k.toNat < s.cfg.ibufCap then s.ibuf.read k.toNat else 0#8

/-- What READ_OBUF(k) returns: 0x00 where k >= OBUF_CAP (20_memory.md R56). -/
def obufValue (k : Word) (s : State) : Byte := if k.toNat < s.cfg.obufCap then s.obuf.read k.toNat else 0#8

/-- A value reaches the host; the BVALU is not changed (20_memory.md R57). -/
def hostReceive (x : HostValue) (s : State) : State := { s with hostReads := x :: s.hostReads }

/-- READ(X) (20_memory.md R56). -/
def hostRead (x : RegName) (s : State) : State := hostReceive (.word (regValue x s)) s

/-- READ_IBUF(k) (20_memory.md R56). -/
def hostReadIbuf (k : Word) (s : State) : State := hostReceive (.byte (ibufValue k s)) s

/-- READ_OBUF(k) (20_memory.md R56). -/
def hostReadObuf (k : Word) (s : State) : State := hostReceive (.byte (obufValue k s)) s

/-- RESET(): every piece of the BVALU's state to its reset value, the parameters unchanged
(70_reset_and_hazards.md R240, R241). The host's list and what it has read are the host's (log 11). -/
def hostReset (s : State) : State :=
  { State.resetOf s.cfg with hostOps := s.hostOps, hostReads := s.hostReads }

/-- The next host operation and the state without it, or `none` where the host has nothing to do. -/
def nextHostOp (s : State) : Option (HostOp × State) :=
  match s.hostOps with
  | [] => none
  | op :: rest => some (op, { s with hostOps := rest })

/-- Put a command word where the next step takes its operation from. -/
def pushIssue (s : State) (c : CommandWord) : State := { s with hostOps := .issue c :: s.hostOps }

end Sys2Proof.Machine
end

