-- ==== Sys2Proof/Machine/Step.lean ====
section
/-! DEFINITION. One step of the model: the host performs the next operation of its list (10_state.md R28), and an
ISSUE is performed to completion (20_memory.md R55, R56). -/

namespace Sys2Proof.Machine

/-- ISSUE(c): decode_and_execute (30_encoding.md R79). -/
def issue (c : CommandWord) (s : State) : Result :=
  match decode s.cfg.nv c with
  | .command i => exec i s
  | .illegal _ => raise .illegalCommand s

/-- One host operation (20_memory.md R56). -/
def perform (op : HostOp) (s : State) : Result :=
  match op with
  | .writeIbuf k b => .next (hostWriteIbuf k b s)
  | .writeIlen n => .next (hostWriteIlen n s)
  | .issue c => issue c s
  | .read x => .next (hostRead x s)
  | .readIbuf k => .next (hostReadIbuf k s)
  | .readObuf k => .next (hostReadObuf k s)
  | .reset => .next (hostReset s)

/-- One step: the host's next operation; with none left nothing changes (log 2). -/
def step (s : State) : Host.Outcome State Fault Refusal :=
  match nextHostOp s with
  | none => .next s
  | some (op, s') => perform op s'

/-- The state whose very next step issues the command word `w` of `nbits` bits: the command port holds no program,
so the word is put at the front of the host's list (log 3). -/
def State.withFetchWord (s : State) (nbits w : Nat) : State :=
  pushIssue s (BitVec.ofNat 64 (w % 2 ^ nbits))

end Sys2Proof.Machine
end

