-- ==== Sys2Proof/Safety.lean ====
section
/-! DEFINITION. What the spec promises of every state a run can reach: the legal parameters (00_scope.md R6 to R9,
10_state.md R42) and the invariants of the state (10_state.md R23 to R25, R30, R35, R37, R39, R41; 44_iteration.md
R202). Claims take them as premises where they could fail only in states no run reaches. -/

namespace Sys2Proof

open Sys2Proof.Machine

/-- The parameters the spec admits (00_scope.md R6 to R9, 10_state.md R42). -/
structure Config.Legal (c : Config) : Prop where
  nv_pos : 1 ≤ c.nv
  nv_le : c.nv ≤ 16
  maxlen_le : c.maxlen ≤ 2 ^ 31 - 1
  ibuf_pos : 1 ≤ c.ibufCap
  ibuf_le : c.ibufCap ≤ 2 ^ 32 - 1
  obuf_two : 2 ≤ c.obufCap
  obuf_indices : 4 * c.maxlen ≤ c.obufCap
  obuf_json : 11 * wordCount c.maxlen + 1 ≤ c.obufCap
  obuf_le : c.obufCap ≤ 2 ^ 32 - 1

/-- The vector register a command writes when it completes: all of it for a construction command and COPY, its
words for SET, TOGGLE, RESET, NOT, AND, OR and XOR (10_state.md R21, section 6). -/
def Instr.dest : Instr → Option VNum
  | .new va _ => some va
  | .fromhex va => some va
  | .fromhexl va _ => some va
  | .fromjson va _ => some va
  | .fromarray va => some va
  | .size _ => none
  | .get _ _ => none
  | .set va _ _ => some va
  | .toggle va _ => some va
  | .reset va => some va
  | .copy va _ => some va
  | .equals _ _ => none
  | .count _ => none
  | .vnot va => some va
  | .vand va _ => some va
  | .vor va _ => some va
  | .vxor va _ => some va
  | .toarray _ => none
  | .tointarray _ => none
  | .tostring _ => none
  | .tobinstr _ => none
  | .tohex _ => none
  | .tojson _ => none
  | .itstart _ => none
  | .itnext => none

/-- The commands that write RES (10_state.md R27). -/
def Instr.writesRes : Instr → Bool
  | .new _ _ => false
  | .fromhex _ => false
  | .fromhexl _ _ => false
  | .fromjson _ _ => false
  | .fromarray _ => false
  | .size _ => true
  | .get _ _ => true
  | .set _ _ _ => false
  | .toggle _ _ => false
  | .reset _ => false
  | .copy _ _ => false
  | .equals _ _ => true
  | .count _ => true
  | .vnot _ => false
  | .vand _ _ => false
  | .vor _ _ => false
  | .vxor _ _ => false
  | .toarray _ => false
  | .tointarray _ => false
  | .tostring _ => false
  | .tobinstr _ => false
  | .tohex _ => false
  | .tojson _ => false
  | .itstart _ => false
  | .itnext => true

/-- The serialisation commands: the ones that write OBUF and OLEN (10_state.md R40, R41). -/
def Instr.serialises : Instr → Bool
  | .new _ _ => false
  | .fromhex _ => false
  | .fromhexl _ _ => false
  | .fromjson _ _ => false
  | .fromarray _ => false
  | .size _ => false
  | .get _ _ => false
  | .set _ _ _ => false
  | .toggle _ _ => false
  | .reset _ => false
  | .copy _ _ => false
  | .equals _ _ => false
  | .count _ => false
  | .vnot _ => false
  | .vand _ _ => false
  | .vor _ _ => false
  | .vxor _ _ => false
  | .toarray _ => true
  | .tointarray _ => true
  | .tostring _ => true
  | .tobinstr _ => true
  | .tohex _ => true
  | .tojson _ => true
  | .itstart _ => false
  | .itnext => false

/-- The iteration commands: the ones that write the iterator (10_state.md R32 to R35, R37). -/
def Instr.iterates : Instr → Bool
  | .new _ _ => false
  | .fromhex _ => false
  | .fromhexl _ _ => false
  | .fromjson _ _ => false
  | .fromarray _ => false
  | .size _ => false
  | .get _ _ => false
  | .set _ _ _ => false
  | .toggle _ _ => false
  | .reset _ => false
  | .copy _ _ => false
  | .equals _ _ => false
  | .count _ => false
  | .vnot _ => false
  | .vand _ _ => false
  | .vor _ _ => false
  | .vxor _ _ => false
  | .toarray _ => false
  | .tointarray _ => false
  | .tostring _ => false
  | .tobinstr _ => false
  | .tohex _ => false
  | .tojson _ => false
  | .itstart _ => true
  | .itnext => true

namespace Machine

/-- A constructed register as the spec keeps it: W(len) words (10_state.md R23), len at most MAXLEN (R24), zero
padding (R25). -/
structure VReg.Sound (maxlen : Nat) (v : VReg) : Prop where
  word_count : v.words.length = wordCount v.len
  len_le : v.len ≤ maxlen
  padding : v.padBits = 0

/-- A buffer of `cap` bytes: canonical, with nothing listed at `cap` or above (20_memory.md R50). -/
structure Memory.Within (cap : Nat) (m : Memory) : Prop where
  canonical : m.wf = true
  bounded : ∀ cell ∈ m, cell.1 < cap

/-- The invariant of the machine: what holds at reset and every step keeps. -/
structure State.Inv (s : State) : Prop where
  /-- The parameters are legal (00_scope.md R6 to R9). -/
  cfg_legal : s.cfg.Legal
  /-- There are NV vector registers (10_state.md R20). -/
  vreg_count : s.vregs.length = s.cfg.nv
  /-- Every constructed register is sound (10_state.md R23, R24, R25). -/
  vregs_sound : ∀ v ∈ s.vregs, v.valid = true → v.Sound s.cfg.maxlen
  /-- STATUS.ERR is 0 to 6 (10_state.md R30). -/
  err_legal : s.status.err.toNat ≤ 6
  /-- STATUS.ITVREG is below NV (10_state.md R35). -/
  itvreg_lt : s.status.itvreg.toNat < s.cfg.nv
  /-- An active iterator walks a constructed register (44_iteration.md R202). -/
  itvreg_valid : s.status.itactive = true → (s.vreg s.status.itvreg).valid = true
  /-- ITPOS is at most MAXLEN (10_state.md R37). -/
  itpos_le : s.itpos.toNat ≤ s.cfg.maxlen
  /-- ILEN is at most IBUF_CAP (10_state.md R39). -/
  ilen_le : s.ilen.toNat ≤ s.cfg.ibufCap
  /-- OLEN is at most OBUF_CAP (10_state.md R41). -/
  olen_le : s.olen.toNat ≤ s.cfg.obufCap
  /-- IBUF has IBUF_CAP bytes and is in canonical form (10_state.md R38). -/
  ibuf_within : s.ibuf.Within s.cfg.ibufCap
  /-- OBUF has OBUF_CAP bytes and is in canonical form (10_state.md R40). -/
  obuf_within : s.obuf.Within s.cfg.obufCap

/-- The BVALU's part of a state, with the host's part blanked: two states with the same device differ only in what
the host has still to do and has read (10_state.md R28, R45). -/
def State.device (s : State) : State := { s with hostOps := [], hostReads := [] }

/-- Two states that agree on all but the len and words of unconstructed registers, which no command may observe
(10_state.md R22). -/
structure SameObservable (s t : State) : Prop where
  others : { s with vregs := [] } = { t with vregs := [] }
  count : s.vregs.length = t.vregs.length
  valid : ∀ a : VNum, (s.vreg a).valid = (t.vreg a).valid
  constructed : ∀ a : VNum, (s.vreg a).valid = true → s.vreg a = t.vreg a

/-- Commands performed one after another, as the host issues them (20_memory.md R55). -/
def execAll : List Instr → State → Result
  | [], s => .next s
  | i :: rest, s =>
    match exec i s with
    | .next t => execAll rest t
    | .fault r => .fault r
    | .refused r => .refused r

end Machine

end Sys2Proof
end

