-- ==== Sys2Proof/Certificates/Slice0/Obligations.lean ====
section
/-! DEFINITION. The statements for the provers. First the words they share, then one definition per statement, in
the order of the spec's files: encoding, host operations and reset, errors, the 25 commands, frames, whole-machine
rules. Error codes are written as numbers of 60_exceptions.md R213. -/

namespace Sys2Proof.Machine

/-- The command or operation answers a next state, and that state is as `P` says. -/
def Answers (r : Result) (P : State → Prop) : Prop := ∃ t, r = .next t ∧ P t

/-- The command raises the error of this code: STATUS.ERR and STATUS.ERRSEEN are written and nothing else
(60_exceptions.md R211). -/
def Raises (code : BitVec 4) (i : Instr) (s : State) : Prop :=
  exec i s = .next { s with status := { s.status with err := code, errseen := true } }

/-- A command has completed into V[va]: ERR <- 0 (60_exceptions.md R212), and nothing but V[va] and ERR may differ. -/
def IntoVector (va : VNum) (s t : State) : Prop :=
  (∀ b : VNum, b ≠ va → t.vreg b = s.vreg b) ∧
    t = { s with vregs := t.vregs, status := { s.status with err := 0 } }

/-- A command has completed into RES: ERR <- 0 (60_exceptions.md R212), and nothing but RES and ERR may differ. -/
def IntoRes (s t : State) : Prop := t = { s with res := t.res, status := { s.status with err := 0 } }

/-- A command has completed into OBUF[0 .. OLEN-1] and OLEN: ERR <- 0 (60_exceptions.md R212), and nothing but those
and ERR may differ (43_serialization.md R180). -/
def IntoOutput (s t : State) : Prop :=
  t = { s with obuf := t.obuf, olen := t.olen, status := { s.status with err := 0 } } ∧
    ∀ k, t.olen.toNat ≤ k → t.obuf.read k = s.obuf.read k

/-- The bytes the host reads as the result of a serialisation command, OBUF[0 .. OLEN-1]
(43_serialization.md R180). -/
def State.output (s : State) : List Byte := s.obuf.readAll 0 s.olen.toNat

/-- Word j of placeHex(d, L) as the sum of 40_construction.md R102, for w = W(L) words. -/
def placedWord (w : Nat) (d : List (BitVec 4)) (j : Nat) : Nat :=
  ((List.range 8).map fun k =>
    ((List.replicate (8 * w - d.length) 0#4 ++ d).getD (8 * j + k) 0#4).toNat * 2 ^ (4 * (7 - k))).sum

/-- A hexadecimal digit and its value, by the three ranges of 40_construction.md R101. -/
def IsHexDigit (ch : Byte) (d : BitVec 4) : Prop :=
  (0x30 ≤ ch.toNat ∧ ch.toNat ≤ 0x39 ∧ d.toNat = ch.toNat - 0x30) ∨
    (0x61 ≤ ch.toNat ∧ ch.toNat ≤ 0x66 ∧ d.toNat = ch.toNat - 0x61 + 10) ∨
    (0x41 ≤ ch.toNat ∧ ch.toNat ≤ 0x46 ∧ d.toNat = ch.toNat - 0x41 + 10)

/-- The text begins with "0x" or "0X" and `u` is what follows (40_construction.md R101). -/
def HexPrefixed (t u : List Byte) : Prop := t = 0x30#8 :: 0x78#8 :: u ∨ t = 0x30#8 :: 0x58#8 :: u

/-- A decimal numeral of a word: digits only, no leading zero but in "0" itself (40_construction.md R105,
43_serialization.md R186). -/
def IsNumeral (t : List Byte) (w : Word) : Prop :=
  t ≠ [] ∧ (∀ ch ∈ t, 0x30 ≤ ch.toNat ∧ ch.toNat ≤ 0x39) ∧ (t.head? = some 0x30#8 → t.length = 1) ∧
    t.foldl (fun acc ch => 10 * acc + (ch.toNat - 0x30)) 0 = w.toNat

/-- A text of the grammar of 40_construction.md R105 for the words: '[', the numerals with ',' between them, ']'. -/
def IsJsonText (t : List Byte) (ws : List Word) : Prop :=
  ∃ nums : List (List Byte), List.Forall₂ IsNumeral nums ws ∧
    t = 0x5B#8 :: (List.intercalate [0x2C#8] nums ++ [0x5D#8])

/-- The words fit the length: W(L) of them, and no one at an index of L or above (40_construction.md R106). -/
def FitsLength (len : Nat) (ws : List Word) : Prop :=
  ws.length = (len + 31) / 32 ∧
    ∀ i, len ≤ i → i < 32 * ws.length → (ws.getD (i / 32) 0#32).getLsbD (i % 32) = false

/-- A letter A to F in lower case, any other byte as it is. -/
def lowerHex (ch : Byte) : Byte := if 0x41 ≤ ch.toNat ∧ ch.toNat ≤ 0x46 then ch + 0x20#8 else ch

/-- Everything but the vector registers and STATUS is as before. -/
def OnlyVregsAndStatus (s t : State) : Prop :=
  t.cfg = s.cfg ∧ t.res = s.res ∧ t.itpos = s.itpos ∧ t.ilen = s.ilen ∧ t.olen = s.olen ∧
    (∀ k, t.ibuf.read k = s.ibuf.read k) ∧ (∀ k, t.obuf.read k = s.obuf.read k) ∧
    t.hostOps = s.hostOps ∧ t.hostReads = s.hostReads

/-- The iterator's fields of STATUS are as before. -/
def SameIterator (s t : State) : Prop :=
  t.status.itbit = s.status.itbit ∧ t.status.itdone = s.status.itdone ∧
    t.status.itactive = s.status.itactive ∧ t.status.itvreg = s.status.itvreg

/-- ERRSEEN is set where the command raised and kept where it completed (10_state.md R31). -/
def StickyErrseen (s t : State) : Prop := t.status.errseen = (s.status.errseen || decide (t.status.err ≠ 0))

end Sys2Proof.Machine

open Sys2Proof Sys2Proof.Machine

/-! Encoding (30_encoding.md) -/

/-- Decoding the encoding of a well-formed command gives it back, with every operand at every value
(30_encoding.md R71 to R79). -/
def Obligations.DecodeOfEncodeIsTheCommand : Prop :=
  ∀ (nv : Nat) (i : Instr), i.wf nv = true → decode nv (encode i) = .command i

/-- Every legal word is the one encoding of its command, so two different legal words never select the same
command with the same operands (30_encoding.md R79). -/
def Obligations.LegalWordIsTheOneEncoding : Prop :=
  ∀ (nv : Nat) (c : CommandWord) (i : Instr), decode nv c = .command i →
    c = encode i ∧ i.wf nv = true ∧ ∀ c' : CommandWord, decode nv c' = .command i → c' = c

/-- A word that encodes no command of the instance raises IllegalCommand and does nothing else
(30_encoding.md R74, R77, R78; 60_exceptions.md R217). -/
def Obligations.OtherWordsRaiseIllegalCommand : Prop :=
  ∀ (s : State) (c : CommandWord), (∀ i : Instr, i.wf s.cfg.nv = true → encode i ≠ c) →
    perform (.issue c) s = .next { s with status := { s.status with err := 4, errseen := true } }

/-- A few words of the spec's own examples decode to the commands they stand for (40_construction.md R100, R104;
41_bit_access.md R133; 42_whole_vector.md R156; 43_serialization.md R186; 44_iteration.md R201). -/
def Obligations.ExampleWordsDecode : Prop :=
  decode 8 0x0000004800000101#64 = .command (.new 1 72) ∧
    decode 8 0x0000002000000103#64 = .command (.fromhexl 1 32) ∧
    decode 8 0x0000001F00010012#64 = .command (.set 0 31 true) ∧
    decode 8 0x0000000000003224#64 = .command (.vand 2 3) ∧
    decode 8 0x0000000000000535#64 = .command (.tojson 5) ∧
    decode 8 0x0000000000000041#64 = .command .itnext

/-! Host operations and reset (20_memory.md, 70_reset_and_hazards.md) -/

/-- A step performs the host's next operation and takes it off the list; where it is an ISSUE of a word that decodes,
the step is the command's meaning; with nothing left the step changes nothing (the list is the model's own, log 2).
The word that `withFetchWord` places is the one the very next step issues. -/
def Obligations.StepPerformsTheNextOperation : Prop :=
  ∀ (s : State) (op : HostOp) (rest : List HostOp), s.hostOps = op :: rest →
    (step s = perform op { s with hostOps := rest }) ∧
      (∀ (c : CommandWord) (i : Instr), op = .issue c → decode s.cfg.nv c = .command i →
        step s = exec i { s with hostOps := rest }) ∧
      (∀ (c : CommandWord) (r : Reject), op = .issue c → decode s.cfg.nv c = .illegal r →
        step s = raise .illegalCommand { s with hostOps := rest }) ∧
      (∀ i : Instr, decode s.cfg.nv (encode i) = .command i →
        step (s.withFetchWord 64 (encode i).toNat) = exec i s) ∧
      step { s with hostOps := [] } = .next { s with hostOps := [] }

/-- The table of host operations (20_memory.md R56), each operation on its own. That RESET() leaves the host's list and
what it has read as they were is the model's clause (log 11, DEDUCED), and so is where a read's value is kept (log 2,
DESIGN CHOICE). -/
def Obligations.HostOperationsActAsTabled : Prop :=
  ∀ s : State, s.Inv →
    (∀ (k : Word) (b : Byte), k.toNat < s.cfg.ibufCap →
      Answers (perform (.writeIbuf k b) s) fun t =>
        t.ibuf.read k.toNat = b ∧ (∀ x, x ≠ k.toNat → t.ibuf.read x = s.ibuf.read x) ∧ t = { s with ibuf := t.ibuf }) ∧
      (∀ (k : Word) (b : Byte), s.cfg.ibufCap ≤ k.toNat → perform (.writeIbuf k b) s = .next s) ∧
      (∀ n : Word, n.toNat ≤ s.cfg.ibufCap → perform (.writeIlen n) s = .next { s with ilen := n }) ∧
      (∀ n : Word, s.cfg.ibufCap < n.toNat → perform (.writeIlen n) s = .next s) ∧
      (∀ (c : CommandWord) (i : Instr), decode s.cfg.nv c = .command i → perform (.issue c) s = exec i s) ∧
      (∀ (c : CommandWord) (r : Reject), decode s.cfg.nv c = .illegal r →
        perform (.issue c) s = .next { s with status := { s.status with err := 4, errseen := true } }) ∧
      (∀ x : RegName, Answers (perform (.read x) s) fun t =>
        t = { s with hostReads := t.hostReads } ∧ ∃ w, t.hostReads = .word w :: s.hostReads ∧
          (x = .res → w = s.res) ∧ (x = .status → w = s.status.word) ∧ (x = .ilen → w = s.ilen) ∧
          (x = .olen → w = s.olen) ∧ (x = .itpos → w = s.itpos) ∧ (x = .cfgNv → w.toNat = s.cfg.nv) ∧
          (x = .cfgMaxlen → w.toNat = s.cfg.maxlen) ∧ (x = .cfgIbufCap → w.toNat = s.cfg.ibufCap) ∧
          (x = .cfgObufCap → w.toNat = s.cfg.obufCap)) ∧
      (∀ k : Word, perform (.readIbuf k) s = .next
        { s with hostReads :=
            .byte (if k.toNat < s.cfg.ibufCap then s.ibuf.read k.toNat else 0x00#8) :: s.hostReads }) ∧
      (∀ k : Word, perform (.readObuf k) s = .next
        { s with hostReads :=
            .byte (if k.toNat < s.cfg.obufCap then s.obuf.read k.toNat else 0x00#8) :: s.hostReads }) ∧
      perform .reset s = .next { State.resetOf s.cfg with hostOps := s.hostOps, hostReads := s.hostReads }

/-- READ, READ_IBUF and READ_OBUF change nothing of the BVALU, the same read again gives the same value, and every
operation but ISSUE and RESET is idempotent on the BVALU (20_memory.md R57). -/
def Obligations.ReadsHaveNoSideEffects : Prop :=
  (∀ (s : State) (op : HostOp), ((∃ x, op = .read x) ∨ (∃ k, op = .readIbuf k) ∨ ∃ k, op = .readObuf k) →
      Answers (perform op s) fun t => t.device = s.device ∧
        ∃ v, t.hostReads = v :: s.hostReads ∧
          Answers (perform op t) fun u => u.device = s.device ∧ u.hostReads = v :: v :: s.hostReads) ∧
    ∀ (s : State) (op : HostOp), s.Inv → (∀ c, op ≠ .issue c) → op ≠ .reset →
      Answers (perform op s) fun t => Answers (perform op t) fun u => u.device = t.device

/-- RESET() and power-on set every piece of state to its reset value in one step, which cannot fail, and leave the
parameters alone (70_reset_and_hazards.md R240, R241). That `State.reset` is the power-on state of the test environment
is the model's clause (log 1, DESIGN CHOICE). -/
def Obligations.ResetSetsEveryResetValue : Prop :=
  let atReset (c : Config) (t : State) : Prop :=
    (∀ a : VNum, a.toNat < c.nv → t.vreg a = { valid := false, len := 0, words := [] }) ∧
      t.vregs.length = c.nv ∧ t.res = 0 ∧ t.status.word = 0#32 ∧ t.itpos = 0 ∧ (∀ k, t.ibuf.read k = 0x00#8) ∧
      t.ilen = 0 ∧ (∀ k, t.obuf.read k = 0x00#8) ∧ t.olen = 0 ∧ t.cfg = c
  (∀ s : State, Answers (perform .reset s) fun t =>
      atReset s.cfg t ∧ ∀ x, x = RegName.cfgNv ∨ x = .cfgMaxlen ∨ x = .cfgIbufCap ∨ x = .cfgObufCap →
        regValue x t = regValue x s) ∧
    (∀ c : Config, atReset c (State.resetOf c)) ∧ State.reset = State.resetOf Config.testEnvironment

/-! Invariants (10_state.md) -/

/-- The reset state of every legal instance meets the invariant, and the instance of `State.reset` is legal (that
instance is the model's choice, log 1; 95_test_vectors.md, Test environment). -/
def Obligations.ResetMeetsTheInvariant : Prop :=
  (∀ c : Config, c.Legal → (State.resetOf c).Inv) ∧ State.reset.Inv

/-- Every step keeps the invariant: the word counts, lengths and zero padding of the vector registers, the legal
error codes, the iterator on a constructed register within MAXLEN, ILEN and OLEN within the buffers, and buffers in
canonical form within their capacities (10_state.md R23, R24, R25, R30, R35, R37, R39, R41; 44_iteration.md R202). -/
def Obligations.EveryStepKeepsTheInvariant : Prop :=
  ∀ s t : State, s.Inv → step s = .next t → t.Inv

/-- No step of the machine stops: every host operation and every command, legal or not, answers a next state, so no
output overflows OBUF and no command reads IBUF out of range (20_memory.md R55, R56; 43_serialization.md R180;
70_reset_and_hazards.md R249). -/
def Obligations.EveryStepAnswersANextState : Prop :=
  ∀ s : State, s.Inv → Answers (step s) fun _ => True

/-- Only RESET() clears ERRSEEN and ITACTIVE and makes a constructed register unconstructed, and no step changes a
parameter (10_state.md R21, R31, R34, R42). -/
def Obligations.OnlyResetClears : Prop :=
  ∀ s t : State, step s = .next t →
    t.cfg = s.cfg ∧
      (s.hostOps.head? ≠ some .reset →
        (s.status.errseen = true → t.status.errseen = true) ∧
          (s.status.itactive = true → t.status.itactive = true) ∧
          ∀ a : VNum, (s.vreg a).valid = true → (t.vreg a).valid = true)

/-! Errors (60_exceptions.md) -/

/-- A command, or a command word, that leaves an error code in ERR has set ERRSEEN and changed nothing else, so a
failed construction leaves its register as it was (60_exceptions.md R211, 40_construction.md R108). -/
def Obligations.ErrorsChangeOnlyStatus : Prop :=
  (∀ (i : Instr) (s t : State), exec i s = .next t → t.status.err ≠ 0 →
      t = { s with status := { s.status with err := t.status.err, errseen := true } }) ∧
    ∀ (c : CommandWord) (s t : State), perform (.issue c) s = .next t → t.status.err ≠ 0 →
      t = { s with status := { s.status with err := t.status.err, errseen := true } }

/-- Which commands raise which code (60_exceptions.md R213): 1 GET, SET, TOGGLE; 2 AND, OR, XOR; 3 FROMHEX,
FROMHEXL, FROMJSON, FROMARRAY; 4 the decoder alone; 5 every command with a vector operand, and ITNEXT; 6 NEW and
the four of code 3; no other code. -/
def Obligations.ErrorCodesAndTheirCommands : Prop :=
  (∀ (i : Instr) (s t : State), exec i s = .next t →
    t.status.err = 0 ∨
      (t.status.err = 1 ∧ ((∃ a n, i = .get a n) ∨ (∃ a n f, i = .set a n f) ∨ ∃ a n, i = .toggle a n)) ∨
      (t.status.err = 2 ∧ ((∃ a b, i = .vand a b) ∨ (∃ a b, i = .vor a b) ∨ ∃ a b, i = .vxor a b)) ∨
      (t.status.err = 3 ∧
        ((∃ a, i = .fromhex a) ∨ (∃ a n, i = .fromhexl a n) ∨ (∃ a n, i = .fromjson a n) ∨ ∃ a, i = .fromarray a)) ∨
      (t.status.err = 5 ∧
        ¬((∃ a n, i = .new a n) ∨ (∃ a, i = .fromhex a) ∨ (∃ a n, i = .fromhexl a n) ∨ (∃ a n, i = .fromjson a n) ∨
          ∃ a, i = .fromarray a)) ∨
      (t.status.err = 6 ∧
        ((∃ a n, i = .new a n) ∨ (∃ a, i = .fromhex a) ∨ (∃ a n, i = .fromhexl a n) ∨ (∃ a n, i = .fromjson a n) ∨
          ∃ a, i = .fromarray a))) ∧
    ∀ (s t : State) (c : CommandWord), perform (.issue c) s = .next t →
      (t.status.err = 4 ↔ ∃ r, decode s.cfg.nv c = .illegal r)

/-- Every issued command writes ERR, a legal code, and ERRSEEN is set by an error and by nothing cleared but reset
(10_state.md R30, R31). -/
def Obligations.ErrAndErrseenAreWritten : Prop :=
  (∀ (s t : State) (c : CommandWord), perform (.issue c) s = .next t → t.status.err.toNat ≤ 6 ∧ StickyErrseen s t) ∧
    (∀ (s t : State) (op : HostOp), (∀ c, op ≠ .issue c) → op ≠ .reset → perform op s = .next t →
      t.status = s.status) ∧
    ∀ s : State, Answers (perform .reset s) fun t => t.status.err = 0 ∧ t.status.errseen = false

/-- The order of the checks where several errors apply (60_exceptions.md R220): the decode checks first; an
unconstructed operand before an index and before a length mismatch; the capacity before the format, but in FROMHEX
after the parse. -/
def Obligations.ErrorPrecedence : Prop :=
  ∀ s : State,
    (∀ (c : CommandWord) (r : Reject), decode s.cfg.nv c = .illegal r →
      perform (.issue c) s = .next { s with status := { s.status with err := 4, errseen := true } }) ∧
    (∀ (a : VNum) (n : Word) (f : Bool), (s.vreg a).valid = false →
      Raises 5 (.get a n) s ∧ Raises 5 (.set a n f) s ∧ Raises 5 (.toggle a n) s) ∧
    (∀ a b : VNum, ((s.vreg a).valid = false ∨ (s.vreg b).valid = false) →
      Raises 5 (.vand a b) s ∧ Raises 5 (.vor a b) s ∧ Raises 5 (.vxor a b) s ∧ Raises 5 (.equals a b) s) ∧
    (s.status.itactive = false → Raises 5 .itnext s) ∧
    (∀ (a : VNum) (n : Word), s.cfg.maxlen < n.toNat → Raises 6 (.fromhexl a n) s ∧ Raises 6 (.fromjson a n) s) ∧
    (∀ a : VNum, s.cfg.maxlen < s.ilen.toNat → Raises 6 (.fromarray a) s) ∧
    ∀ a : VNum, s.ilen.toNat ≤ s.cfg.ibufCap → parseHex s.input = none → Raises 3 (.fromhex a) s

/-! Construction (40_construction.md) -/

/-- NEW (40_construction.md R100). -/
def Obligations.NewMakesAZeroVector : Prop :=
  ∀ (va : VNum) (imm : Word),
    encode (.new va imm) = imm ++ 0#20 ++ va ++ 0x01#8 ∧
      ∀ s : State,
        (s.cfg.maxlen < imm.toNat → Raises 6 (.new va imm) s) ∧
          (s.Inv → va.toNat < s.cfg.nv → imm.toNat ≤ s.cfg.maxlen →
            Answers (exec (.new va imm) s) fun t =>
              t.vreg va = { valid := true, len := imm.toNat, words := List.replicate ((imm.toNat + 31) / 32) 0#32 } ∧
                IntoVector va s t)

/-- The hex text parse (40_construction.md R101): after at most one prefix at position 0, one digit or more and
nothing else, the digits in text order. -/
def Obligations.HexTextParse : Prop :=
  ∀ (t : List Byte) (d : List (BitVec 4)),
    parseHex t = some d ↔
      d ≠ [] ∧ ∃ u, (HexPrefixed t u ∨ ((¬∃ u', HexPrefixed t u') ∧ u = t)) ∧ List.Forall₂ IsHexDigit u d

/-- FROMHEX (40_construction.md R103, with the placement of R102). -/
def Obligations.FromhexConstructsFromText : Prop :=
  ∀ va : VNum,
    encode (.fromhex va) = 0#52 ++ va ++ 0x02#8 ∧
      ∀ s : State, s.Inv →
        (parseHex s.input = none → Raises 3 (.fromhex va) s) ∧
          ∀ d, parseHex s.input = some d →
            let w := (4 * d.length + 31) / 32
            (s.cfg.maxlen < 32 * w → Raises 6 (.fromhex va) s) ∧
              (32 * w ≤ s.cfg.maxlen → va.toNat < s.cfg.nv →
                Answers (exec (.fromhex va) s) fun t =>
                  t.vreg va =
                      { valid := true, len := 32 * w, words := (List.range w).map fun j => BitVec.ofNat 32 (placedWord w d j) } ∧
                    IntoVector va s t)

/-- FROMHEXL (40_construction.md R104, with the placement of R102). -/
def Obligations.FromhexlConstructsOrRefusesText : Prop :=
  ∀ (va : VNum) (imm : Word),
    encode (.fromhexl va imm) = imm ++ 0#20 ++ va ++ 0x03#8 ∧
      ∀ s : State, s.Inv →
        (s.cfg.maxlen < imm.toNat → Raises 6 (.fromhexl va imm) s) ∧
          (imm.toNat ≤ s.cfg.maxlen →
            (parseHex s.input = none → Raises 3 (.fromhexl va imm) s) ∧
              ∀ d, parseHex s.input = some d →
                let w := (imm.toNat + 31) / 32
                (8 * w < d.length → Raises 3 (.fromhexl va imm) s) ∧
                  (d.length ≤ 8 * w →
                    (∃ i, imm.toNat ≤ i ∧ i < 32 * w ∧ (placedWord w d (i / 32)).testBit (i % 32) = true) →
                    Raises 3 (.fromhexl va imm) s) ∧
                  (d.length ≤ 8 * w →
                    (∀ i, imm.toNat ≤ i → i < 32 * w → (placedWord w d (i / 32)).testBit (i % 32) = false) →
                    va.toNat < s.cfg.nv →
                    Answers (exec (.fromhexl va imm) s) fun t =>
                      t.vreg va =
                          { valid := true, len := imm.toNat,
                            words := (List.range w).map fun j => BitVec.ofNat 32 (placedWord w d j) } ∧
                        IntoVector va s t))

/-- The JSON word-array parse accepts exactly the texts of the grammar, with numbers up to 2^32 - 1, and gives their
words in text order (40_construction.md R105). -/
def Obligations.JsonParseAcceptsExactlyTheGrammar : Prop :=
  ∀ (t : List Byte) (ws : List Word), parseJson t = some ws ↔ IsJsonText t ws

/-- FROMJSON (40_construction.md R106). -/
def Obligations.FromjsonConstructsFromWords : Prop :=
  ∀ (va : VNum) (imm : Word),
    encode (.fromjson va imm) = imm ++ 0#20 ++ va ++ 0x04#8 ∧
      ∀ s : State, s.Inv →
        (s.cfg.maxlen < imm.toNat → Raises 6 (.fromjson va imm) s) ∧
          (imm.toNat ≤ s.cfg.maxlen →
            ((¬∃ ws, IsJsonText s.input ws ∧ FitsLength imm.toNat ws) → Raises 3 (.fromjson va imm) s) ∧
              ∀ ws, IsJsonText s.input ws → FitsLength imm.toNat ws → va.toNat < s.cfg.nv →
                Answers (exec (.fromjson va imm) s) fun t =>
                  t.vreg va = { valid := true, len := imm.toNat, words := ws } ∧ IntoVector va s t)

/-- FROMARRAY (40_construction.md R107). -/
def Obligations.FromarrayConstructsFromBooleans : Prop :=
  ∀ va : VNum,
    encode (.fromarray va) = 0#52 ++ va ++ 0x05#8 ∧
      ∀ s : State, s.Inv →
        (s.cfg.maxlen < s.ilen.toNat → Raises 6 (.fromarray va) s) ∧
          (s.ilen.toNat ≤ s.cfg.maxlen →
            ((∃ k, k < s.ilen.toNat ∧ s.ibuf.read k ≠ 0x00#8 ∧ s.ibuf.read k ≠ 0x01#8) →
                Raises 3 (.fromarray va) s) ∧
              ((∀ k, k < s.ilen.toNat → s.ibuf.read k = 0x00#8 ∨ s.ibuf.read k = 0x01#8) → va.toNat < s.cfg.nv →
                Answers (exec (.fromarray va) s) fun t =>
                  (t.vreg va).valid = true ∧ (t.vreg va).len = s.ilen.toNat ∧
                    (t.vreg va).words.length = (s.ilen.toNat + 31) / 32 ∧
                    (∀ k, k < s.ilen.toNat → (t.vreg va).bit k = decide (s.ibuf.read k = 0x01#8)) ∧
                    (t.vreg va).padBits = 0 ∧ IntoVector va s t))

/-! Bit access (41_bit_access.md) -/

/-- SIZE (41_bit_access.md R131). -/
def Obligations.SizeReadsTheLength : Prop :=
  ∀ va : VNum,
    encode (.size va) = 0#52 ++ va ++ 0x10#8 ∧
      ∀ s : State, s.Inv →
        ((s.vreg va).valid = false → Raises 5 (.size va) s) ∧
          ((s.vreg va).valid = true →
            Answers (exec (.size va) s) fun t => t.res.toNat = (s.vreg va).len ∧ IntoRes s t)

/-- GET (41_bit_access.md R132, with the bound of R130). -/
def Obligations.GetReadsOneBit : Prop :=
  ∀ (va : VNum) (imm : Word),
    encode (.get va imm) = imm ++ 0#20 ++ va ++ 0x11#8 ∧
      ∀ s : State,
        ((s.vreg va).valid = false → Raises 5 (.get va imm) s) ∧
          ((s.vreg va).valid = true → (s.vreg va).len ≤ imm.toNat → Raises 1 (.get va imm) s) ∧
          ((s.vreg va).valid = true → imm.toNat < (s.vreg va).len →
            Answers (exec (.get va imm) s) fun t =>
              t.res = (if ((s.vreg va).words.getD (imm.toNat / 32) 0#32).getLsbD (imm.toNat % 32) then 1#32 else 0#32) ∧
                IntoRes s t)

/-- SET writes the one bit it names and keeps the length and every other bit (41_bit_access.md R133). -/
def Obligations.SetWritesOneBit : Prop :=
  ∀ (va : VNum) (imm : Word) (f : Bool),
    encode (.set va imm f) = imm ++ 0#15 ++ BitVec.ofBool f ++ 0#4 ++ va ++ 0x12#8 ∧
      ∀ s : State, s.Inv →
        ((s.vreg va).valid = false → Raises 5 (.set va imm f) s) ∧
          ((s.vreg va).valid = true → (s.vreg va).len ≤ imm.toNat → Raises 1 (.set va imm f) s) ∧
          ((s.vreg va).valid = true → imm.toNat < (s.vreg va).len →
            Answers (exec (.set va imm f) s) fun t =>
              (t.vreg va).valid = true ∧ (t.vreg va).len = (s.vreg va).len ∧
                (t.vreg va).words.length = (s.vreg va).words.length ∧
                (∀ j, (t.vreg va).bit j = if j = imm.toNat then f else (s.vreg va).bit j) ∧ IntoVector va s t)

/-- TOGGLE flips the one bit it names and keeps the length and every other bit (41_bit_access.md R134). -/
def Obligations.ToggleFlipsOneBit : Prop :=
  ∀ (va : VNum) (imm : Word),
    encode (.toggle va imm) = imm ++ 0#20 ++ va ++ 0x13#8 ∧
      ∀ s : State, s.Inv →
        ((s.vreg va).valid = false → Raises 5 (.toggle va imm) s) ∧
          ((s.vreg va).valid = true → (s.vreg va).len ≤ imm.toNat → Raises 1 (.toggle va imm) s) ∧
          ((s.vreg va).valid = true → imm.toNat < (s.vreg va).len →
            Answers (exec (.toggle va imm) s) fun t =>
              (t.vreg va).valid = true ∧ (t.vreg va).len = (s.vreg va).len ∧
                (t.vreg va).words.length = (s.vreg va).words.length ∧
                (∀ j, (t.vreg va).bit j = if j = imm.toNat then !(s.vreg va).bit j else (s.vreg va).bit j) ∧
                IntoVector va s t)

/-- RESET (41_bit_access.md R135). -/
def Obligations.ResetCommandClearsEveryBit : Prop :=
  ∀ va : VNum,
    encode (.reset va) = 0#52 ++ va ++ 0x14#8 ∧
      ∀ s : State,
        ((s.vreg va).valid = false → Raises 5 (.reset va) s) ∧
          ((s.vreg va).valid = true →
            Answers (exec (.reset va) s) fun t =>
              t.vreg va =
                  { valid := true, len := (s.vreg va).len, words := List.replicate (((s.vreg va).len + 31) / 32) 0#32 } ∧
                IntoVector va s t)

/-! Whole vectors (42_whole_vector.md) -/

/-- COPY (42_whole_vector.md R150): the destination is not checked and takes the source's value. -/
def Obligations.CopyTakesTheSourceValue : Prop :=
  ∀ va vb : VNum,
    encode (.copy va vb) = 0#48 ++ vb ++ va ++ 0x20#8 ∧
      ∀ s : State, s.Inv →
        ((s.vreg vb).valid = false → Raises 5 (.copy va vb) s) ∧
          ((s.vreg vb).valid = true → va.toNat < s.cfg.nv →
            Answers (exec (.copy va vb) s) fun t => t.vreg va = s.vreg vb ∧ IntoVector va s t)

/-- EQUALS gives 1 exactly where the lengths and all words, that is all bits, agree, and never raises for lengths that differ
(42_whole_vector.md R151). -/
def Obligations.EqualsComparesLengthAndBits : Prop :=
  ∀ va vb : VNum,
    encode (.equals va vb) = 0#48 ++ vb ++ va ++ 0x21#8 ∧
      ∀ s : State, s.Inv →
        ((s.vreg va).valid = false ∨ (s.vreg vb).valid = false → Raises 5 (.equals va vb) s) ∧
          ((s.vreg va).valid = true → (s.vreg vb).valid = true →
            Answers (exec (.equals va vb) s) fun t =>
              (t.res = 1 ∨ t.res = 0) ∧
                (t.res = 1 ↔ (s.vreg va).len = (s.vreg vb).len ∧ (s.vreg va).words = (s.vreg vb).words) ∧
                (t.res = 1 ↔ (s.vreg va).len = (s.vreg vb).len ∧
                  ∀ i, i < (s.vreg va).len → (s.vreg va).bit i = (s.vreg vb).bit i) ∧
                IntoRes s t)

/-- The reduction tree gives the number of one bits of every word (42_whole_vector.md R152). -/
def Obligations.PopcountTreeCountsOneBits : Prop :=
  ∀ w : Word, (popcountTree w).toNat = popcount32 w ∧ popcount32 w ≤ 32

/-- COUNT gives the number of indices below len whose bit is one (42_whole_vector.md R153). -/
def Obligations.CountCountsSetIndices : Prop :=
  ∀ va : VNum,
    encode (.count va) = 0#52 ++ va ++ 0x22#8 ∧
      ∀ s : State, s.Inv →
        ((s.vreg va).valid = false → Raises 5 (.count va) s) ∧
          ((s.vreg va).valid = true →
            Answers (exec (.count va) s) fun t =>
              t.res.toNat = (List.range (s.vreg va).len).countP (s.vreg va).bit ∧
                t.res.toNat = ((s.vreg va).words.map popcount32).sum ∧ IntoRes s t)

/-- NOT complements every bit below len and leaves the padding zero (42_whole_vector.md R154). -/
def Obligations.NotComplementsAndMasks : Prop :=
  ∀ va : VNum,
    encode (.vnot va) = 0#52 ++ va ++ 0x23#8 ∧
      ∀ s : State, s.Inv →
        ((s.vreg va).valid = false → Raises 5 (.vnot va) s) ∧
          ((s.vreg va).valid = true →
            Answers (exec (.vnot va) s) fun t =>
              (t.vreg va).valid = true ∧ (t.vreg va).len = (s.vreg va).len ∧
                (t.vreg va).words.length = (s.vreg va).words.length ∧
                (∀ j, j < (s.vreg va).len → (t.vreg va).bit j = !(s.vreg va).bit j) ∧
                (t.vreg va).padBits = 0 ∧ IntoVector va s t)

/-- AND, OR and XOR: the checks of R155, then the boolean function at every index below len, whichever registers
VA and VB are (42_whole_vector.md R155 to R158, R160). -/
def Obligations.AndOrXorActBitByBit : Prop :=
  ∀ va vb : VNum,
    encode (.vand va vb) = 0#48 ++ vb ++ va ++ 0x24#8 ∧
      encode (.vor va vb) = 0#48 ++ vb ++ va ++ 0x25#8 ∧
      encode (.vxor va vb) = 0#48 ++ vb ++ va ++ 0x26#8 ∧
      ∀ s : State, s.Inv →
        ∀ (i : Instr) (g : Bool → Bool → Bool),
          ((i = .vand va vb ∧ g = and) ∨ (i = .vor va vb ∧ g = or) ∨ (i = .vxor va vb ∧ g = xor)) →
            ((s.vreg va).valid = false ∨ (s.vreg vb).valid = false → Raises 5 i s) ∧
              ((s.vreg va).valid = true → (s.vreg vb).valid = true → (s.vreg va).len ≠ (s.vreg vb).len →
                Raises 2 i s) ∧
              ((s.vreg va).valid = true → (s.vreg vb).valid = true → (s.vreg va).len = (s.vreg vb).len →
                Answers (exec i s) fun t =>
                  (t.vreg va).valid = true ∧ (t.vreg va).len = (s.vreg va).len ∧
                    (t.vreg va).words.length = (s.vreg va).words.length ∧
                    (∀ j, (t.vreg va).bit j = g ((s.vreg va).bit j) ((s.vreg vb).bit j)) ∧ IntoVector va s t)

/-! Serialisation (43_serialization.md) -/

/-- TOARRAY (43_serialization.md R181): one byte per bit, index 0 first, from OBUF[0]. -/
def Obligations.ToarrayWritesBooleans : Prop :=
  ∀ va : VNum,
    encode (.toarray va) = 0#52 ++ va ++ 0x30#8 ∧
      ∀ s : State, s.Inv →
        ((s.vreg va).valid = false → Raises 5 (.toarray va) s) ∧
          ((s.vreg va).valid = true →
            Answers (exec (.toarray va) s) fun t =>
              t.olen.toNat = (s.vreg va).len ∧
                (∀ k, k < (s.vreg va).len → t.obuf.read k = if (s.vreg va).bit k then 0x01#8 else 0x00#8) ∧
                IntoOutput s t)

/-- TOINTARRAY (43_serialization.md R182, 20_memory.md R51): the indices of the one bits, ascending, four bytes each
with the least significant first. -/
def Obligations.TointarrayWritesIndices : Prop :=
  ∀ va : VNum,
    encode (.tointarray va) = 0#52 ++ va ++ 0x31#8 ∧
      ∀ s : State, s.Inv →
        ((s.vreg va).valid = false → Raises 5 (.tointarray va) s) ∧
          ((s.vreg va).valid = true →
            let idx := (List.range (s.vreg va).len).filter (s.vreg va).bit
            Answers (exec (.tointarray va) s) fun t =>
              t.olen.toNat = 4 * idx.length ∧
                (∀ m b, m < idx.length → b < 4 →
                  (t.obuf.read (4 * m + b)).toNat = idx.getD m 0 / 2 ^ (8 * b) % 2 ^ 8) ∧
                IntoOutput s t)

/-- TOSTRING and TOBINSTR (43_serialization.md R183, R184, 20_memory.md R53): the same characters in the two orders. -/
def Obligations.BitStringsInBothOrders : Prop :=
  ∀ va : VNum,
    encode (.tostring va) = 0#52 ++ va ++ 0x32#8 ∧
      encode (.tobinstr va) = 0#52 ++ va ++ 0x33#8 ∧
      ∀ s : State, s.Inv →
        ((s.vreg va).valid = false → Raises 5 (.tostring va) s ∧ Raises 5 (.tobinstr va) s) ∧
          ((s.vreg va).valid = true →
            (Answers (exec (.tostring va) s) fun t =>
                t.olen.toNat = (s.vreg va).len ∧
                  (∀ k, k < (s.vreg va).len → t.obuf.read k = if (s.vreg va).bit k then 0x31#8 else 0x30#8) ∧
                  IntoOutput s t ∧
                  Answers (exec (.tobinstr va) s) fun u =>
                    u.output = t.output.reverse) ∧
              Answers (exec (.tobinstr va) s) fun t =>
                t.olen.toNat = (s.vreg va).len ∧
                  (∀ k, k < (s.vreg va).len →
                    t.obuf.read k = if (s.vreg va).bit ((s.vreg va).len - 1 - k) then 0x31#8 else 0x30#8) ∧
                  IntoOutput s t)

/-- TOHEX (43_serialization.md R185, 20_memory.md R52): eight lower-case digits per word, word 0 first, the most
significant digit of each word first. -/
def Obligations.TohexWritesWords : Prop :=
  ∀ va : VNum,
    encode (.tohex va) = 0#52 ++ va ++ 0x34#8 ∧
      ∀ s : State, s.Inv →
        ((s.vreg va).valid = false → Raises 5 (.tohex va) s) ∧
          ((s.vreg va).valid = true →
            Answers (exec (.tohex va) s) fun t =>
              t.olen.toNat = 8 * (((s.vreg va).len + 31) / 32) ∧
                (∀ j k, j < ((s.vreg va).len + 31) / 32 → k < 8 →
                  let d := ((s.vreg va).words.getD j 0#32).toNat / 16 ^ k % 16
                  (t.obuf.read (8 * j + (7 - k))).toNat = if d < 10 then 0x30 + d else 0x61 + (d - 10)) ∧
                IntoOutput s t)

/-- TOJSON (43_serialization.md R186): the canonical text of the words. -/
def Obligations.TojsonWritesTheCanonicalText : Prop :=
  ∀ va : VNum,
    encode (.tojson va) = 0#52 ++ va ++ 0x35#8 ∧
      ∀ s : State, s.Inv →
        ((s.vreg va).valid = false → Raises 5 (.tojson va) s) ∧
          ((s.vreg va).valid = true →
            Answers (exec (.tojson va) s) fun t =>
              IsJsonText t.output (s.vreg va).words ∧
                t.olen.toNat ≤ max 2 (11 * (((s.vreg va).len + 31) / 32) + 1) ∧ IntoOutput s t)

/-! Iteration (44_iteration.md) -/

/-- ITSTART (44_iteration.md R200). -/
def Obligations.ItstartStartsTheIterator : Prop :=
  ∀ va : VNum,
    encode (.itstart va) = 0#52 ++ va ++ 0x40#8 ∧
      ∀ s : State,
        ((s.vreg va).valid = false → Raises 5 (.itstart va) s) ∧
          ((s.vreg va).valid = true →
            exec (.itstart va) s =
              .next
                { s with
                  status :=
                    { err := 0, errseen := s.status.errseen, itbit := false, itdone := false, itactive := true, itvreg := va }
                  itpos := 0 })

/-- ITNEXT (44_iteration.md R201), with the register read live (R202). -/
def Obligations.ItnextReportsTheNextPair : Prop :=
  encode .itnext = 0x41#64 ∧
    ∀ s : State, s.Inv →
      (s.status.itactive = false → Raises 5 .itnext s) ∧
        (s.status.itactive = true → s.itpos.toNat < (s.vreg s.status.itvreg).len →
          Answers (exec .itnext s) fun t =>
            t.itpos.toNat = s.itpos.toNat + 1 ∧
              t =
                { s with
                  res := s.itpos
                  itpos := t.itpos
                  status :=
                    { s.status with
                      err := 0, itbit := (s.vreg s.status.itvreg).bit s.itpos.toNat, itdone := false } }) ∧
        (s.status.itactive = true → (s.vreg s.status.itvreg).len ≤ s.itpos.toNat →
          exec .itnext s =
            .next { s with status := { s.status with err := 0, itbit := false, itdone := true } })

/-- For a vector no command changes in between, the ITNEXTs after an ITSTART report the pairs (i, bit(v, i)) for
i = 0 to len - 1, one each, and every later one reports the end (44_iteration.md R201). -/
def Obligations.IteratorReportsEveryPairOnce : Prop :=
  ∀ (s : State) (va : VNum) (k : Nat), s.Inv → (s.vreg va).valid = true →
    Answers (execAll (.itstart va :: List.replicate (k + 1) .itnext) s) fun t =>
      t.status.err = 0 ∧ t.vregs = s.vregs ∧
        (k < (s.vreg va).len →
          t.res.toNat = k ∧ t.status.itbit = (s.vreg va).bit k ∧ t.status.itdone = false ∧ t.itpos.toNat = k + 1) ∧
        ((s.vreg va).len ≤ k →
          t.status.itdone = true ∧ t.status.itbit = false ∧ t.itpos.toNat = (s.vreg va).len)

/-! Frames: what a command leaves unchanged -/

/-- A construction command, COPY, SET, TOGGLE, RESET, NOT, AND, OR or XOR changes its destination register, ERR and
ERRSEEN, and nothing else: no other vector register, no byte of either buffer, no other register, no iterator field
(10_state.md section 6). -/
def Obligations.VectorWritersFrame : Prop :=
  ∀ (i : Instr) (a : VNum) (s t : State), i.dest = some a → exec i s = .next t →
    (∀ b : VNum, b ≠ a → t.vreg b = s.vreg b) ∧ OnlyVregsAndStatus s t ∧ SameIterator s t ∧ StickyErrseen s t

/-- SIZE, GET, EQUALS and COUNT change RES, ERR and ERRSEEN, and nothing else (10_state.md section 6). -/
def Obligations.ResultWritersFrame : Prop :=
  ∀ (i : Instr) (s t : State), i.writesRes = true → i ≠ .itnext → exec i s = .next t →
    (∀ b : VNum, t.vreg b = s.vreg b) ∧ OnlyVregsAndStatus { s with res := t.res } t ∧ SameIterator s t ∧
      StickyErrseen s t ∧ (t.status.err ≠ 0 → t.res = s.res)

/-- A serialisation command changes OBUF[0 .. OLEN-1], OLEN, ERR and ERRSEEN, and nothing else: the bytes of OBUF from
the new OLEN up read as before, and every byte does where the command raises (10_state.md section 6;
43_serialization.md R180). -/
def Obligations.SerialisersFrame : Prop :=
  ∀ (i : Instr) (s t : State), s.Inv → i.serialises = true → exec i s = .next t →
    (∀ b : VNum, t.vreg b = s.vreg b) ∧ t.cfg = s.cfg ∧ t.res = s.res ∧ t.itpos = s.itpos ∧ t.ilen = s.ilen ∧
      (∀ k, t.ibuf.read k = s.ibuf.read k) ∧ t.hostOps = s.hostOps ∧ t.hostReads = s.hostReads ∧
      SameIterator s t ∧ StickyErrseen s t ∧
      (t.status.err = 0 → ∀ k, t.olen.toNat ≤ k → t.obuf.read k = s.obuf.read k) ∧
      (t.status.err ≠ 0 → t.olen = s.olen ∧ ∀ k, t.obuf.read k = s.obuf.read k)

/-- ITSTART and ITNEXT change the iterator, ERR and ERRSEEN, and RES by a pair of ITNEXT alone; no vector register and
no byte of either buffer; ITVREG and ITACTIVE by ITSTART alone (10_state.md section 6, R32 to R35, R37). -/
def Obligations.IteratorFrame : Prop :=
  ∀ (i : Instr) (s t : State), i.iterates = true → exec i s = .next t →
    (∀ b : VNum, t.vreg b = s.vreg b) ∧
      OnlyVregsAndStatus { s with res := t.res, itpos := t.itpos } t ∧ StickyErrseen s t ∧
      (t.res ≠ s.res → i = .itnext ∧ t.status.err = 0 ∧ t.status.itdone = false) ∧
      (i = .itnext → t.status.itactive = s.status.itactive ∧ t.status.itvreg = s.status.itvreg) ∧
      (t.status.err ≠ 0 → t.itpos = s.itpos ∧ SameIterator s t)

/-- IBUF and ILEN are written by the host alone, OBUF and OLEN by the serialisation commands alone, ITPOS and the
iterator's fields by ITSTART and ITNEXT alone, RESET() apart (10_state.md R32 to R35, R37 to R41). -/
def Obligations.EachPlaceHasItsWriters : Prop :=
  (∀ (c : CommandWord) (s t : State), perform (.issue c) s = .next t →
    t.ilen = s.ilen ∧ (∀ k, t.ibuf.read k = s.ibuf.read k)) ∧
    (∀ (i : Instr) (s t : State), exec i s = .next t → i.serialises = false →
      t.olen = s.olen ∧ ∀ k, t.obuf.read k = s.obuf.read k) ∧
    (∀ (i : Instr) (s t : State), exec i s = .next t → i.iterates = false →
      t.itpos = s.itpos ∧ SameIterator s t) ∧
    ∀ (op : HostOp) (s t : State), (∀ c, op ≠ .issue c) → op ≠ .reset → perform op s = .next t →
      t.olen = s.olen ∧ (∀ k, t.obuf.read k = s.obuf.read k) ∧ t.itpos = s.itpos ∧ t.status = s.status ∧
        ((∀ k b, op ≠ .writeIbuf k b) → ∀ k, t.ibuf.read k = s.ibuf.read k) ∧
        ((∀ n, op ≠ .writeIlen n) → t.ilen = s.ilen)

/-! Whole-machine rules and round trips -/

/-- Vector registers hold values, not references: no command changes a register but its destination, and after a
COPY a command that writes one of the two leaves the other as it was (10_state.md R26). -/
def Obligations.VectorRegistersHoldValues : Prop :=
  (∀ (i : Instr) (s t : State) (b : VNum), exec i s = .next t → i.dest ≠ some b → t.vreg b = s.vreg b) ∧
    ∀ (s t u : State) (va vb : VNum) (i : Instr), va ≠ vb → exec (.copy va vb) s = .next t →
      exec i t = .next u →
        (i.dest ≠ some vb → u.vreg vb = s.vreg vb) ∧ (i.dest ≠ some va → u.vreg va = t.vreg va)

/-- RES is written by SIZE, GET, EQUALS, COUNT and ITNEXT alone and not by one that raises; EQUALS and GET write 0 or
1; READ(RES) gives it; it is 0 after reset (10_state.md R27). -/
def Obligations.ResIsWrittenByFiveCommands : Prop :=
  (∀ (i : Instr) (s t : State), exec i s = .next t → i.writesRes = false ∨ t.status.err ≠ 0 → t.res = s.res) ∧
    (∀ (i : Instr) (s t : State), exec i s = .next t → t.status.err = 0 →
      ((∃ a b, i = .equals a b) ∨ ∃ a n, i = .get a n) → t.res = 0 ∨ t.res = 1) ∧
    (∀ (s t : State) (op : HostOp), (∀ c, op ≠ .issue c) → op ≠ .reset → perform op s = .next t → t.res = s.res) ∧
    (∀ s : State, Answers (perform (.read .res) s) fun t => t.hostReads = .word s.res :: s.hostReads) ∧
    ∀ s : State, Answers (perform .reset s) fun t => t.res = 0

/-- STATUS as the host reads it, field by field; bits 31:12 are zero (10_state.md R29, R36). -/
def Obligations.StatusWordLayout : Prop :=
  ∀ st : Status,
    st.word.extractLsb' 0 4 = st.err ∧ st.word.getLsbD 4 = st.errseen ∧ st.word.getLsbD 5 = st.itbit ∧
      st.word.getLsbD 6 = st.itdone ∧ st.word.getLsbD 7 = st.itactive ∧ st.word.extractLsb' 8 4 = st.itvreg ∧
      st.word.extractLsb' 12 20 = 0#20 ∧
      ∀ s : State, s.status = st →
        perform (.read .status) s = .next { s with hostReads := .word st.word :: s.hostReads }

/-- The len and words of an unconstructed register are not observable: two states that differ only there step alike
(10_state.md R22). -/
def Obligations.UnconstructedContentsAreNotObservable : Prop :=
  ∀ s t s' : State, SameObservable s t → step s = .next s' → Answers (step t) fun t' => SameObservable s' t'

/-- The hex round trips (43_serialization.md R187). -/
def Obligations.HexRoundTrip : Prop :=
  (∀ (s t : State) (va : VNum), s.Inv → va.toNat < s.cfg.nv → exec (.fromhex va) s = .next t → t.status.err = 0 →
      Answers (exec (.tohex va) t) fun u =>
        ∃ h, (HexPrefixed s.input h ∨ ((¬∃ h', HexPrefixed s.input h') ∧ h = s.input)) ∧
          u.output = List.replicate (8 * ((h.length + 7) / 8) - h.length) 0x30#8 ++ h.map lowerHex) ∧
    ∀ (s t u : State) (va vb : VNum), s.Inv → (s.vreg va).valid = true → exec (.tohex va) s = .next t →
      u.Inv → u.cfg = s.cfg → u.input = t.output → vb.toNat < u.cfg.nv →
        (0 < (s.vreg va).len →
          Answers (exec (.fromhexl vb (BitVec.ofNat 32 (s.vreg va).len)) u) fun x =>
            x.status.err = 0 ∧ x.vreg vb = s.vreg va) ∧
          ((s.vreg va).len = 0 →
            Raises 3 (.fromhexl vb 0) u ∧
              ∀ y : State, y.Inv → y.input = [0x5B#8, 0x5D#8] → vb.toNat < y.cfg.nv →
                Answers (exec (.fromjson vb 0) y) fun x => x.status.err = 0 ∧ x.vreg vb = s.vreg va)

/-- The JSON round trip (43_serialization.md R188). -/
def Obligations.JsonRoundTrip : Prop :=
  ∀ (s t u : State) (va vb : VNum), s.Inv → (s.vreg va).valid = true → exec (.tojson va) s = .next t →
    u.Inv → u.cfg = s.cfg → u.input = t.output → vb.toNat < u.cfg.nv →
      Answers (exec (.fromjson vb (BitVec.ofNat 32 (s.vreg va).len)) u) fun x =>
        x.status.err = 0 ∧ x.vreg vb = s.vreg va

/-- The boolean-array round trip: FROMARRAY on the output of TOARRAY rebuilds the vector (43_serialization.md
R181). -/
def Obligations.BooleanArrayRoundTrip : Prop :=
  ∀ (s t u : State) (va vb : VNum), s.Inv → (s.vreg va).valid = true → exec (.toarray va) s = .next t →
    u.Inv → u.cfg = s.cfg → u.input = t.output → vb.toNat < u.cfg.nv →
      Answers (exec (.fromarray vb) u) fun x => x.status.err = 0 ∧ x.vreg vb = s.vreg va

/-- NOT twice and TOGGLE twice restore the vector, and SET twice with one value is SET once (95_test_vectors.md S4,
S5, S6; 41_bit_access.md R133, R134; 42_whole_vector.md R154). -/
def Obligations.TwiceRestoresAndSetIsIdempotent : Prop :=
  ∀ (s : State) (va : VNum) (n : Word) (f : Bool), s.Inv → (s.vreg va).valid = true →
    (Answers (execAll [.vnot va, .vnot va] s) fun t => t = { s with status := { s.status with err := 0 } }) ∧
      (n.toNat < (s.vreg va).len →
        (Answers (execAll [.toggle va n, .toggle va n] s) fun t =>
            t = { s with status := { s.status with err := 0 } }) ∧
          Answers (exec (.set va n f) s) fun t => exec (.set va n f) t = .next t)

/-- count(a AND b) + count(a OR b) = count(a) + count(b) (95_test_vectors.md S7; 42_whole_vector.md R153, R156,
R157). -/
def Obligations.InclusionExclusionOfCounts : Prop :=
  ∀ (s : State) (va vb : VNum), s.Inv → (s.vreg va).valid = true → (s.vreg vb).valid = true →
    (s.vreg va).len = (s.vreg vb).len →
      Answers (execAll [.vand va vb, .count va] s) fun x =>
        Answers (execAll [.vor va vb, .count va] s) fun y =>
          Answers (exec (.count va) s) fun a =>
            Answers (exec (.count vb) s) fun b => x.res.toNat + y.res.toNat = a.res.toNat + b.res.toNat
end

