-- ==== Sys2Proof/Laws/Bits.lean ====
section
/-! SUPPORT. The laws of the word-indexing unit: which bit each operation on words changes, the padding invariant
bit by bit, and the lanes of a vector. -/

namespace Sys2Proof.Machine

/-- Index i is bit posOf(i) of word wordOf(i) (00_scope.md R10). -/
theorem index_split (i : Nat) : 32 * wordOf i + posOf i = i := Nat.div_add_mod i 32

theorem posOf_lt (i : Nat) : posOf i < 32 := Nat.mod_lt i (by decide)

theorem wordOf_lt_wordCount {i len : Nat} (h : i < len) : wordOf i < wordCount len := by
  simp only [wordOf, wordCount]; omega

/-- The bit at global index i of a list of words. -/
theorem bit_def (v : VReg) (i : Nat) : v.bit i = (v.words.getD (wordOf i) 0#32).getLsbD (posOf i) := rfl

/-- `1 << posOf(i)` has one bit. -/
theorem bitMask_getLsbD (i p : Nat) (hp : p < 32) : (bitMask i).getLsbD p = decide (p = posOf i) := by
  have := posOf_lt i
  simp only [bitMask, BitVec.getLsbD_shiftLeft, hp, decide_true, Bool.true_and]
  by_cases h : p < posOf i
  · simp [h]; omega
  · have : (1#32).getLsbD (p - posOf i) = decide (p - posOf i = 0) := by
      simp
    rw [this]
    simp [h]; omega

/-- PADMASK(L) has the bits below L mod 32, or all bits (00_scope.md R15). -/
theorem padMask_getLsbD (len p : Nat) (hp : p < 32) :
    (padMask len).getLsbD p = decide (len % 32 = 0 ∨ p < len % 32) := by
  unfold padMask
  split
  · rename_i h
    have : (0xFFFFFFFF#32) = BitVec.allOnes 32 := by decide
    rw [this, BitVec.getLsbD_allOnes]; simp [h, hp]
  · rename_i h
    have hr : len % 32 < 32 := Nat.mod_lt _ (by decide)
    generalize len % 32 = r at *
    have key : ∀ r < 32, ∀ p < 32, ((1#32 <<< r) - 1#32).getLsbD p = decide (p < r) := by decide
    simp [key r hr p hp, h]

/-- A list of words after one word changes. -/
theorem getD_modify (ws : List Word) (j k : Nat) (f : Word → Word) (h : j < ws.length) :
    (ws.modify j f).getD k 0#32 = if k = j then f (ws.getD j 0#32) else ws.getD k 0#32 := by
  simp only [List.getD_eq_getElem?_getD, List.getElem?_modify]
  by_cases hk : j = k
  · subst hk; simp [List.getElem?_eq_getElem h]
  · have : k ≠ j := fun e => hk e.symm
    simp [hk, this]

theorem word_pos_eq {i j : Nat} (hw : wordOf i = wordOf j) (hp : posOf i = posOf j) : i = j := by
  rw [← index_split i, ← index_split j, hw, hp]

/-- SET changes exactly the bit it names (41_bit_access.md R133). -/
theorem bit_setBit (v : VReg) (i j : Nat) (f : Bool) (h : wordOf i < v.words.length) :
    VReg.bit { v with words := setBit v.words i f } j = if j = i then f else v.bit j := by
  have hp := posOf_lt j
  simp only [bit_def, setBit, getD_modify _ _ _ _ h]
  by_cases hw : wordOf j = wordOf i
  · by_cases hpos : posOf j = posOf i
    · have := word_pos_eq hw hpos
      subst this
      cases f <;>
        simp only [if_true, BitVec.getLsbD_or, BitVec.getLsbD_and, BitVec.getLsbD_not,
          bitMask_getLsbD _ _ hp, hp, decide_true, Bool.or_true, Bool.not_true, Bool.and_false,
          Bool.false_eq_true, if_false]
    · have : j ≠ i := fun e => hpos (by rw [e])
      cases f <;>
        simp only [hw, this, if_true, BitVec.getLsbD_or, BitVec.getLsbD_and, BitVec.getLsbD_not,
          bitMask_getLsbD _ _ hp, hpos, hp, decide_true, decide_false, Bool.or_false,
          Bool.not_false, Bool.and_true, Bool.false_eq_true, if_false]
  · have : j ≠ i := fun e => hw (by rw [e])
    simp [hw, this]

/-- TOGGLE flips exactly the bit it names (41_bit_access.md R134). -/
theorem bit_flipBit (v : VReg) (i j : Nat) (h : wordOf i < v.words.length) :
    VReg.bit { v with words := flipBit v.words i } j = if j = i then !(v.bit j) else v.bit j := by
  have hp := posOf_lt j
  simp only [bit_def, flipBit, getD_modify _ _ _ _ h]
  by_cases hw : wordOf j = wordOf i
  · by_cases hpos : posOf j = posOf i
    · have := word_pos_eq hw hpos
      subst this
      simp only [if_true, BitVec.getLsbD_xor, bitMask_getLsbD _ _ hp, decide_true, Bool.xor_true]
    · have : j ≠ i := fun e => hpos (by rw [e])
      simp only [hw, this, if_true, BitVec.getLsbD_xor, bitMask_getLsbD _ _ hp, hpos, decide_false, if_false,
        Bool.xor_false]
  · have : j ≠ i := fun e => hw (by rw [e])
    simp [hw, this]

@[simp] theorem length_setBit (ws : List Word) (i : Nat) (f : Bool) : (setBit ws i f).length = ws.length := by
  simp [setBit]

@[simp] theorem length_flipBit (ws : List Word) (i : Nat) : (flipBit ws i).length = ws.length := by
  simp [flipBit]

@[simp] theorem length_maskLast (len : Nat) (ws : List Word) : (maskLast len ws).length = ws.length := by
  unfold maskLast; split <;> simp

@[simp] theorem length_lanes (v : VReg) : v.lanes.length = wordCount v.len := by simp [VReg.lanes]

/-- Lane j is word j (42_whole_vector.md R160). -/
theorem getD_lanes (v : VReg) (j : Nat) (h : j < wordCount v.len) : v.lanes.getD j 0#32 = v.words.getD j 0#32 := by
  simp [VReg.lanes, VReg.word, List.getD_eq_getElem?_getD, h]

/-- The lanes of a register with W(len) words are its words (10_state.md R23). -/
theorem lanes_eq_words (v : VReg) (h : v.words.length = wordCount v.len) : v.lanes = v.words := by
  apply List.ext_getElem
  · simp [h]
  · intro j h1 h2
    simp [VReg.lanes, VReg.word, List.getD_eq_getElem?_getD, h2]

/-- The padding invariant bit by bit: no bit at an index of len or above (10_state.md R25). -/
theorem padding_iff (v : VReg) (hw : v.words.length = wordCount v.len) :
    v.padBits = 0 ↔ ∀ i, v.len ≤ i → v.bit i = false := by
  unfold VReg.padBits
  by_cases h0 : wordCount v.len = 0
  · simp only [h0, if_true]
    have hnil : v.words = [] := List.length_eq_zero_iff.1 (by omega)
    simp [bit_def, hnil]
  · rw [if_neg h0]
    have hlast : wordCount v.len - 1 < v.words.length := by omega
    constructor
    · intro h i hi
      by_cases hin : wordOf i < wordCount v.len
      · have hwi : wordOf i = wordCount v.len - 1 := by
          simp only [wordOf, wordCount] at *; omega
        have hb := congrArg (fun w : Word => w.getLsbD (posOf i)) h
        have hp := posOf_lt i
        have hpm : ¬ (v.len % 32 = 0 ∨ posOf i < v.len % 32) := by
          simp only [wordOf, wordCount, posOf] at *; omega
        simp only [BitVec.getLsbD_and, BitVec.getLsbD_not, padMask_getLsbD _ _ hp, hpm, decide_false, hp,
          decide_true, Bool.not_false, Bool.and_true, VReg.word] at hb
        rw [bit_def, hwi]
        simpa using hb
      · have : v.words.length ≤ wordOf i := by omega
        simp [bit_def, List.getD_eq_getElem?_getD, List.getElem?_eq_none this]
    · intro h
      apply BitVec.eq_of_getLsbD_eq
      intro p hp
      simp only [BitVec.getLsbD_and, BitVec.getLsbD_not, padMask_getLsbD _ _ hp, hp, decide_true, Bool.true_and,
        VReg.word]
      by_cases hc : v.len % 32 = 0 ∨ p < v.len % 32
      · simp [hc]
      · have hi := h (32 * (wordCount v.len - 1) + p) (by simp only [wordCount] at *; omega)
        have h1 : wordOf (32 * (wordCount v.len - 1) + p) = wordCount v.len - 1 := by simp only [wordOf]; omega
        have h2 : posOf (32 * (wordCount v.len - 1) + p) = p := by simp only [posOf]; omega
        rw [bit_def, h1, h2] at hi
        rw [hi, Bool.false_and]
        exact BitVec.getLsbD_zero.symm

/-- A register is sound when its words are W(len), its length fits and no bit is one from len up. -/
theorem sound_of_bits {maxlen : Nat} {v : VReg} (hw : v.words.length = wordCount v.len) (hl : v.len ≤ maxlen)
    (hb : ∀ i, v.len ≤ i → v.bit i = false) : v.Sound maxlen :=
  ⟨hw, hl, (padding_iff v hw).2 hb⟩

/-- A sound register has no bit from len up. -/
theorem Sound.bit_high {maxlen : Nat} {v : VReg} (h : v.Sound maxlen) {i : Nat} (hi : v.len ≤ i) :
    v.bit i = false :=
  (padding_iff v h.word_count).1 h.padding i hi

/-- The bits of words that are all zero. -/
theorem bit_replicate_zero (valid : Bool) (len n i : Nat) :
    VReg.bit { valid := valid, len := len, words := List.replicate n 0#32 } i = false := by
  simp only [bit_def, List.getD_eq_getElem?_getD, List.getElem?_replicate]
  split <;> simp

/-- Bits of the words of a map over the lanes, below len. -/
theorem getD_map_lanes (v : VReg) (f : Word → Word) (j : Nat) (h : j < wordCount v.len) :
    (v.lanes.map f).getD j 0#32 = f (v.words.getD j 0#32) := by
  have := getD_lanes v j h
  simp only [List.getD_eq_getElem?_getD, List.getElem?_map] at *
  rw [List.getElem?_eq_getElem (by simpa using h)] at *
  simpa using congrArg f this

/-- A word of the words NOT writes, below W(len). -/
theorem getD_maskLast (len : Nat) (ws : List Word) (j : Nat) (hw : ws.length = wordCount len)
    (hj : j < wordCount len) :
    (maskLast len ws).getD j 0#32 =
      if j = wordCount len - 1 then ws.getD j 0#32 &&& padMask len else ws.getD j 0#32 := by
  have h0 : wordCount len ≠ 0 := by omega
  rw [maskLast, if_neg h0, getD_modify _ _ _ _ (by omega)]
  by_cases h : j = wordCount len - 1
  · simp [h]
  · simp [h]

/-- NOT bit by bit: complemented below len, zero from len up (42_whole_vector.md R154). -/
theorem bit_complement (v : VReg) (i : Nat) :
    VReg.bit { v with words := maskLast v.len (v.lanes.map (fun w => ~~~w)) } i = (decide (i < v.len) && !(v.bit i)) := by
  have hlen : (v.lanes.map (fun w => ~~~w)).length = wordCount v.len := by simp
  have hp := posOf_lt i
  rw [bit_def]
  by_cases hin : wordOf i < wordCount v.len
  · simp only [getD_maskLast _ _ _ hlen hin, getD_map_lanes v _ _ hin]
    by_cases hlast : wordOf i = wordCount v.len - 1
    · have hiff : (v.len % 32 = 0 ∨ posOf i < v.len % 32) ↔ i < v.len := by
        simp only [wordOf, wordCount, posOf] at *; omega
      rw [if_pos hlast, BitVec.getLsbD_and, padMask_getLsbD _ _ hp, BitVec.getLsbD_not, bit_def,
        show decide (v.len % 32 = 0 ∨ posOf i < v.len % 32) = decide (i < v.len) from decide_eq_decide.2 hiff]
      simp only [hp, decide_true, Bool.true_and, Bool.and_comm]
    · have hlt : i < v.len := by simp only [wordOf, wordCount] at *; omega
      simp [hlast, hlt, hp, bit_def]
  · have hge : ¬ i < v.len := fun h => hin (wordOf_lt_wordCount h)
    have : (maskLast v.len (v.lanes.map (fun w => ~~~w))).length ≤ wordOf i := by simp; omega
    simp only [List.getD_eq_getElem?_getD, List.getElem?_eq_none this]
    simp [hge]

/-- AND, OR and XOR bit by bit below W(len) words: each lane of the result from the same lane of the operands
(42_whole_vector.md R160). -/
theorem getD_lanewise (f : Word → Word → Word) (a b : VReg) (hl : a.len = b.len) (j : Nat)
    (hj : j < wordCount a.len) :
    (lanewise f a b).words.getD j 0#32 = f (a.words.getD j 0#32) (b.words.getD j 0#32) := by
  have ha := getD_lanes a j hj
  have hb := getD_lanes b j (hl ▸ hj)
  have h1 : j < a.lanes.length := by simpa using hj
  have h2 : j < b.lanes.length := by simpa [← hl] using hj
  simp only [lanewise, List.getD_eq_getElem?_getD] at *
  rw [List.getElem?_eq_getElem h1] at ha
  rw [List.getElem?_eq_getElem h2] at hb
  rw [List.getElem?_eq_getElem (by rw [List.length_zipWith]; omega)]
  simp only [Option.getD_some, List.getElem_zipWith] at *
  rw [ha, hb]

theorem length_lanewise (f : Word → Word → Word) (a b : VReg) (hl : a.len = b.len) :
    (lanewise f a b).words.length = wordCount a.len := by
  simp [lanewise, hl]

/-- A bit of AND, OR or XOR, for a bitwise f with f 0 0 = 0: the boolean function at each index. -/
theorem bit_lanewise (f : Word → Word → Word) (g : Bool → Bool → Bool) (a b : VReg) (hl : a.len = b.len)
    (hf : ∀ (x y : Word) (p : Nat), p < 32 → (f x y).getLsbD p = g (x.getLsbD p) (y.getLsbD p)) (i : Nat)
    (hi : i < a.len) : (lanewise f a b).bit i = g (a.bit i) (b.bit i) := by
  rw [bit_def, getD_lanewise f a b hl _ (wordOf_lt_wordCount hi), hf _ _ _ (posOf_lt i)]
  rfl

/-- A bit of AND, OR or XOR of two sound registers from len up is zero (10_state.md R25). -/
theorem bit_lanewise_high (f : Word → Word → Word) (g : Bool → Bool → Bool) (a b : VReg) (hl : a.len = b.len)
    (hf : ∀ (x y : Word) (p : Nat), p < 32 → (f x y).getLsbD p = g (x.getLsbD p) (y.getLsbD p))
    (hg : g false false = false) (ha : ∀ i, a.len ≤ i → a.bit i = false) (hb : ∀ i, b.len ≤ i → b.bit i = false)
    (i : Nat) (hi : a.len ≤ i) : (lanewise f a b).bit i = false := by
  by_cases hin : wordOf i < wordCount a.len
  · have h1 := ha i hi
    have h2 := hb i (hl ▸ hi)
    rw [bit_def] at h1 h2
    rw [bit_def, getD_lanewise f a b hl _ hin, hf _ _ _ (posOf_lt i), h1, h2, hg]
  · have : (lanewise f a b).words.length ≤ wordOf i := by rw [length_lanewise f a b hl]; omega
    simp [bit_def, List.getD_eq_getElem?_getD, List.getElem?_eq_none this]

@[simp] theorem lanewise_len (f : Word → Word → Word) (a b : VReg) : (lanewise f a b).len = a.len := rfl

@[simp] theorem lanewise_valid (f : Word → Word → Word) (a b : VReg) : (lanewise f a b).valid = a.valid := rfl

/-- The bits of a vector, one by one. -/
theorem bits_getD (v : VReg) (i : Nat) (h : i < v.len) : v.bits.getD i false = v.bit i := by
  simp [VReg.bits, List.getD_eq_getElem?_getD, h]

@[simp] theorem length_bits (v : VReg) : v.bits.length = v.len := by simp [VReg.bits]

end Sys2Proof.Machine
end

