-- ==== Sys2Proof/Laws/Memory.lean ====
section
/-! SUPPORT. The laws of the byte buffers: what a byte reads after a write, that every write keeps the canonical
form and the capacity, and that canonical buffers that read alike are equal. -/

namespace Sys2Proof.Machine

/-- A canonical buffer from `lo` on reads 0x00 below `lo`. -/
theorem read_below (m : Memory) (lo a : Nat) (h : m.wfFrom lo = true) (ha : a < lo) : m.read a = 0#8 := by
  cases m with
  | nil => rfl
  | cons c m =>
    obtain ⟨k, b⟩ := c
    simp only [Memory.wfFrom, Bool.and_eq_true, decide_eq_true_eq] at h
    have : a < k := by omega
    simp [Memory.read, this]

/-- The canonical form from `lo` on is the canonical form from anything lower on. -/
theorem wfFrom_mono (m : Memory) (lo lo' : Nat) (hle : lo' ≤ lo) (h : m.wfFrom lo = true) :
    m.wfFrom lo' = true := by
  cases m with
  | nil => rfl
  | cons c m =>
    obtain ⟨k, b⟩ := c
    simp only [Memory.wfFrom, Bool.and_eq_true, decide_eq_true_eq] at h ⊢
    exact ⟨⟨by omega, h.1.2⟩, h.2⟩

/-- A cell in front of a canonical rest. -/
theorem wfFrom_cell_append (a lo : Nat) (b : Byte) (m : Memory) (ha : lo ≤ a) (h : m.wfFrom (a + 1) = true) :
    (Memory.cell a b ++ m).wfFrom lo = true := by
  by_cases hb : b = 0#8
  · simpa [Memory.cell, hb] using wfFrom_mono m (a + 1) lo (by omega) h
  · simp [Memory.cell, hb, Memory.wfFrom, ha, h]

/-- A write keeps the canonical form. -/
theorem wfFrom_write (m : Memory) (lo a : Nat) (b : Byte) (h : m.wfFrom lo = true) (ha : lo ≤ a) :
    (m.write a b).wfFrom lo = true := by
  induction m generalizing lo with
  | nil => simpa [Memory.write] using wfFrom_cell_append a lo b [] ha rfl
  | cons c m ih =>
    obtain ⟨k, x⟩ := c
    simp only [Memory.wfFrom, Bool.and_eq_true, decide_eq_true_eq] at h
    simp only [Memory.write]
    split
    · exact wfFrom_cell_append a lo b _ ha (by
        simp only [Memory.wfFrom, Bool.and_eq_true, decide_eq_true_eq]
        exact ⟨⟨by omega, h.1.2⟩, h.2⟩)
    · split
      · rename_i h1 h2; subst h2; exact wfFrom_cell_append a lo b _ ha h.2
      · simp only [Memory.wfFrom, Bool.and_eq_true, decide_eq_true_eq]
        exact ⟨⟨h.1.1, h.1.2⟩, ih (k + 1) h.2 (by omega)⟩

/-- What a byte reads after one cell is put in front of a buffer that starts above it. -/
theorem read_cell_append (a x : Nat) (b : Byte) (m : Memory) (h : m.wfFrom (a + 1) = true) :
    (Memory.cell a b ++ m).read x = if x = a then b else m.read x := by
  by_cases hb : b = 0#8
  · by_cases hx : x = a
    · subst hx; simp [Memory.cell, hb, read_below m (x + 1) x h (by omega)]
    · simp [Memory.cell, hb, hx]
  · by_cases hx : x = a
    · simp [Memory.cell, hb, Memory.read, hx]
    · by_cases hlt : x < a
      · simp [Memory.cell, hb, Memory.read, hx, hlt, read_below m (a + 1) x h (by omega)]
      · simp [Memory.cell, hb, Memory.read, hx, hlt]

/-- Read after write, from `lo` on. -/
theorem read_write_from (m : Memory) (lo a x : Nat) (b : Byte) (h : m.wfFrom lo = true) :
    (m.write a b).read x = if x = a then b else m.read x := by
  induction m generalizing lo with
  | nil => simpa [Memory.write] using read_cell_append a x b [] rfl
  | cons c m ih =>
    obtain ⟨k, y⟩ := c
    have h0 := h
    simp only [Memory.wfFrom, Bool.and_eq_true, decide_eq_true_eq] at h
    simp only [Memory.write]
    split
    · exact read_cell_append a x b _ (by
        simp only [Memory.wfFrom, Bool.and_eq_true, decide_eq_true_eq]
        exact ⟨⟨by omega, h.1.2⟩, h.2⟩)
    · split
      · rename_i h1 h2
        subst h2
        rw [read_cell_append a x b m h.2]
        by_cases hx : x = a
        · simp [hx]
        · by_cases hlt : x < a
          · simp [hx, Memory.read, hlt, read_below m (a + 1) x h.2 (by omega)]
          · simp [hx, Memory.read, hlt]
      · rename_i h1 h2
        simp only [Memory.read]
        by_cases hlt : x < k
        · have : x ≠ a := by omega
          simp [hlt, this]
        · by_cases hk : x = k
          · have : k ≠ a := by omega
            simp [hk, this]
          · simp [hlt, hk, ih (k + 1) h.2]

/-- A write to a canonical buffer leaves a canonical buffer. -/
theorem wf_write (m : Memory) (a : Nat) (b : Byte) (h : m.wf = true) : (m.write a b).wf = true :=
  wfFrom_write m 0 a b h (Nat.zero_le a)

/-- The byte just written reads back, and every other byte reads as before. -/
theorem read_write (m : Memory) (a x : Nat) (b : Byte) (h : m.wf = true) :
    (m.write a b).read x = if x = a then b else m.read x :=
  read_write_from m 0 a x b h

/-- Writing a string of bytes keeps the canonical form. -/
theorem wf_writeAll (m : Memory) (a : Nat) (bs : List Byte) (h : m.wf = true) : (m.writeAll a bs).wf = true := by
  induction bs generalizing m a with
  | nil => exact h
  | cons b bs ih => exact ih _ _ (wf_write m a b h)

/-- What a byte reads after a string of bytes is written: the string's byte inside it, the old one outside. -/
theorem read_writeAll (m : Memory) (a x : Nat) (bs : List Byte) (h : m.wf = true) :
    (m.writeAll a bs).read x =
      if a ≤ x ∧ x < a + bs.length then bs.getD (x - a) 0#8 else m.read x := by
  induction bs generalizing m a with
  | nil =>
    simp [Memory.writeAll]
  | cons b bs ih =>
    rw [Memory.writeAll, ih _ _ (wf_write m a b h), read_write m a x b h]
    by_cases hx : x = a
    · subst hx
      simp
    · by_cases hin : a + 1 ≤ x ∧ x < a + 1 + bs.length
      · have h2 : a ≤ x ∧ x < a + (b :: bs).length := by simp; omega
        have h3 : x - a = (x - (a + 1)) + 1 := by omega
        simp only [hin, h2, and_self, if_true, h3, List.getD_cons_succ]
      · have h2 : ¬(a ≤ x ∧ x < a + (b :: bs).length) := by simp; omega
        rw [if_neg hin, if_neg h2, if_neg hx]

/-- A write below the capacity keeps the buffer within it. -/
theorem bounded_write (m : Memory) (cap a : Nat) (b : Byte) (ha : a < cap) (h : ∀ cell ∈ m, cell.1 < cap) :
    ∀ cell ∈ m.write a b, cell.1 < cap := by
  have hc : ∀ cell ∈ Memory.cell a b, cell.1 < cap := by
    intro cell hm
    simp only [Memory.cell] at hm
    split at hm <;> simp_all
  induction m with
  | nil => exact hc
  | cons c m ih =>
    obtain ⟨k, x⟩ := c
    simp only [Memory.write]
    intro cell hm
    have hrest : ∀ cell ∈ m, cell.1 < cap := fun d hd => h d (List.mem_cons_of_mem _ hd)
    split at hm
    · rcases List.mem_append.1 hm with hm | hm
      · exact hc _ hm
      · exact h _ hm
    · split at hm
      · rcases List.mem_append.1 hm with hm | hm
        · exact hc _ hm
        · exact hrest _ hm
      · rcases List.mem_cons.1 hm with hm | hm
        · exact h _ (hm ▸ List.mem_cons_self)
        · exact ih hrest _ hm

/-- A write below the capacity keeps everything the spec says of a buffer. -/
theorem within_write (m : Memory) (cap a : Nat) (b : Byte) (ha : a < cap) (h : m.Within cap) :
    (m.write a b).Within cap :=
  ⟨wf_write m a b h.canonical, bounded_write m cap a b ha h.bounded⟩

/-- A string of bytes written below the capacity keeps everything the spec says of a buffer. -/
theorem within_writeAll (m : Memory) (cap a : Nat) (bs : List Byte) (ha : a + bs.length ≤ cap)
    (h : m.Within cap) : (m.writeAll a bs).Within cap := by
  induction bs generalizing m a with
  | nil => exact h
  | cons b bs ih =>
    simp only [List.length_cons] at ha
    exact ih _ _ (by omega) (within_write m cap a b (by omega) h)

/-- The empty buffer is what reset leaves. -/
theorem within_nil (cap : Nat) : Memory.Within cap [] := ⟨rfl, by simp⟩

/-- Two canonical buffers from `lo` on that read alike are the same data. -/
theorem ext_from (m m' : Memory) (lo : Nat) (h : m.wfFrom lo = true) (h' : m'.wfFrom lo = true)
    (heq : ∀ a, m.read a = m'.read a) : m = m' := by
  induction m generalizing m' lo with
  | nil =>
    cases m' with
    | nil => rfl
    | cons c m' =>
      obtain ⟨k, b⟩ := c
      simp only [Memory.wfFrom, Bool.and_eq_true, decide_eq_true_eq] at h'
      have := heq k
      simp only [Memory.read, Nat.lt_irrefl, if_false, if_true] at this
      exact absurd this.symm h'.1.2
  | cons c m ih =>
    obtain ⟨k, b⟩ := c
    cases m' with
    | nil =>
      simp only [Memory.wfFrom, Bool.and_eq_true, decide_eq_true_eq] at h
      have := heq k
      simp only [Memory.read, Nat.lt_irrefl, if_false, if_true] at this
      exact absurd this h.1.2
    | cons c' m' =>
      obtain ⟨k', b'⟩ := c'
      simp only [Memory.wfFrom, Bool.and_eq_true, decide_eq_true_eq] at h h'
      have hk : k = k' := by
        rcases Nat.lt_trichotomy k k' with hlt | he | hlt
        · have := heq k
          simp only [Memory.read, Nat.lt_irrefl, if_false, if_true, hlt] at this
          exact absurd this h.1.2
        · exact he
        · have := heq k'
          simp only [Memory.read, Nat.lt_irrefl, if_false, if_true, hlt] at this
          exact absurd this.symm h'.1.2
      subst hk
      have hb : b = b' := by simpa [Memory.read] using heq k
      subst hb
      congr 1
      refine ih m' (k + 1) h.2 h'.2 fun a => ?_
      by_cases ha : a < k + 1
      · rw [read_below m _ a h.2 ha, read_below m' _ a h'.2 ha]
      · have := heq a
        have h1 : ¬ a < k := by omega
        have h2 : ¬ a = k := by omega
        simpa [Memory.read, h1, h2] using this

/-- Canonical buffers that read alike at every address are equal data. -/
theorem memory_ext (m m' : Memory) (h : m.wf = true) (h' : m'.wf = true) (heq : ∀ a, m.read a = m'.read a) :
    m = m' :=
  ext_from m m' 0 h h' heq

/-- The bytes of a range, one by one. -/
theorem readAll_getD (m : Memory) (a n k : Nat) (h : k < n) : (m.readAll a n).getD k 0#8 = m.read (a + k) := by
  simp [Memory.readAll, h, List.getD_eq_getElem?_getD]

@[simp] theorem readAll_length (m : Memory) (a n : Nat) : (m.readAll a n).length = n := by
  simp [Memory.readAll]

/-- Reading back a string of bytes just written. -/
theorem readAll_writeAll (m : Memory) (a : Nat) (bs : List Byte) (h : m.wf = true) :
    (m.writeAll a bs).readAll a bs.length = bs := by
  apply List.ext_getElem
  · simp
  · intro k h1 h2
    simp only [Memory.readAll, List.getElem_map, List.getElem_range]
    rw [read_writeAll m a (a + k) bs h, if_pos ⟨by omega, by omega⟩]
    simp [List.getD_eq_getElem?_getD, h2]

end Sys2Proof.Machine
end

