-- ==== Sys2Proof/Laws/State.lean ====
section
/-! SUPPORT. One lemma per field per update of State, true by rfl, so that no later proof unfolds a record update;
and the same for reset. -/

namespace Sys2Proof.Machine

/-! `V[a] <- v` -/

@[simp] theorem setVreg_cfg (s : State) (a : VNum) (v : VReg) : (s.setVreg a v).cfg = s.cfg := rfl
@[simp] theorem setVreg_vregs (s : State) (a : VNum) (v : VReg) : (s.setVreg a v).vregs = s.vregs.set a.toNat v := rfl
@[simp] theorem setVreg_res (s : State) (a : VNum) (v : VReg) : (s.setVreg a v).res = s.res := rfl
@[simp] theorem setVreg_status (s : State) (a : VNum) (v : VReg) : (s.setVreg a v).status = s.status := rfl
@[simp] theorem setVreg_itpos (s : State) (a : VNum) (v : VReg) : (s.setVreg a v).itpos = s.itpos := rfl
@[simp] theorem setVreg_ibuf (s : State) (a : VNum) (v : VReg) : (s.setVreg a v).ibuf = s.ibuf := rfl
@[simp] theorem setVreg_ilen (s : State) (a : VNum) (v : VReg) : (s.setVreg a v).ilen = s.ilen := rfl
@[simp] theorem setVreg_obuf (s : State) (a : VNum) (v : VReg) : (s.setVreg a v).obuf = s.obuf := rfl
@[simp] theorem setVreg_olen (s : State) (a : VNum) (v : VReg) : (s.setVreg a v).olen = s.olen := rfl
@[simp] theorem setVreg_hostOps (s : State) (a : VNum) (v : VReg) : (s.setVreg a v).hostOps = s.hostOps := rfl
@[simp] theorem setVreg_hostReads (s : State) (a : VNum) (v : VReg) : (s.setVreg a v).hostReads = s.hostReads := rfl

/-! `RES <- w` -/

@[simp] theorem setRes_cfg (s : State) (w : Word) : (s.setRes w).cfg = s.cfg := rfl
@[simp] theorem setRes_vregs (s : State) (w : Word) : (s.setRes w).vregs = s.vregs := rfl
@[simp] theorem setRes_res (s : State) (w : Word) : (s.setRes w).res = w := rfl
@[simp] theorem setRes_status (s : State) (w : Word) : (s.setRes w).status = s.status := rfl
@[simp] theorem setRes_itpos (s : State) (w : Word) : (s.setRes w).itpos = s.itpos := rfl
@[simp] theorem setRes_ibuf (s : State) (w : Word) : (s.setRes w).ibuf = s.ibuf := rfl
@[simp] theorem setRes_ilen (s : State) (w : Word) : (s.setRes w).ilen = s.ilen := rfl
@[simp] theorem setRes_obuf (s : State) (w : Word) : (s.setRes w).obuf = s.obuf := rfl
@[simp] theorem setRes_olen (s : State) (w : Word) : (s.setRes w).olen = s.olen := rfl
@[simp] theorem setRes_hostOps (s : State) (w : Word) : (s.setRes w).hostOps = s.hostOps := rfl
@[simp] theorem setRes_hostReads (s : State) (w : Word) : (s.setRes w).hostReads = s.hostReads := rfl

/-! A value reaches the host -/

@[simp] theorem hostReceive_cfg (s : State) (x : HostValue) : (hostReceive x s).cfg = s.cfg := rfl
@[simp] theorem hostReceive_vregs (s : State) (x : HostValue) : (hostReceive x s).vregs = s.vregs := rfl
@[simp] theorem hostReceive_res (s : State) (x : HostValue) : (hostReceive x s).res = s.res := rfl
@[simp] theorem hostReceive_status (s : State) (x : HostValue) : (hostReceive x s).status = s.status := rfl
@[simp] theorem hostReceive_itpos (s : State) (x : HostValue) : (hostReceive x s).itpos = s.itpos := rfl
@[simp] theorem hostReceive_ibuf (s : State) (x : HostValue) : (hostReceive x s).ibuf = s.ibuf := rfl
@[simp] theorem hostReceive_ilen (s : State) (x : HostValue) : (hostReceive x s).ilen = s.ilen := rfl
@[simp] theorem hostReceive_obuf (s : State) (x : HostValue) : (hostReceive x s).obuf = s.obuf := rfl
@[simp] theorem hostReceive_olen (s : State) (x : HostValue) : (hostReceive x s).olen = s.olen := rfl
@[simp] theorem hostReceive_hostOps (s : State) (x : HostValue) : (hostReceive x s).hostOps = s.hostOps := rfl
@[simp] theorem hostReceive_hostReads (s : State) (x : HostValue) : (hostReceive x s).hostReads = x :: s.hostReads := rfl

/-! A command word at the front of the host list -/

@[simp] theorem pushIssue_cfg (s : State) (c : CommandWord) : (pushIssue s c).cfg = s.cfg := rfl
@[simp] theorem pushIssue_vregs (s : State) (c : CommandWord) : (pushIssue s c).vregs = s.vregs := rfl
@[simp] theorem pushIssue_res (s : State) (c : CommandWord) : (pushIssue s c).res = s.res := rfl
@[simp] theorem pushIssue_status (s : State) (c : CommandWord) : (pushIssue s c).status = s.status := rfl
@[simp] theorem pushIssue_itpos (s : State) (c : CommandWord) : (pushIssue s c).itpos = s.itpos := rfl
@[simp] theorem pushIssue_ibuf (s : State) (c : CommandWord) : (pushIssue s c).ibuf = s.ibuf := rfl
@[simp] theorem pushIssue_ilen (s : State) (c : CommandWord) : (pushIssue s c).ilen = s.ilen := rfl
@[simp] theorem pushIssue_obuf (s : State) (c : CommandWord) : (pushIssue s c).obuf = s.obuf := rfl
@[simp] theorem pushIssue_olen (s : State) (c : CommandWord) : (pushIssue s c).olen = s.olen := rfl
@[simp] theorem pushIssue_hostOps (s : State) (c : CommandWord) : (pushIssue s c).hostOps = .issue c :: s.hostOps := rfl
@[simp] theorem pushIssue_hostReads (s : State) (c : CommandWord) : (pushIssue s c).hostReads = s.hostReads := rfl

/-! The device part -/

@[simp] theorem device_cfg (s : State) : (s.device).cfg = s.cfg := rfl
@[simp] theorem device_vregs (s : State) : (s.device).vregs = s.vregs := rfl
@[simp] theorem device_res (s : State) : (s.device).res = s.res := rfl
@[simp] theorem device_status (s : State) : (s.device).status = s.status := rfl
@[simp] theorem device_itpos (s : State) : (s.device).itpos = s.itpos := rfl
@[simp] theorem device_ibuf (s : State) : (s.device).ibuf = s.ibuf := rfl
@[simp] theorem device_ilen (s : State) : (s.device).ilen = s.ilen := rfl
@[simp] theorem device_obuf (s : State) : (s.device).obuf = s.obuf := rfl
@[simp] theorem device_olen (s : State) : (s.device).olen = s.olen := rfl
@[simp] theorem device_hostOps (s : State) : (s.device).hostOps = [] := rfl
@[simp] theorem device_hostReads (s : State) : (s.device).hostReads = [] := rfl

/-! RESET() -/

@[simp] theorem hostReset_cfg (s : State) : (hostReset s).cfg = s.cfg := rfl
@[simp] theorem hostReset_vregs (s : State) : (hostReset s).vregs = List.replicate s.cfg.nv VReg.reset := rfl
@[simp] theorem hostReset_res (s : State) : (hostReset s).res = 0 := rfl
@[simp] theorem hostReset_status (s : State) : (hostReset s).status = Status.reset := rfl
@[simp] theorem hostReset_itpos (s : State) : (hostReset s).itpos = 0 := rfl
@[simp] theorem hostReset_ibuf (s : State) : (hostReset s).ibuf = [] := rfl
@[simp] theorem hostReset_ilen (s : State) : (hostReset s).ilen = 0 := rfl
@[simp] theorem hostReset_obuf (s : State) : (hostReset s).obuf = [] := rfl
@[simp] theorem hostReset_olen (s : State) : (hostReset s).olen = 0 := rfl
@[simp] theorem hostReset_hostOps (s : State) : (hostReset s).hostOps = s.hostOps := rfl
@[simp] theorem hostReset_hostReads (s : State) : (hostReset s).hostReads = s.hostReads := rfl

/-! The state after power-on -/

@[simp] theorem resetOf_cfg (c : Config) : (State.resetOf c).cfg = c := rfl
@[simp] theorem resetOf_vregs (c : Config) : (State.resetOf c).vregs = List.replicate c.nv VReg.reset := rfl
@[simp] theorem resetOf_res (c : Config) : (State.resetOf c).res = 0 := rfl
@[simp] theorem resetOf_status (c : Config) : (State.resetOf c).status = Status.reset := rfl
@[simp] theorem resetOf_itpos (c : Config) : (State.resetOf c).itpos = 0 := rfl
@[simp] theorem resetOf_ibuf (c : Config) : (State.resetOf c).ibuf = [] := rfl
@[simp] theorem resetOf_ilen (c : Config) : (State.resetOf c).ilen = 0 := rfl
@[simp] theorem resetOf_obuf (c : Config) : (State.resetOf c).obuf = [] := rfl
@[simp] theorem resetOf_olen (c : Config) : (State.resetOf c).olen = 0 := rfl
@[simp] theorem resetOf_hostOps (c : Config) : (State.resetOf c).hostOps = [] := rfl
@[simp] theorem resetOf_hostReads (c : Config) : (State.resetOf c).hostReads = [] := rfl

/-! The fields of STATUS under each way of writing it -/

@[simp] theorem statusCompleted_err (st : Status) : (statusCompleted st).err = 0 := rfl
@[simp] theorem statusCompleted_errseen (st : Status) : (statusCompleted st).errseen = st.errseen := rfl
@[simp] theorem statusCompleted_itbit (st : Status) : (statusCompleted st).itbit = st.itbit := rfl
@[simp] theorem statusCompleted_itdone (st : Status) : (statusCompleted st).itdone = st.itdone := rfl
@[simp] theorem statusCompleted_itactive (st : Status) : (statusCompleted st).itactive = st.itactive := rfl
@[simp] theorem statusCompleted_itvreg (st : Status) : (statusCompleted st).itvreg = st.itvreg := rfl

@[simp] theorem statusRaised_err (st : Status) (e : Err) : (statusRaised e st).err = errCode e := rfl
@[simp] theorem statusRaised_errseen (st : Status) (e : Err) : (statusRaised e st).errseen = true := rfl
@[simp] theorem statusRaised_itbit (st : Status) (e : Err) : (statusRaised e st).itbit = st.itbit := rfl
@[simp] theorem statusRaised_itdone (st : Status) (e : Err) : (statusRaised e st).itdone = st.itdone := rfl
@[simp] theorem statusRaised_itactive (st : Status) (e : Err) : (statusRaised e st).itactive = st.itactive := rfl
@[simp] theorem statusRaised_itvreg (st : Status) (e : Err) : (statusRaised e st).itvreg = st.itvreg := rfl

@[simp] theorem statusItStarted_err (st : Status) (a : VNum) : (statusItStarted a st).err = st.err := rfl
@[simp] theorem statusItStarted_errseen (st : Status) (a : VNum) : (statusItStarted a st).errseen = st.errseen := rfl
@[simp] theorem statusItStarted_itbit (st : Status) (a : VNum) : (statusItStarted a st).itbit = false := rfl
@[simp] theorem statusItStarted_itdone (st : Status) (a : VNum) : (statusItStarted a st).itdone = false := rfl
@[simp] theorem statusItStarted_itactive (st : Status) (a : VNum) : (statusItStarted a st).itactive = true := rfl
@[simp] theorem statusItStarted_itvreg (st : Status) (a : VNum) : (statusItStarted a st).itvreg = a := rfl

@[simp] theorem statusItPair_err (st : Status) (b : Bool) : (statusItPair b st).err = st.err := rfl
@[simp] theorem statusItPair_errseen (st : Status) (b : Bool) : (statusItPair b st).errseen = st.errseen := rfl
@[simp] theorem statusItPair_itbit (st : Status) (b : Bool) : (statusItPair b st).itbit = b := rfl
@[simp] theorem statusItPair_itdone (st : Status) (b : Bool) : (statusItPair b st).itdone = false := rfl
@[simp] theorem statusItPair_itactive (st : Status) (b : Bool) : (statusItPair b st).itactive = st.itactive := rfl
@[simp] theorem statusItPair_itvreg (st : Status) (b : Bool) : (statusItPair b st).itvreg = st.itvreg := rfl

@[simp] theorem statusItExhausted_err (st : Status) : (statusItExhausted st).err = st.err := rfl
@[simp] theorem statusItExhausted_errseen (st : Status) : (statusItExhausted st).errseen = st.errseen := rfl
@[simp] theorem statusItExhausted_itbit (st : Status) : (statusItExhausted st).itbit = false := rfl
@[simp] theorem statusItExhausted_itdone (st : Status) : (statusItExhausted st).itdone = true := rfl
@[simp] theorem statusItExhausted_itactive (st : Status) : (statusItExhausted st).itactive = st.itactive := rfl
@[simp] theorem statusItExhausted_itvreg (st : Status) : (statusItExhausted st).itvreg = st.itvreg := rfl

/-! Reading a vector register after writing one -/

/-- A written register that exists reads what was written. -/
@[simp] theorem vreg_setVreg_same (s : State) (a : VNum) (v : VReg) (h : a.toNat < s.vregs.length) :
    (s.setVreg a v).vreg a = v := by
  simp [State.vreg, h]

/-- Every other register reads as before (10_state.md R26). -/
theorem vreg_setVreg_ne (s : State) (a b : VNum) (v : VReg) (h : b ≠ a) :
    (s.setVreg a v).vreg b = s.vreg b := by
  have h' : a.toNat ≠ b.toNat := fun e => h (BitVec.eq_of_toNat_eq e.symm)
  simp [State.vreg, List.getD_eq_getElem?_getD, List.getElem?_set_ne h']

/-- A constructed register is one of the register file. -/
theorem vreg_mem_of_valid (s : State) (a : VNum) (h : (s.vreg a).valid = true) :
    a.toNat < s.vregs.length ∧ s.vreg a ∈ s.vregs := by
  by_cases hl : a.toNat < s.vregs.length
  · refine ⟨hl, ?_⟩
    simp [State.vreg, List.getD_eq_getElem?_getD, List.getElem?_eq_getElem hl]
  · simp [State.vreg, List.getD_eq_getElem?_getD, List.getElem?_eq_none (Nat.le_of_not_lt hl), VReg.reset] at h

/-- The vector registers do not depend on the other fields. -/
theorem vreg_congr (s t : State) (h : s.vregs = t.vregs) (a : VNum) : s.vreg a = t.vreg a := by
  simp [State.vreg, h]

end Sys2Proof.Machine
end

