-- ==== Sys2Proof/Laws/Text.lean ====
section
/-! SUPPORT. The laws of the serialisation converter: how long each output is, that no output of a legal instance
is longer than OBUF (00_scope.md R9), and that every vector a construction command places is sound. -/

namespace Sys2Proof.Machine

@[simp] theorem length_arrayBytes (v : VReg) : (arrayBytes v).length = v.len := by simp [arrayBytes]

@[simp] theorem length_stringBytes (v : VReg) : (stringBytes v).length = v.len := by simp [stringBytes]

@[simp] theorem length_binStringBytes (v : VReg) : (binStringBytes v).length = v.len := by simp [binStringBytes]

@[simp] theorem length_indexBytes (i : Nat) : (indexBytes i).length = 4 := rfl

/-- TOINTARRAY writes four bytes per set bit (43_serialization.md R182). -/
theorem length_intArrayBytes (v : VReg) : (intArrayBytes v).length = 4 * v.indices.length := by
  unfold intArrayBytes
  induction v.indices with
  | nil => rfl
  | cons i is ih => simp only [List.flatMap_cons, List.length_append, length_indexBytes, ih, List.length_cons]; omega

theorem length_indices_le (v : VReg) : v.indices.length ≤ v.len := by
  have := List.length_filter_le v.bit (List.range v.len)
  simpa [VReg.indices] using this

@[simp] theorem length_wordHexChars (w : Word) : (wordHexChars w).length = 8 := by simp [wordHexChars]

/-- TOHEX writes eight characters per word (43_serialization.md R185). -/
theorem length_flatMap_wordHexChars (ws : List Word) : (ws.flatMap wordHexChars).length = 8 * ws.length := by
  induction ws with
  | nil => rfl
  | cons w ws ih =>
    simp only [List.flatMap_cons, List.length_append, length_wordHexChars, ih, List.length_cons]; omega

theorem length_hexBytes (v : VReg) : (hexBytes v).length = 8 * wordCount v.len := by
  rw [hexBytes, length_flatMap_wordHexChars, length_lanes]

/-- A numeral has at most as many characters as its fuel. -/
theorem length_decNumeral_le (fuel n : Nat) : (decNumeral fuel n).length ≤ fuel := by
  induction fuel generalizing n with
  | zero => simp [decNumeral]
  | succ f ih =>
    unfold decNumeral
    split
    · simp
    · have := ih (n / 10)
      simp only [List.length_append, List.length_cons, List.length_nil]; omega

theorem length_jsonItems_le (ws : List Word) : (jsonItems ws).length ≤ 11 * ws.length - 1 := by
  induction ws with
  | nil => simp [jsonItems]
  | cons w ws ih =>
    have hw : (decChars w).length ≤ 10 := length_decNumeral_le 10 w.toNat
    cases ws with
    | nil => simp only [jsonItems, List.length_cons, List.length_nil]; omega
    | cons x xs =>
      simp only [jsonItems, List.length_append, List.length_cons] at *
      omega

/-- TOJSON writes at most 11 bytes per word and one more, and "[]" for no word (43_serialization.md R186). -/
theorem length_jsonText_le (ws : List Word) : (jsonText ws).length ≤ max 2 (11 * ws.length + 1) := by
  have := length_jsonItems_le ws
  simp only [jsonText, List.length_cons, List.length_append, List.length_nil]
  omega

theorem wordCount_mono {a b : Nat} (h : a ≤ b) : wordCount a ≤ wordCount b := by
  simp only [wordCount]; omega

/-- No output of a vector within MAXLEN is longer than a legal OBUF (00_scope.md R9). -/
theorem outputs_fit (c : Config) (hc : c.Legal) (v : VReg) (hv : v.len ≤ c.maxlen) :
    (arrayBytes v).length ≤ c.obufCap ∧ (intArrayBytes v).length ≤ c.obufCap ∧
      (stringBytes v).length ≤ c.obufCap ∧ (binStringBytes v).length ≤ c.obufCap ∧
      (hexBytes v).length ≤ c.obufCap ∧ (jsonBytes v).length ≤ c.obufCap := by
  have h1 := hc.obuf_indices
  have h2 := hc.obuf_json
  have h3 := hc.obuf_two
  have h4 := wordCount_mono hv
  have h5 := length_indices_le v
  have h6 := length_jsonText_le v.lanes
  rw [length_lanes] at h6
  simp only [length_arrayBytes, length_intArrayBytes, length_stringBytes, length_binStringBytes, length_hexBytes,
    jsonBytes]
  omega

@[simp] theorem length_groupWords (w : Nat) (p : List (BitVec 4)) : (groupWords w p).length = w := by
  simp [groupWords]

/-- A word list that fits a length makes a sound register (40_construction.md R102, R106). -/
theorem sound_make {maxlen len : Nat} {ws : List Word} (hw : ws.length = wordCount len) (hl : len ≤ maxlen)
    (hp : padClear len ws = true) : (VReg.make len ws).Sound maxlen := by
  refine ⟨hw, hl, ?_⟩
  unfold VReg.padBits
  simp only [padClear, Bool.or_eq_true, decide_eq_true_eq] at hp
  rcases hp with hp | hp
  · simp [VReg.make, hp]
  · split
    · rfl
    · exact hp

/-- What placeHex answers: a constructed, sound register of the length asked for (40_construction.md R102). -/
theorem placeHex_sound {maxlen : Nat} {d : List (BitVec 4)} {len : Nat} {v : VReg} (h : placeHex d len = some v)
    (hl : len ≤ maxlen) : v.valid = true ∧ v.len = len ∧ v.Sound maxlen := by
  unfold placeHex at h
  split at h
  · dsimp only at h
    split at h
    · rename_i hp
      cases h
      exact ⟨rfl, rfl, sound_make (by simp) hl hp⟩
    · cases h
  · cases h

/-- What placeJson answers (40_construction.md R106). -/
theorem placeJson_sound {maxlen : Nat} {ws : List Word} {len : Nat} {v : VReg} (h : placeJson ws len = some v)
    (hl : len ≤ maxlen) : v = VReg.make len ws ∧ v.Sound maxlen := by
  unfold placeJson at h
  split at h
  · rename_i hc
    cases h
    exact ⟨rfl, sound_make hc.1 hl hc.2⟩
  · cases h

@[simp] theorem length_setBits (ws : List Word) (i : Nat) (bs : List Bool) : (setBits ws i bs).length = ws.length := by
  induction bs generalizing ws i with
  | nil => rfl
  | cons b bs ih => unfold setBits; rw [ih]; split <;> simp

/-- The bits FROMARRAY sets: index i + k is one where the k-th boolean is true or it was one before. -/
theorem bit_setBits (ws : List Word) (i : Nat) (bs : List Bool) (len j : Nat) (valid : Bool)
    (h : i + bs.length ≤ len) (hw : ws.length = wordCount len) :
    VReg.bit { valid := valid, len := len, words := setBits ws i bs } j =
      ((decide (i ≤ j) && bs.getD (j - i) false) || VReg.bit { valid := valid, len := len, words := ws } j) := by
  induction bs generalizing ws i with
  | nil => simp [setBits]
  | cons b bs ih =>
    simp only [List.length_cons] at h
    rw [setBits, ih _ (i + 1) (by omega) (by split <;> simp [hw])]
    have hlt : wordOf i < ws.length := hw ▸ wordOf_lt_wordCount (by omega)
    have hset := bit_setBit { valid := valid, len := len, words := ws } i j true hlt
    simp only at hset
    by_cases hj : j = i
    · subst hj
      have : ¬ (j + 1 ≤ j) := by omega
      cases b
      · simp
      · simp [hset]
    · by_cases hle : i ≤ j
      · have h1 : i + 1 ≤ j := by omega
        have h2 : j - i = (j - (i + 1)) + 1 := by omega
        cases b
        · simp [h1, hle, h2]
        · simp [h1, hle, h2, hset, hj]
      · have h1 : ¬ (i + 1 ≤ j) := by omega
        cases b
        · simp [h1, hle]
        · simp [h1, hle, hset, hj]

/-- What placeBools answers, bit by bit (40_construction.md R107). -/
theorem bit_placeBools (bs : List Bool) (j : Nat) : (placeBools bs).bit j = bs.getD j false := by
  have := bit_setBits (List.replicate (wordCount bs.length) 0#32) 0 bs bs.length j true (by simp) (by simp)
  simpa [placeBools, VReg.make, bit_replicate_zero] using this

/-- FROMARRAY places a sound register (40_construction.md R107). -/
theorem placeBools_sound {maxlen : Nat} (bs : List Bool) (hl : bs.length ≤ maxlen) :
    (placeBools bs).Sound maxlen := by
  refine sound_of_bits (by simp [placeBools, VReg.make]) hl fun i hi => ?_
  rw [bit_placeBools]
  have : bs.length ≤ i := hi
  simp [List.getD_eq_getElem?_getD, List.getElem?_eq_none this]

theorem length_boolsOfBytes {t : List Byte} {bs : List Bool} (h : boolsOfBytes t = some bs) :
    bs.length = t.length := by
  induction t generalizing bs with
  | nil => cases h; rfl
  | cons b t ih =>
    unfold boolsOfBytes at h
    split at h
    · rename_i x xs hx hxs
      cases h
      simp [ih hxs]
    · cases h

theorem wordCount_implied (n : Nat) : wordCount (impliedLength n) = wordCount (4 * n) := by
  simp only [impliedLength, wordCount]; omega

/-- placeHex cannot fail for the length FROMHEX implies (40_construction.md R103). -/
theorem placeHex_implied (d : List (BitVec 4)) :
    ∃ v, placeHex d (impliedLength d.length) = some v := by
  have h1 : d.length ≤ 8 * wordCount (impliedLength d.length) := by
    rw [wordCount_implied]; simp only [wordCount]; omega
  have h2 : padMask (impliedLength d.length) = 0xFFFFFFFF#32 := by
    unfold padMask impliedLength; simp
  unfold placeHex
  rw [if_pos h1]
  dsimp only
  rw [if_pos]
  · exact ⟨_, rfl⟩
  · have h3 : ~~~(0xFFFFFFFF#32) = 0#32 := by decide
    simp [padClear, h2, h3]

end Sys2Proof.Machine
end

