-- ==== Sys2Proof/Laws/Ops.lean ====
section
/-! SUPPORT. One lemma per shared operation that says everything it can do, and then everything a command can do:
`exec_effect`, which later proofs cite instead of unfolding 25 meanings. -/

namespace Sys2Proof.Machine

/-- `complete` answers, with ERR <- 0 beside the writes made (60_exceptions.md R212). -/
@[simp] theorem complete_next (s t : State) :
    complete s = .next t ↔ t = { s with status := statusCompleted s.status } := by
  unfold complete
  constructor
  · intro h; cases h; rfl
  · intro h; rw [h]

/-- `raise` answers, with STATUS alone changed (60_exceptions.md R211). -/
@[simp] theorem raise_next (e : Err) (s t : State) :
    raise e s = .next t ↔ t = { s with status := statusRaised e s.status } := by
  unfold raise
  constructor
  · intro h; cases h; rfl
  · intro h; rw [h]

/-- A vector operand: the command goes on with a constructed register, or raises (60_exceptions.md R218). -/
theorem withVector_next {a : VNum} {s t : State} {k : VReg → Result} :
    withVector a s k = .next t ↔
      ((s.vreg a).valid = true ∧ k (s.vreg a) = .next t) ∨
        ((s.vreg a).valid = false ∧ t = { s with status := statusRaised .uninitialisedVector s.status }) := by
  unfold withVector
  split
  · rename_i h; simp [h]
  · rename_i h; simp [h]

/-- An index: the command goes on below len, or raises (41_bit_access.md R130). -/
theorem withIndex_next {v : VReg} {imm : Word} {s t : State} {k : Nat → Result} :
    withIndex v imm s k = .next t ↔
      (imm.toNat < v.len ∧ k imm.toNat = .next t) ∨
        (v.len ≤ imm.toNat ∧ t = { s with status := statusRaised .index s.status }) := by
  unfold withIndex
  split
  · rename_i h; simp [h]
  · rename_i h; simp [h]; omega

/-- A length: the command goes on up to MAXLEN, or raises (60_exceptions.md R219). -/
theorem withCapacity_next {len : Nat} {s t : State} {k : Result} :
    withCapacity len s k = .next t ↔
      (len ≤ s.cfg.maxlen ∧ k = .next t) ∨
        (s.cfg.maxlen < len ∧ t = { s with status := statusRaised .capacity s.status }) := by
  unfold withCapacity
  split
  · rename_i h; simp [h]
  · rename_i h; simp [h]; omega

/-- Two vector operands of equal length (42_whole_vector.md R155). -/
theorem withPair_next {va vb : VNum} {s t : State} {k : VReg → VReg → Result} :
    withPair va vb s k = .next t ↔
      ((s.vreg va).valid = true ∧ (s.vreg vb).valid = true ∧ (s.vreg va).len = (s.vreg vb).len ∧
          k (s.vreg va) (s.vreg vb) = .next t) ∨
        (((s.vreg va).valid = false ∨ (s.vreg vb).valid = false) ∧
          t = { s with status := statusRaised .uninitialisedVector s.status }) ∨
        ((s.vreg va).valid = true ∧ (s.vreg vb).valid = true ∧ (s.vreg va).len ≠ (s.vreg vb).len ∧
          t = { s with status := statusRaised .lengthMismatch s.status }) := by
  unfold withPair
  rw [withVector_next, withVector_next]
  cases (s.vreg va).valid <;> cases (s.vreg vb).valid <;> simp
  split
  · rename_i h; simp [h]
  · rename_i h; simp [h]

/-- The input text: read whole where ILEN fits, no next state otherwise (10_state.md R39). -/
theorem withInput_next {s t : State} {k : List Byte → Result} :
    withInput s k = .next t ↔ s.ilen.toNat ≤ s.cfg.ibufCap ∧ k s.input = .next t := by
  unfold withInput
  split
  · rename_i h; simp [h]
  · rename_i h; simp [h]

/-- A parsed value: the command goes on with it, or raises (60_exceptions.md R216). -/
theorem orFormatError_next {α : Type} {x : Option α} {s t : State} {k : α → Result} :
    orFormatError x s k = .next t ↔
      (∃ y, x = some y ∧ k y = .next t) ∨ (x = none ∧ t = { s with status := statusRaised .format s.status }) := by
  unfold orFormatError
  cases x <;> simp

/-- The output primitive: OBUF, OLEN and ERR are written where the output fits (43_serialization.md R180). -/
theorem emit_next {out : List Byte} {s t : State} :
    emit out s = .next t ↔
      out.length ≤ s.cfg.obufCap ∧
        t = { s with obuf := s.obuf.writeAll 0 out, olen := BitVec.ofNat 32 out.length, status := statusCompleted s.status } := by
  unfold emit
  split
  · rename_i h; simp [h]
  · rename_i h; simp [h]

@[simp] theorem completeVreg_next {a : VNum} {v : VReg} {s t : State} :
    completeVreg a v s = .next t ↔ t = { s.setVreg a v with status := statusCompleted s.status } := by
  simp [completeVreg]

@[simp] theorem completeRes_next {n : Nat} {s t : State} :
    completeRes n s = .next t ↔ t = { s with res := BitVec.ofNat 32 n, status := statusCompleted s.status } := by
  simp [completeRes, State.setRes]

/-- Every way a command can answer a next state. Nothing else happens to the state. -/
inductive Effect (i : Instr) (s : State) : State → Prop where
  /-- an error: STATUS alone (60_exceptions.md R211) -/
  | raised (e : Err) (he : e ≠ .illegalCommand) : Effect i s { s with status := statusRaised e s.status }
  /-- a vector register, sound where the registers were (10_state.md R23 to R25) -/
  | wroteVreg (a : VNum) (v : VReg) (hd : i.dest = some a) (hv : v.valid = true)
      (hs : (∀ x ∈ s.vregs, x.valid = true → x.Sound s.cfg.maxlen) → v.Sound s.cfg.maxlen) :
      Effect i s { s.setVreg a v with status := statusCompleted s.status }
  /-- RES (10_state.md R27) -/
  | wroteRes (n : Nat) (hr : i.writesRes = true) (hn : i ≠ .itnext) :
      Effect i s { s with res := BitVec.ofNat 32 n, status := statusCompleted s.status }
  /-- OBUF and OLEN (43_serialization.md R180) -/
  | emitted (out : List Byte) (hs : i.serialises = true) (hl : out.length ≤ s.cfg.obufCap) :
      Effect i s { s with obuf := s.obuf.writeAll 0 out, olen := BitVec.ofNat 32 out.length, status := statusCompleted s.status }
  /-- ITSTART (44_iteration.md R200) -/
  | started (a : VNum) (hi : i = .itstart a) (hv : (s.vreg a).valid = true) :
      Effect i s { s with status := statusCompleted (statusItStarted a s.status), itpos := 0 }
  /-- ITNEXT with a pair (44_iteration.md R201) -/
  | pair (hi : i = .itnext) (ha : s.status.itactive = true) (hv : (s.vreg s.status.itvreg).valid = true)
      (hl : s.itpos.toNat < (s.vreg s.status.itvreg).len) :
      Effect i s
        { s with
          res := s.itpos
          status := statusCompleted (statusItPair ((s.vreg s.status.itvreg).bit s.itpos.toNat) s.status)
          itpos := s.itpos + 1 }
  /-- ITNEXT at the end (44_iteration.md R201) -/
  | exhausted (hi : i = .itnext) (ha : s.status.itactive = true)
      (hl : (s.vreg s.status.itvreg).len ≤ s.itpos.toNat) :
      Effect i s { s with status := statusCompleted (statusItExhausted s.status) }

/-- Soundness of an operand, from that of the register file. -/
theorem sound_operand {s : State} {a : VNum} (h : (s.vreg a).valid = true)
    (hs : ∀ x ∈ s.vregs, x.valid = true → x.Sound s.cfg.maxlen) : (s.vreg a).Sound s.cfg.maxlen :=
  hs _ (vreg_mem_of_valid s a h).2 h

/-- Writing a bit below len keeps a register sound (10_state.md R25). -/
theorem sound_setBit {maxlen : Nat} {v : VReg} (h : v.Sound maxlen) {i : Nat} (hi : i < v.len) (f : Bool) :
    VReg.Sound maxlen { v with words := setBit v.words i f } := by
  refine sound_of_bits (by simpa using h.word_count) h.len_le fun j hj => ?_
  rw [bit_setBit v i j f (h.word_count ▸ wordOf_lt_wordCount hi)]
  have hj : v.len ≤ j := hj
  have : j ≠ i := by omega
  simp [this, Sound.bit_high h hj]

/-- Flipping a bit below len keeps a register sound (10_state.md R25). -/
theorem sound_flipBit {maxlen : Nat} {v : VReg} (h : v.Sound maxlen) {i : Nat} (hi : i < v.len) :
    VReg.Sound maxlen { v with words := flipBit v.words i } := by
  refine sound_of_bits (by simpa using h.word_count) h.len_le fun j hj => ?_
  rw [bit_flipBit v i j (h.word_count ▸ wordOf_lt_wordCount hi)]
  have hj : v.len ≤ j := hj
  have : j ≠ i := by omega
  simp [this, Sound.bit_high h hj]

/-- NOT leaves a sound register (42_whole_vector.md R154). -/
theorem sound_complement {maxlen : Nat} {v : VReg} (h : v.Sound maxlen) :
    VReg.Sound maxlen { v with words := maskLast v.len (v.lanes.map (fun w => ~~~w)) } := by
  refine sound_of_bits (by simp) h.len_le fun j hj => ?_
  have hj : v.len ≤ j := hj
  rw [bit_complement]
  simp [Nat.not_lt.2 hj]

/-- A register of zeros is sound (40_construction.md R100, 41_bit_access.md R135). -/
theorem sound_zeros {maxlen len : Nat} (h : len ≤ maxlen) :
    (VReg.make len (List.replicate (wordCount len) 0#32)).Sound maxlen :=
  sound_of_bits (by simp [VReg.make]) h fun j _ => bit_replicate_zero _ _ _ _

/-- AND, OR and XOR of sound registers are sound (10_state.md R25). -/
theorem sound_lanewise {maxlen : Nat} (f : Word → Word → Word) (g : Bool → Bool → Bool) {a b : VReg}
    (hf : ∀ (x y : Word) (p : Nat), p < 32 → (f x y).getLsbD p = g (x.getLsbD p) (y.getLsbD p))
    (hg : g false false = false) (hl : a.len = b.len) (ha : a.Sound maxlen) (hb : b.Sound maxlen) :
    (lanewise f a b).Sound maxlen :=
  sound_of_bits (length_lanewise f a b hl) ha.len_le fun j hj =>
    bit_lanewise_high f g a b hl hf hg (fun _ h => Sound.bit_high ha h) (fun _ h => Sound.bit_high hb h) j hj

/-- A construction command places a sound register. -/
theorem boolsOfBytes_input_length {s : State} {bs : List Bool} (h : boolsOfBytes s.input = some bs) :
    bs.length = s.ilen.toNat := by
  rw [length_boolsOfBytes h, State.input, readAll_length]

/-- Everything a command can do. -/
theorem exec_effect {i : Instr} {s t : State} (h : exec i s = .next t) : Effect i s t := by
  have U : Err.uninitialisedVector ≠ .illegalCommand := by decide
  have F : Err.format ≠ .illegalCommand := by decide
  have C : Err.capacity ≠ .illegalCommand := by decide
  have I : Err.index ≠ .illegalCommand := by decide
  have M : Err.lengthMismatch ≠ .illegalCommand := by decide
  cases i with
  | new va imm =>
    simp only [exec, execNew, withCapacity_next, completeVreg_next] at h
    rcases h with ⟨hl, rfl⟩ | ⟨-, rfl⟩
    · exact .wroteVreg va _ rfl rfl fun _ => sound_zeros hl
    · exact .raised _ C
  | fromhex va =>
    simp only [exec, execFromhex, withInput_next, orFormatError_next, withCapacity_next, completeVreg_next] at h
    obtain ⟨-, ⟨d, -, ⟨hl, ⟨v, hp, rfl⟩ | ⟨-, rfl⟩⟩ | ⟨-, rfl⟩⟩ | ⟨-, rfl⟩⟩ := h
    · exact .wroteVreg va v rfl (placeHex_sound hp hl).1 fun _ => (placeHex_sound hp hl).2.2
    · exact .raised _ F
    · exact .raised _ C
    · exact .raised _ F
  | fromhexl va imm =>
    simp only [exec, execFromhexl, withInput_next, orFormatError_next, withCapacity_next, completeVreg_next] at h
    obtain ⟨hl, -, ⟨d, -, ⟨v, hp, rfl⟩ | ⟨-, rfl⟩⟩ | ⟨-, rfl⟩⟩ | ⟨-, rfl⟩ := h
    · exact .wroteVreg va v rfl (placeHex_sound hp hl).1 fun _ => (placeHex_sound hp hl).2.2
    · exact .raised _ F
    · exact .raised _ F
    · exact .raised _ C
  | fromjson va imm =>
    simp only [exec, execFromjson, withInput_next, orFormatError_next, withCapacity_next, completeVreg_next] at h
    obtain ⟨hl, -, ⟨ws, -, ⟨v, hp, rfl⟩ | ⟨-, rfl⟩⟩ | ⟨-, rfl⟩⟩ | ⟨-, rfl⟩ := h
    · exact .wroteVreg va v rfl (by rw [(placeJson_sound hp hl).1]; rfl) fun _ => (placeJson_sound hp hl).2
    · exact .raised _ F
    · exact .raised _ F
    · exact .raised _ C
  | fromarray va =>
    simp only [exec, execFromarray, withInput_next, orFormatError_next, withCapacity_next, completeVreg_next] at h
    obtain ⟨hl, -, ⟨bs, hb, rfl⟩ | ⟨-, rfl⟩⟩ | ⟨-, rfl⟩ := h
    · exact .wroteVreg va _ rfl rfl fun _ => placeBools_sound bs (boolsOfBytes_input_length hb ▸ hl)
    · exact .raised _ F
    · exact .raised _ C
  | size va =>
    simp only [exec, execSize, withVector_next, completeRes_next] at h
    obtain ⟨-, rfl⟩ | ⟨-, rfl⟩ := h
    · exact .wroteRes _ rfl (by simp)
    · exact .raised _ U
  | get va imm =>
    simp only [exec, execGet, withVector_next, withIndex_next, completeRes_next] at h
    obtain ⟨-, ⟨-, rfl⟩ | ⟨-, rfl⟩⟩ | ⟨-, rfl⟩ := h
    · exact .wroteRes _ rfl (by simp)
    · exact .raised _ I
    · exact .raised _ U
  | set va imm f =>
    simp only [exec, execSet, withVector_next, withIndex_next, completeVreg_next] at h
    obtain ⟨hv, ⟨hi, rfl⟩ | ⟨-, rfl⟩⟩ | ⟨-, rfl⟩ := h
    · exact .wroteVreg va _ rfl hv fun hs => sound_setBit (sound_operand hv hs) hi f
    · exact .raised _ I
    · exact .raised _ U
  | toggle va imm =>
    simp only [exec, execToggle, withVector_next, withIndex_next, completeVreg_next] at h
    obtain ⟨hv, ⟨hi, rfl⟩ | ⟨-, rfl⟩⟩ | ⟨-, rfl⟩ := h
    · exact .wroteVreg va _ rfl hv fun hs => sound_flipBit (sound_operand hv hs) hi
    · exact .raised _ I
    · exact .raised _ U
  | reset va =>
    simp only [exec, execReset, withVector_next, completeVreg_next] at h
    obtain ⟨hv, rfl⟩ | ⟨-, rfl⟩ := h
    · exact .wroteVreg va _ rfl rfl fun hs => sound_zeros (sound_operand hv hs).len_le
    · exact .raised _ U
  | copy va vb =>
    simp only [exec, execCopy, withVector_next, completeVreg_next] at h
    obtain ⟨hv, rfl⟩ | ⟨-, rfl⟩ := h
    · exact .wroteVreg va _ rfl rfl fun hs =>
        ⟨(sound_operand hv hs).word_count, (sound_operand hv hs).len_le, (sound_operand hv hs).padding⟩
    · exact .raised _ U
  | equals va vb =>
    simp only [exec, execEquals, withVector_next, completeRes_next] at h
    obtain ⟨-, ⟨-, rfl⟩ | ⟨-, rfl⟩⟩ | ⟨-, rfl⟩ := h
    · exact .wroteRes _ rfl (by simp)
    · exact .raised _ U
    · exact .raised _ U
  | count va =>
    simp only [exec, execCount, withVector_next, completeRes_next] at h
    obtain ⟨-, rfl⟩ | ⟨-, rfl⟩ := h
    · exact .wroteRes _ rfl (by simp)
    · exact .raised _ U
  | vnot va =>
    simp only [exec, execNot, withVector_next, completeVreg_next] at h
    obtain ⟨hv, rfl⟩ | ⟨-, rfl⟩ := h
    · exact .wroteVreg va _ rfl hv fun hs => sound_complement (sound_operand hv hs)
    · exact .raised _ U
  | vand va vb =>
    simp only [exec, execAnd, withPair_next, completeVreg_next] at h
    obtain ⟨ha, hb, hl, rfl⟩ | ⟨-, rfl⟩ | ⟨-, -, -, rfl⟩ := h
    · exact .wroteVreg va _ rfl ha fun hs =>
        sound_lanewise _ and (fun x y p _ => BitVec.getLsbD_and) rfl hl (sound_operand ha hs) (sound_operand hb hs)
    · exact .raised _ U
    · exact .raised _ M
  | vor va vb =>
    simp only [exec, execOr, withPair_next, completeVreg_next] at h
    obtain ⟨ha, hb, hl, rfl⟩ | ⟨-, rfl⟩ | ⟨-, -, -, rfl⟩ := h
    · exact .wroteVreg va _ rfl ha fun hs =>
        sound_lanewise _ or (fun x y p _ => BitVec.getLsbD_or) rfl hl (sound_operand ha hs) (sound_operand hb hs)
    · exact .raised _ U
    · exact .raised _ M
  | vxor va vb =>
    simp only [exec, execXor, withPair_next, completeVreg_next] at h
    obtain ⟨ha, hb, hl, rfl⟩ | ⟨-, rfl⟩ | ⟨-, -, -, rfl⟩ := h
    · exact .wroteVreg va _ rfl ha fun hs =>
        sound_lanewise _ xor (fun x y p _ => BitVec.getLsbD_xor) rfl hl (sound_operand ha hs) (sound_operand hb hs)
    · exact .raised _ U
    · exact .raised _ M
  | toarray va =>
    simp only [exec, execToarray, withVector_next, emit_next] at h
    obtain ⟨-, hl, rfl⟩ | ⟨-, rfl⟩ := h
    · exact .emitted _ rfl hl
    · exact .raised _ U
  | tointarray va =>
    simp only [exec, execTointarray, withVector_next, emit_next] at h
    obtain ⟨-, hl, rfl⟩ | ⟨-, rfl⟩ := h
    · exact .emitted _ rfl hl
    · exact .raised _ U
  | tostring va =>
    simp only [exec, execTostring, withVector_next, emit_next] at h
    obtain ⟨-, hl, rfl⟩ | ⟨-, rfl⟩ := h
    · exact .emitted _ rfl hl
    · exact .raised _ U
  | tobinstr va =>
    simp only [exec, execTobinstr, withVector_next, emit_next] at h
    obtain ⟨-, hl, rfl⟩ | ⟨-, rfl⟩ := h
    · exact .emitted _ rfl hl
    · exact .raised _ U
  | tohex va =>
    simp only [exec, execTohex, withVector_next, emit_next] at h
    obtain ⟨-, hl, rfl⟩ | ⟨-, rfl⟩ := h
    · exact .emitted _ rfl hl
    · exact .raised _ U
  | tojson va =>
    simp only [exec, execTojson, withVector_next, emit_next] at h
    obtain ⟨-, hl, rfl⟩ | ⟨-, rfl⟩ := h
    · exact .emitted _ rfl hl
    · exact .raised _ U
  | itstart va =>
    simp only [exec, execItstart, withVector_next, complete_next] at h
    obtain ⟨hv, rfl⟩ | ⟨-, rfl⟩ := h
    · exact .started va rfl hv
    · exact .raised _ U
  | itnext =>
    simp only [exec, execItnext] at h
    split at h
    · rename_i ha
      rw [withVector_next] at h
      obtain ⟨hv, h⟩ | ⟨-, rfl⟩ := h
      · split at h
        · rename_i hl
          rw [complete_next] at h
          subst h
          exact .pair rfl ha hv hl
        · rename_i hl
          rw [complete_next] at h
          subst h
          exact .exhausted rfl ha (Nat.le_of_not_lt hl)
      · exact .raised _ U
    · rw [raise_next] at h
      subst h
      exact .raised _ U

end Sys2Proof.Machine
end

