-- ==== Sys2Proof/Laws/PerInstr.lean ====
section
/-! SUPPORT. The family OpMap: for every command, the row of the opcode map (30_encoding.md R76) that its opcode
selects has its form (R72) and rebuilds it from its fields; one lemma per constructor of Instr. -/

namespace Sys2Proof.Laws.OpMap

/-- The opcode map has a row for the command's opcode, of the command's form, that rebuilds the command from the
fields the encoder gives it. -/
def Statement (i : Instr) : Prop :=
  i.fields.op = i.opcode ∧ ∃ row, opMap i.opcode = some row ∧ row.form = i.form ∧ row.build i.fields = i

theorem new (va : VNum) (imm : Word) : Statement (.new va imm) := ⟨rfl, _, rfl, rfl, rfl⟩

theorem fromhex (va : VNum) : Statement (.fromhex va) := ⟨rfl, _, rfl, rfl, rfl⟩

theorem fromhexl (va : VNum) (imm : Word) : Statement (.fromhexl va imm) := ⟨rfl, _, rfl, rfl, rfl⟩

theorem fromjson (va : VNum) (imm : Word) : Statement (.fromjson va imm) := ⟨rfl, _, rfl, rfl, rfl⟩

theorem fromarray (va : VNum) : Statement (.fromarray va) := ⟨rfl, _, rfl, rfl, rfl⟩

theorem size (va : VNum) : Statement (.size va) := ⟨rfl, _, rfl, rfl, rfl⟩

theorem get (va : VNum) (imm : Word) : Statement (.get va imm) := ⟨rfl, _, rfl, rfl, rfl⟩

theorem set (va : VNum) (imm : Word) (f : Bool) : Statement (.set va imm f) := ⟨rfl, _, rfl, rfl, rfl⟩

theorem toggle (va : VNum) (imm : Word) : Statement (.toggle va imm) := ⟨rfl, _, rfl, rfl, rfl⟩

theorem reset (va : VNum) : Statement (.reset va) := ⟨rfl, _, rfl, rfl, rfl⟩

theorem copy (va : VNum) (vb : VNum) : Statement (.copy va vb) := ⟨rfl, _, rfl, rfl, rfl⟩

theorem equals (va : VNum) (vb : VNum) : Statement (.equals va vb) := ⟨rfl, _, rfl, rfl, rfl⟩

theorem count (va : VNum) : Statement (.count va) := ⟨rfl, _, rfl, rfl, rfl⟩

theorem vnot (va : VNum) : Statement (.vnot va) := ⟨rfl, _, rfl, rfl, rfl⟩

theorem vand (va : VNum) (vb : VNum) : Statement (.vand va vb) := ⟨rfl, _, rfl, rfl, rfl⟩

theorem vor (va : VNum) (vb : VNum) : Statement (.vor va vb) := ⟨rfl, _, rfl, rfl, rfl⟩

theorem vxor (va : VNum) (vb : VNum) : Statement (.vxor va vb) := ⟨rfl, _, rfl, rfl, rfl⟩

theorem toarray (va : VNum) : Statement (.toarray va) := ⟨rfl, _, rfl, rfl, rfl⟩

theorem tointarray (va : VNum) : Statement (.tointarray va) := ⟨rfl, _, rfl, rfl, rfl⟩

theorem tostring (va : VNum) : Statement (.tostring va) := ⟨rfl, _, rfl, rfl, rfl⟩

theorem tobinstr (va : VNum) : Statement (.tobinstr va) := ⟨rfl, _, rfl, rfl, rfl⟩

theorem tohex (va : VNum) : Statement (.tohex va) := ⟨rfl, _, rfl, rfl, rfl⟩

theorem tojson (va : VNum) : Statement (.tojson va) := ⟨rfl, _, rfl, rfl, rfl⟩

theorem itstart (va : VNum) : Statement (.itstart va) := ⟨rfl, _, rfl, rfl, rfl⟩

theorem itnext : Statement (.itnext) := ⟨rfl, _, rfl, rfl, rfl⟩

end Sys2Proof.Laws.OpMap
end

