-- ==== Sys2Proof/Machine/Assembler.lean ====
section
/-! DEFINITION. The assembler syntax (30_encoding.md R81), the pseudo-instruction CLR (R82) and the host-program
directives (R83), from a line of text to host operations. No step of the machine uses it. What the three rules
leave open of the text (spaces, leading zeros, the case of letters, the form of SET's value, of READ_OBUF's k and of
a byte of `.ibufb`) is log 15. -/

namespace Sys2Proof.Machine

/-- A space or a tab (log 15). -/
def isBlank (c : Char) : Bool := c == ' ' || c == '\t'

/-- The double quote of `.ibuf` (30_encoding.md R83). -/
def quoteChar : Char := Char.ofNat 34

/-- A line without its comment: from a ';' outside a quoted text to the end (30_encoding.md R81; log 15). -/
def stripComment (quoted : Bool) : List Char → List Char
  | [] => []
  | c :: rest =>
    if c = ';' ∧ quoted = false then []
    else c :: stripComment (if c = quoteChar then !quoted else quoted) rest

/-- A text without the blanks at its two ends. -/
def trimBlanks (t : List Char) : List Char := ((t.dropWhile isBlank).reverse.dropWhile isBlank).reverse

/-- The parts of a text between its commas. -/
def splitCommas : List Char → List (List Char)
  | [] => [[]]
  | c :: rest =>
    if c = ',' then [] :: splitCommas rest
    else
      match splitCommas rest with
      | [] => [[c]]
      | p :: ps => (c :: p) :: ps

/-- The operands of a line, with no operand where nothing stands (30_encoding.md R81). -/
def operandsOf (t : List Char) : List (List Char) :=
  if t = [] then [] else (splitCommas t).map trimBlanks

/-- The value of a digit in a base. -/
def asmDigit (base : Nat) (c : Char) : Option Nat :=
  let n := c.toNat
  let d := if 48 ≤ n ∧ n ≤ 57 then n - 48 else if 97 ≤ n ∧ n ≤ 102 then n - 87 else if 65 ≤ n ∧ n ≤ 70 then n - 55 else base
  if d < base then some d else none

/-- The value of a string of digits in a base, continued from `acc`. -/
def asmDigits (base acc : Nat) : List Char → Option Nat
  | [] => some acc
  | c :: rest =>
    match asmDigit base c with
    | some d => asmDigits base (base * acc + d) rest
    | none => none

/-- A number: decimal, or hexadecimal with a 0x prefix (30_encoding.md R81). -/
def asmNumber (t : List Char) : Option Nat :=
  match t with
  | [] => none
  | ['0', 'x'] => none
  | '0' :: 'x' :: rest => asmDigits 16 0 rest
  | _ => asmDigits 10 0 t

/-- A number below a bound. -/
def asmBelow (bound : Nat) (t : List Char) : Option Nat := (asmNumber t).filter (fun n => decide (n < bound))

/-- The decimal numeral of a register number. -/
def regDigits (n : Nat) : List Char :=
  if n < 10 then [Char.ofNat (48 + n)] else ['1', Char.ofNat (38 + n)]

/-- A vector register, v0 to v15 (30_encoding.md R81). -/
def asmReg (t : List Char) : Option VNum :=
  ((List.range 16).find? (fun n => decide (t = 'v' :: regDigits n))).map (BitVec.ofNat 4)

/-- An immediate, at most 2^32 - 1 (30_encoding.md R81). -/
def asmImm (t : List Char) : Option Word := (asmBelow (2 ^ 32) t).map (BitVec.ofNat 32)

/-- The value operand of SET, 0 or 1 (30_encoding.md R81). DESIGN CHOICE: it may be written in any form an immediate
may, so 0x1 is 1 (log 15). -/
def asmValue (t : List Char) : Option Bool := (asmBelow 2 t).map (fun n => decide (n = 1))

/-- Form A: `COUNT va` (30_encoding.md R81). -/
def asmA (mk : VNum → Instr) : List (List Char) → Option Instr
  | [a] => (asmReg a).map mk
  | _ => none

/-- Form AB: `AND va, vb` (30_encoding.md R81). -/
def asmAB (mk : VNum → VNum → Instr) : List (List Char) → Option Instr
  | [a, b] =>
    match asmReg a, asmReg b with
    | some va, some vb => some (mk va vb)
    | _, _ => none
  | _ => none

/-- Form AI: `GET va, index` (30_encoding.md R81). -/
def asmAI (mk : VNum → Word → Instr) : List (List Char) → Option Instr
  | [a, n] =>
    match asmReg a, asmImm n with
    | some va, some imm => some (mk va imm)
    | _, _ => none
  | _ => none

/-- Form AFI: `SET va, index, value` (30_encoding.md R81). -/
def asmAFI (mk : VNum → Word → Bool → Instr) : List (List Char) → Option Instr
  | [a, n, x] =>
    match asmReg a, asmImm n, asmValue x with
    | some va, some imm, some f => some (mk va imm f)
    | _, _, _ => none
  | _ => none

/-- The command of a mnemonic and its operands (30_encoding.md R76, R81, R82). -/
def asmCommand (m : List Char) (ops : List (List Char)) : Option Instr :=
  if m = "NEW".toList then asmAI .new ops
  else if m = "FROMHEX".toList then asmA .fromhex ops
  else if m = "FROMHEXL".toList then asmAI .fromhexl ops
  else if m = "FROMJSON".toList then asmAI .fromjson ops
  else if m = "FROMARRAY".toList then asmA .fromarray ops
  else if m = "SIZE".toList then asmA .size ops
  else if m = "GET".toList then asmAI .get ops
  else if m = "SET".toList then asmAFI .set ops
  else if m = "CLR".toList then asmAI Instr.clr ops
  else if m = "TOGGLE".toList then asmAI .toggle ops
  else if m = "RESET".toList then asmA .reset ops
  else if m = "COPY".toList then asmAB .copy ops
  else if m = "EQUALS".toList then asmAB .equals ops
  else if m = "COUNT".toList then asmA .count ops
  else if m = "NOT".toList then asmA .vnot ops
  else if m = "AND".toList then asmAB .vand ops
  else if m = "OR".toList then asmAB .vor ops
  else if m = "XOR".toList then asmAB .vxor ops
  else if m = "TOARRAY".toList then asmA .toarray ops
  else if m = "TOINTARRAY".toList then asmA .tointarray ops
  else if m = "TOSTRING".toList then asmA .tostring ops
  else if m = "TOBINSTR".toList then asmA .tobinstr ops
  else if m = "TOHEX".toList then asmA .tohex ops
  else if m = "TOJSON".toList then asmA .tojson ops
  else if m = "ITSTART".toList then asmA .itstart ops
  else if m = "ITNEXT".toList then (if ops = [] then some .itnext else none)
  else none

/-- The register that `READ X` names (30_encoding.md R83, 20_memory.md R56). -/
def asmRegName (t : List Char) : Option RegName :=
  if t = "RES".toList then some .res
  else if t = "STATUS".toList then some .status
  else if t = "ILEN".toList then some .ilen
  else if t = "OLEN".toList then some .olen
  else if t = "ITPOS".toList then some .itpos
  else if t = "CFG_NV".toList then some .cfgNv
  else if t = "CFG_MAXLEN".toList then some .cfgMaxlen
  else if t = "CFG_IBUF_CAP".toList then some .cfgIbufCap
  else if t = "CFG_OBUF_CAP".toList then some .cfgObufCap
  else none

/-- Write bytes to IBUF from address k up. -/
def writeIbufOps (k : Nat) : List Byte → List HostOp
  | [] => []
  | b :: rest => .writeIbuf (BitVec.ofNat 32 k) b :: writeIbufOps (k + 1) rest

/-- `.ibuf` and `.ibufb`: the bytes to IBUF[0 ..], then ILEN (30_encoding.md R83). -/
def ibufOps (bs : List Byte) : List HostOp := writeIbufOps 0 bs ++ [.writeIlen (BitVec.ofNat 32 bs.length)]

/-- All parts of a list, or none. -/
def allSome {α : Type} : List (Option α) → Option (List α)
  | [] => some []
  | none :: _ => none
  | some x :: rest => (allSome rest).map (fun xs => x :: xs)

/-- The text between two double quotes, ASCII, with no quote inside (30_encoding.md R83). -/
def quotedBytes (t : List Char) : Option (List Byte) :=
  match t with
  | [] => none
  | q :: rest =>
    match rest.reverse with
    | [] => none
    | q' :: mid =>
      if q = quoteChar ∧ q' = quoteChar ∧ mid.all (fun c => decide (c.toNat < 128) && decide (c ≠ quoteChar)) then
        some (mid.reverse.map (fun c => BitVec.ofNat 8 c.toNat))
      else none

/-- One line of a host program as the host operations it stands for (30_encoding.md R81, R82, R83). DESIGN CHOICE: k of
`READ_OBUF k` is written as an immediate is, and a k above 2^32 - 1 is refused; a byte of `.ibufb` is a number of
either form below 256 (log 15). -/
def asmLine (line : List Char) : Option (List HostOp) :=
  let t := trimBlanks (stripComment false line)
  let m := t.takeWhile (fun c => !isBlank c)
  let rest := trimBlanks (t.dropWhile (fun c => !isBlank c))
  if t = [] then some []
  else if m = ".ibuf".toList then (quotedBytes rest).map ibufOps
  else if m = ".ibufb".toList then
    (allSome ((operandsOf rest).map (fun x => (asmBelow 256 x).map (BitVec.ofNat 8)))).map ibufOps
  else if m = "READ".toList then (asmRegName rest).map (fun x => [.read x])
  else if m = "READ_OBUF".toList then (asmImm rest).map (fun k => [.readObuf k])
  else if m = "RESET".toList ∧ rest = [] then some [.reset]
  else (asmCommand m (operandsOf rest)).map (fun i => [.issue (encode i)])

end Sys2Proof.Machine
end

