-- ==== Sys2Proof/Tests/Slice0.lean ====
section
/-! SUPPORT. The package's own tests: the smoke of WellFormed, decoding against words written out from the spec, one
step per command on small states with results from 95_test_vectors.md and the examples of the command rules, the
assembler, and a witness for the hypotheses of each statement. -/

namespace Sys2Proof.Tests

open Sys2Proof.Machine

/-! Well-formed terms: one ill-formed term per check (30_encoding.md R74, NV = 8) -/

theorem test_wf_refuses_va_of_form_A : (Instr.count 8).wf 8 = false := by decide

theorem test_wf_refuses_va_of_form_AI : (Instr.new 15 0).wf 8 = false := by decide

theorem test_wf_refuses_va_of_form_AFI : (Instr.set 9 0 true).wf 8 = false := by decide

theorem test_wf_refuses_va_of_form_AB : (Instr.vand 8 0).wf 8 = false := by decide

theorem test_wf_refuses_vb_of_form_AB : (Instr.vand 0 8).wf 8 = false := by decide

theorem test_wf_takes_the_last_register : (Instr.vand 7 7).wf 8 = true := by decide

/-! Decoding: words written out from the layout of 30_encoding.md R71 and R76, {IMM, RSV, F, VB, VA, OP} -/

theorem test_decode_construction :
    decode 8 0x0000004800000101#64 = .command (.new 1 72) ∧
      decode 8 0x0000000000000502#64 = .command (.fromhex 5) ∧
      decode 8 0x0000002000000103#64 = .command (.fromhexl 1 32) ∧
      decode 8 0x0000004800000204#64 = .command (.fromjson 2 72) ∧
      decode 8 0x0000000000000305#64 = .command (.fromarray 3) := by decide

theorem test_decode_bit_access :
    decode 8 0x0000000000000610#64 = .command (.size 6) ∧
      decode 8 0xFFFFFFFF00000711#64 = .command (.get 7 0xFFFFFFFF) ∧
      decode 8 0x0000001F00010012#64 = .command (.set 0 31 true) ∧
      decode 8 0x0000001F00000012#64 = .command (Instr.clr 0 31) ∧
      decode 8 0x8000000000000213#64 = .command (.toggle 2 0x80000000) ∧
      decode 8 0x0000000000000214#64 = .command (.reset 2) := by decide

theorem test_decode_whole_vector :
    decode 8 0x0000000000007120#64 = .command (.copy 1 7) ∧
      decode 8 0x0000000000001021#64 = .command (.equals 0 1) ∧
      decode 8 0x0000000000000522#64 = .command (.count 5) ∧
      decode 8 0x0000000000000123#64 = .command (.vnot 1) ∧
      decode 8 0x0000000000003224#64 = .command (.vand 2 3) ∧
      decode 8 0x0000000000003225#64 = .command (.vor 2 3) ∧
      decode 8 0x0000000000003226#64 = .command (.vxor 2 3) := by decide

theorem test_decode_serialisation :
    decode 8 0x0000000000000330#64 = .command (.toarray 3) ∧
      decode 8 0x0000000000000431#64 = .command (.tointarray 4) ∧
      decode 8 0x0000000000000132#64 = .command (.tostring 1) ∧
      decode 8 0x0000000000000133#64 = .command (.tobinstr 1) ∧
      decode 8 0x0000000000000134#64 = .command (.tohex 1) ∧
      decode 8 0x0000000000000535#64 = .command (.tojson 5) := by decide

theorem test_decode_iteration :
    decode 8 0x0000000000000540#64 = .command (.itstart 5) ∧
      decode 8 0x0000000000000041#64 = .command .itnext := by decide

/-- 95_test_vectors.md T1, T3, T4, T5, T6, T7, T2: unassigned opcodes. -/
theorem test_decode_unassigned :
    decode 8 0x0#64 = .illegal .unassignedOpcode ∧ decode 8 0x06#64 = .illegal .unassignedOpcode ∧
      decode 8 0x15#64 = .illegal .unassignedOpcode ∧ decode 8 0x27#64 = .illegal .unassignedOpcode ∧
      decode 8 0x36#64 = .illegal .unassignedOpcode ∧ decode 8 0x42#64 = .illegal .unassignedOpcode ∧
      decode 8 0xFFFFFFFFFFFFFFFF#64 = .illegal .unassignedOpcode := by decide

/-- 95_test_vectors.md T8 to T16: a one outside the form. -/
theorem test_decode_nonzero_outside_form :
    decode 8 0x0000000000020022#64 = .illegal .nonzeroOutsideForm ∧
      decode 8 0x0000000080000022#64 = .illegal .nonzeroOutsideForm ∧
      decode 8 0x0000000000001022#64 = .illegal .nonzeroOutsideForm ∧
      decode 8 0x0000000100000022#64 = .illegal .nonzeroOutsideForm ∧
      decode 8 0x0000000000010022#64 = .illegal .nonzeroOutsideForm ∧
      decode 8 0x0000000F00010011#64 = .illegal .nonzeroOutsideForm ∧
      decode 8 0x0000000000010020#64 = .illegal .nonzeroOutsideForm ∧
      decode 8 0x0000000000000141#64 = .illegal .nonzeroOutsideForm := by decide

/-- 95_test_vectors.md T17 to T19: a register the instance has not. -/
theorem test_decode_no_such_register :
    decode 8 0x0000000000000822#64 = .illegal .noSuchRegister ∧
      decode 8 0x0000000000008024#64 = .illegal .noSuchRegister ∧
      decode 8 0x0000000000000F01#64 = .illegal .noSuchRegister := by decide

/-- 30_encoding.md R81: the word of each operand form. -/
theorem test_encode_forms :
    encode .itnext = 0x0000000000000041#64 ∧ encode (.count 5) = 0x0000000000000522#64 ∧
      encode (.vand 2 3) = 0x0000000000003224#64 ∧ encode (.get 0 15) = 0x0000000F00000011#64 ∧
      encode (.set 0 31 true) = 0x0000001F00010012#64 := by decide

theorem test_decodeTableWord :
    decodeTableWord 64 0x0000001F00010012 = some (.set 0 31 true) ∧ decodeTableWord 64 0x06 = none ∧
      decodeTableWord 8 0x41 = some .itnext := by decide

/-! Small states -/

/-- A constructed register. -/
def vec (len : Nat) (words : List Word) : VReg := { valid := true, len := len, words := words }

/-- The test instance with four constructed registers, v0 of 72 bits, v1 and v2 of 32, v3 empty, and a text in
IBUF; v4 to v7 unconstructed. -/
def demo (text : List Byte) : State :=
  { State.reset with
    vregs := [vec 72 [0x1002#32, 0x1#32, 0x40#32], vec 32 [0x5#32], vec 32 [0x3#32], vec 0 []] ++
      List.replicate 4 VReg.reset
    ibuf := Memory.writeAll [] 0 text
    ilen := BitVec.ofNat 32 text.length }

/-- `demo` with an iterator on a register, at a position. -/
def demoIt (a : VNum) (pos : Word) : State :=
  { demo [] with status := statusItStarted a Status.reset, itpos := pos }

/-- A part of the state a command answers with. -/
def after {α : Type} (r : Result) (f : State → α) : Option α :=
  match r with
  | .next t => some (f t)
  | _ => none

/-! Construction (examples of 40_construction.md; 95_test_vectors.md 2.2) -/

theorem test_new : after (exec (.new 4 72) (demo [])) (fun t => t.vreg 4) = some (vec 72 [0, 0, 0]) := by decide

theorem test_new_beyond_maxlen : after (exec (.new 0 257) (demo [])) (fun t => t.status.word) = some 0x16#32 := by
  decide

/-- "0xDEADBEEF" -/
theorem test_fromhex :
    after (exec (.fromhex 0) (demo [0x30, 0x78, 0x44, 0x45, 0x41, 0x44, 0x42, 0x45, 0x45, 0x46])) (fun t => t.vreg 0)
      = some (vec 32 [0xDEADBEEF#32]) := by decide

/-- "123456789": nine digits, the first group to word 0 (T33). -/
theorem test_fromhex_nine_digits :
    after (exec (.fromhex 0) (demo [0x31, 0x32, 0x33, 0x34, 0x35, 0x36, 0x37, 0x38, 0x39])) (fun t => t.vreg 0)
      = some (vec 64 [0x1#32, 0x23456789#32]) := by decide

/-- "abc" in 64 bits: padded on the left to 16 digits (T48). -/
theorem test_fromhexl_left_pads :
    after (exec (.fromhexl 1 64) (demo [0x61, 0x62, 0x63])) (fun t => t.vreg 1)
      = some (vec 64 [0x0#32, 0xABC#32]) := by decide

/-- "1abc" in 12 bits (T46). -/
theorem test_fromhexl_bit_too_high :
    after (exec (.fromhexl 1 12) (demo [0x31, 0x61, 0x62, 0x63])) (fun t => (t.status.word, t.vreg 1))
      = some (0x13#32, vec 32 [0x5#32]) := by decide

/-- "[4098,1,64]" -/
theorem test_fromjson :
    after (exec (.fromjson 2 72) (demo [0x5B, 0x34, 0x30, 0x39, 0x38, 0x2C, 0x31, 0x2C, 0x36, 0x34, 0x5D]))
      (fun t => t.vreg 2) = some (vec 72 [0x1002#32, 0x1#32, 0x40#32]) := by decide

/-- "[01]" (T61). -/
theorem test_fromjson_leading_zero :
    after (exec (.fromjson 0 32) (demo [0x5B, 0x30, 0x31, 0x5D])) (fun t => t.status.word) = some 0x13#32 := by decide

theorem test_fromarray : after (exec (.fromarray 3) (demo [1, 0, 1])) (fun t => t.vreg 3) = some (vec 3 [0x5#32]) := by
  decide

/-- ASCII digits are no booleans (T72). -/
theorem test_fromarray_ascii :
    after (exec (.fromarray 3) (demo [0x31, 0x30])) (fun t => t.status.word) = some 0x13#32 := by decide

/-! Bit access (examples of 41_bit_access.md; 95_test_vectors.md 2.3) -/

theorem test_size : after (exec (.size 0) (demo [])) (fun t => t.res) = some 72#32 := by decide

theorem test_size_unconstructed : after (exec (.size 6) (demo [])) (fun t => t.status.word) = some 0x15#32 := by decide

theorem test_get : after (exec (.get 0 70) (demo [])) (fun t => t.res) = some 1#32 := by decide

theorem test_get_padding : after (exec (.get 0 72) (demo [])) (fun t => t.status.word) = some 0x11#32 := by decide

theorem test_set_second_word :
    after (exec (.set 0 33 true) (demo [])) (fun t => t.vreg 0) = some (vec 72 [0x1002#32, 0x3#32, 0x40#32]) := by decide

theorem test_set_clears :
    after (exec (Instr.clr 0 12) (demo [])) (fun t => t.vreg 0) = some (vec 72 [0x2#32, 0x1#32, 0x40#32]) := by decide

theorem test_toggle_last :
    after (exec (.toggle 0 71) (demo [])) (fun t => t.vreg 0) = some (vec 72 [0x1002#32, 0x1#32, 0xC0#32]) := by decide

theorem test_reset_command :
    after (exec (.reset 0) (demo [])) (fun t => t.vreg 0) = some (vec 72 [0, 0, 0]) := by decide

/-! Whole vectors (examples of 42_whole_vector.md; 95_test_vectors.md 2.4) -/

theorem test_copy : after (exec (.copy 6 1) (demo [])) (fun t => (t.vreg 6, t.vreg 1)) =
    some (vec 32 [0x5#32], vec 32 [0x5#32]) := by decide

theorem test_equals_differs : after (exec (.equals 1 2) (demo [])) (fun t => t.res) = some 0#32 := by decide

theorem test_equals_same_register : after (exec (.equals 0 0) (demo [])) (fun t => t.res) = some 1#32 := by decide

theorem test_count : after (exec (.count 0) (demo [])) (fun t => t.res) = some 4#32 := by decide

theorem test_not_masks :
    after (exec (.vnot 0) (demo [])) (fun t => t.vreg 0) = some (vec 72 [0xFFFFEFFD#32, 0xFFFFFFFE#32, 0xBF#32]) := by
  decide

theorem test_and : after (exec (.vand 1 2) (demo [])) (fun t => t.vreg 1) = some (vec 32 [0x1#32]) := by decide

theorem test_or : after (exec (.vor 1 2) (demo [])) (fun t => t.vreg 1) = some (vec 32 [0x7#32]) := by decide

theorem test_xor : after (exec (.vxor 1 2) (demo [])) (fun t => t.vreg 1) = some (vec 32 [0x6#32]) := by decide

theorem test_xor_same_register : after (exec (.vxor 1 1) (demo [])) (fun t => t.vreg 1) = some (vec 32 [0x0#32]) := by
  decide

theorem test_and_lengths : after (exec (.vand 0 1) (demo [])) (fun t => t.status.word) = some 0x12#32 := by decide

/-- 95_test_vectors.md section 3. -/
theorem test_popcount_tree :
    [0x00000000#32, 0x80000000#32, 0xFFFFFFFF#32, 0x7FFFFFFF#32, 0xDEADBEEF#32, 0x12345678#32, 0xFFFFEFFD#32].map
      popcountTree = [0#32, 1#32, 32#32, 31#32, 24#32, 13#32, 30#32] := by decide

theorem test_popcount32 :
    [0x00000000#32, 0x80000000#32, 0xFFFFFFFF#32, 0x7FFFFFFF#32, 0xDEADBEEF#32, 0x12345678#32, 0xFFFFEFFD#32].map
      popcount32 = [0, 1, 32, 31, 24, 13, 30] := by decide

/-! Serialisation (examples of 43_serialization.md; 95_test_vectors.md 2.5) -/

theorem test_toarray : after (exec (.toarray 0) { demo [] with vregs := [vec 3 [0x5#32]] }) State.output =
    some [0x01, 0x00, 0x01] := by decide

theorem test_tointarray : after (exec (.tointarray 0) (demo [])) State.output =
    some [1, 0, 0, 0, 12, 0, 0, 0, 32, 0, 0, 0, 70, 0, 0, 0] := by decide

/-- "11000" (T141). -/
theorem test_tostring : after (exec (.tostring 0) { demo [] with vregs := [vec 5 [0x3#32]] }) State.output =
    some [0x31, 0x31, 0x30, 0x30, 0x30] := by decide

/-- "00011" (T143). -/
theorem test_tobinstr : after (exec (.tobinstr 0) { demo [] with vregs := [vec 5 [0x3#32]] }) State.output =
    some [0x30, 0x30, 0x30, 0x31, 0x31] := by decide

/-- "deadbeef" (T145). -/
theorem test_tohex : after (exec (.tohex 0) { demo [] with vregs := [vec 32 [0xDEADBEEF#32]] }) State.output =
    some [0x64, 0x65, 0x61, 0x64, 0x62, 0x65, 0x65, 0x66] := by decide

/-- "[4098,1,64]" (T149). -/
theorem test_tojson : after (exec (.tojson 0) (demo [])) State.output =
    some [0x5B, 0x34, 0x30, 0x39, 0x38, 0x2C, 0x31, 0x2C, 0x36, 0x34, 0x5D] := by decide

/-- "[]" (T150). -/
theorem test_tojson_empty : after (exec (.tojson 3) (demo [])) State.output = some [0x5B, 0x5D] := by decide

/-! Iteration (44_iteration.md; 95_test_vectors.md 2.6) -/

theorem test_itstart : after (exec (.itstart 2) (demo [])) (fun t => (t.status.word, t.itpos)) =
    some (0x280#32, 0#32) := by decide

theorem test_itnext_pair : after (exec .itnext (demoIt 0 70)) (fun t => (t.res, t.itpos, t.status.word)) =
    some (70#32, 71#32, 0xA0#32) := by decide

theorem test_itnext_exhausted : after (exec .itnext (demoIt 0 72)) (fun t => (t.res, t.itpos, t.status.word)) =
    some (0#32, 72#32, 0xC0#32) := by decide

/-! Steps, host operations and the assembler -/

theorem test_step_idle : step (demo []) = .next (demo []) := rfl

theorem test_step_runs_the_fetch_word :
    after (step (State.reset.withFetchWord 64 0x0000004800000101)) (fun t => (t.vreg 1, t.hostOps)) =
      some (vec 72 [0, 0, 0], []) := by decide

/-- The all-zero word is illegal (T1). -/
theorem test_step_illegal_word :
    after (step (State.reset.withFetchWord 64 0)) (fun t => t.status.word) = some 0x14#32 := by decide

theorem test_host_write_ibuf :
    (hostWriteIbuf 127 0xAB (demo [])).ibuf.read 127 = 0xAB#8 ∧ hostWriteIbuf 128 0xAB (demo []) = demo [] ∧
      hostWriteIlen 129 (demo []) = demo [] := by decide

theorem test_host_read_status : (hostRead .status (demoIt 2 0)).hostReads = [.word 0x280#32] := by decide

theorem test_assembler_commands :
    asmLine "SET v0, 31, 1 ; a comment".toList = some [.issue 0x0000001F00010012#64] ∧
      asmLine "CLR v0, 0x1F".toList = some [.issue 0x0000001F00000012#64] ∧
      asmLine "RESET v2".toList = some [.issue 0x0000000000000214#64] ∧
      asmLine "AND v2, v3".toList = some [.issue 0x0000000000003224#64] := by decide

theorem test_assembler_refuses :
    asmLine "COUNT v16".toList = none ∧ asmLine "NEW v0, 4294967296".toList = none ∧
      asmLine "SET v0, 0, 2".toList = none := by decide

theorem test_assembler_directives :
    asmLine ".ibufb 1, 0".toList = some [.writeIbuf 0 1, .writeIbuf 1 0, .writeIlen 2] ∧
      asmLine "READ STATUS".toList = some [.read .status] ∧ asmLine "READ_OBUF 3".toList = some [.readObuf 3] ∧
      asmLine "RESET".toList = some [.reset] := by decide

/-- A ';' inside the quotes is text (log 15). -/
theorem test_assembler_quoted_text :
    asmLine ".ibuf \"0;\" ; text".toList = some [.writeIbuf 0 0x30, .writeIbuf 1 0x3B, .writeIlen 2] := by decide

/-! Witnesses: for each statement with hypotheses, a state and operands that meet them, clause by clause -/

/-- The test instance is legal (00_scope.md R6 to R9). -/
theorem legal_testEnvironment : Config.testEnvironment.Legal := by
  constructor <;> decide

/-- The registers of `demo` are sound. -/
theorem demo_vregs_sound (text : List Byte) :
    ∀ v ∈ (demo text).vregs, v.valid = true → v.Sound (demo text).cfg.maxlen := by
  have h : ∀ v ∈ (demo text).vregs, v.valid = true →
      v.words.length = wordCount v.len ∧ v.len ≤ 256 ∧ v.padBits = 0 := by
    have : (demo text).vregs = (demo []).vregs := rfl
    rw [this]; decide
  exact fun v hm hv => ⟨(h v hm hv).1, (h v hm hv).2.1, (h v hm hv).2.2⟩

/-- `demo` meets the invariant for every text that fits IBUF. -/
theorem demo_inv (text : List Byte) (h : text.length ≤ 128) : (demo text).Inv where
  cfg_legal := legal_testEnvironment
  vreg_count := rfl
  vregs_sound := demo_vregs_sound text
  err_legal := show (0#4).toNat ≤ 6 by decide
  itvreg_lt := show (0#4).toNat < 8 by decide
  itvreg_valid := fun h => absurd (show false = true from h) (by decide)
  itpos_le := show (0#32).toNat ≤ 256 by decide
  ilen_le := by
    show (BitVec.ofNat 32 text.length).toNat ≤ 128
    rw [BitVec.toNat_ofNat]
    exact Nat.le_trans (Nat.mod_le _ _) h
  olen_le := show (0#32).toNat ≤ 1024 by decide
  ibuf_within := within_writeAll [] 128 0 text (by omega) (within_nil 128)
  obuf_within := within_nil 1024

/-- `demoIt` meets the invariant on a constructed register, anywhere up to MAXLEN. -/
theorem demoIt_inv (a : VNum) (pos : Word) (ha : a.toNat < 8) (hv : ((demo []).vreg a).valid = true)
    (hp : pos.toNat ≤ 256) : (demoIt a pos).Inv where
  cfg_legal := legal_testEnvironment
  vreg_count := rfl
  vregs_sound := demo_vregs_sound []
  err_legal := show (0#4).toNat ≤ 6 by decide
  itvreg_lt := ha
  itvreg_valid := fun _ => hv
  itpos_le := hp
  ilen_le := show (0#32).toNat ≤ 128 by decide
  olen_le := show (0#32).toNat ≤ 1024 by decide
  ibuf_within := within_nil 128
  obuf_within := within_nil 1024

theorem demo_empty_inv : (demo []).Inv := demo_inv [] (by decide)

theorem witness_DecodeOfEncodeIsTheCommand : (Instr.vand 7 7).wf 8 = true ∧ (Instr.set 15 0xFFFFFFFF true).wf 16 = true := by
  decide

theorem witness_LegalWordIsTheOneEncoding : decode 8 0xFFFFFFFF00010712#64 = .command (.set 7 0xFFFFFFFF true) := by
  decide

/-- Every command word has the opcode in its low byte, so no command is encoded by the all-zero word. -/
theorem witness_OtherWordsRaiseIllegalCommand :
    ∀ i : Instr, i.wf (demo []).cfg.nv = true → encode i ≠ 0#64 := by
  intro i _ h
  have low : ∀ p, p < 8 → i.fields.op.getLsbD p = false := fun p hp => by
    have := congrArg (fun c : CommandWord => c.getLsbD p) h
    simp only [encode, Fields.word, BitVec.getLsbD_append, hp, if_true, BitVec.getLsbD_zero] at this
    exact this
  have hz : i.fields.op = 0#8 := BitVec.eq_of_getLsbD_eq fun p hp => by
    rw [low p hp]; exact BitVec.getLsbD_zero.symm
  cases i <;> simp [Instr.fields, Instr.opcode] at hz

theorem witness_StepPerformsTheNextOperation :
    (State.reset.withFetchWord 64 0x41).hostOps = .issue 0x41#64 :: [] ∧
      decode State.reset.cfg.nv 0x41#64 = .command .itnext ∧
      decode State.reset.cfg.nv 0x42#64 = .illegal .unassignedOpcode ∧
      decode State.reset.cfg.nv (encode (.vand 7 0)) = .command (.vand 7 0) := by decide

/-- Both sides of each bound of the host operations (20_memory.md R56). -/
theorem witness_HostOperationsActAsTabled :
    (demo []).Inv ∧ (127#32).toNat < (demo []).cfg.ibufCap ∧ (demo []).cfg.ibufCap ≤ (128#32).toNat ∧
      (128#32).toNat ≤ (demo []).cfg.ibufCap ∧ (demo []).cfg.ibufCap < (129#32).toNat ∧
      decode (demo []).cfg.nv 0x41#64 = .command .itnext ∧
      decode (demo []).cfg.nv 0x0#64 = .illegal .unassignedOpcode :=
  ⟨demo_empty_inv, by decide, by decide, by decide, by decide, by decide, by decide⟩

theorem witness_ReadsHaveNoSideEffects :
    (demo []).Inv ∧ (∃ x, HostOp.read .res = .read x) ∧ (∀ c, HostOp.writeIlen 3 ≠ .issue c) ∧
      HostOp.writeIlen 3 ≠ .reset :=
  ⟨demo_empty_inv, ⟨.res, rfl⟩, fun _ => by simp, by simp⟩

theorem witness_ResetMeetsTheInvariant : Config.testEnvironment.Legal := legal_testEnvironment

theorem witness_EveryStepKeepsTheInvariant :
    ∃ s t, State.Inv s ∧ step s = .next t := ⟨demo [], demo [], demo_empty_inv, rfl⟩

theorem witness_EveryStepAnswersANextState : (demoIt 0 72).Inv := demoIt_inv 0 72 (by decide) (by decide) (by decide)

/-- ERRSEEN and ITACTIVE set, a constructed register, and an operation other than RESET(). -/
theorem witness_OnlyResetClears :
    ∃ s t, step s = .next t ∧ s.hostOps.head? ≠ some .reset ∧ s.status.errseen = true ∧ s.status.itactive = true ∧
      (s.vreg 0).valid = true :=
  ⟨{ demoIt 0 0 with status := { statusItStarted 0 Status.reset with errseen := true } }, _, rfl, by decide, rfl, rfl, rfl⟩

theorem witness_ErrorsChangeOnlyStatus :
    ∃ t, exec (.size 6) (demo []) = .next t ∧ t.status.err ≠ 0 := ⟨_, rfl, by decide⟩

/-- A command of each code: 1, 2, 3, 5, 6, and 4 by the decoder. -/
theorem witness_ErrorCodesAndTheirCommands :
    after (exec (.get 0 72) (demo [])) (fun t => t.status.err) = some 1 ∧
      after (exec (.vxor 0 1) (demo [])) (fun t => t.status.err) = some 2 ∧
      after (exec (.fromhex 0) (demo [])) (fun t => t.status.err) = some 3 ∧
      after (perform (.issue 0) (demo [])) (fun t => t.status.err) = some 4 ∧
      after (exec (.copy 0 7) (demo [])) (fun t => t.status.err) = some 5 ∧
      after (exec (.new 0 257) (demo [])) (fun t => t.status.err) = some 6 := by decide

theorem witness_ErrAndErrseenAreWritten :
    (∃ t, perform (.issue 0x41#64) (demo []) = .next t) ∧
      ∃ t, (∀ c, HostOp.readIbuf 0 ≠ .issue c) ∧ HostOp.readIbuf 0 ≠ .reset ∧ perform (.readIbuf 0) (demo []) = .next t :=
  ⟨⟨_, rfl⟩, _, fun _ => by simp, by simp, rfl⟩

theorem witness_ErrorPrecedence :
    decode (demo []).cfg.nv 0x0000000000010823#64 = .illegal .nonzeroOutsideForm ∧ ((demo []).vreg 4).valid = false ∧
      (demo []).status.itactive = false ∧ (demo []).cfg.maxlen < (257#32).toNat ∧
      (demo []).ilen.toNat ≤ (demo []).cfg.ibufCap ∧ parseHex (demo []).input = none := by decide

/-- The smallest legal instance, MAXLEN 1, with the text in IBUF. -/
def tiny (text : List Byte) : State :=
  { State.resetOf { nv := 1, maxlen := 1, ibufCap := 2, obufCap := 12 } with
    ilen := BitVec.ofNat 32 text.length
    ibuf := Memory.writeAll [] 0 text }

theorem tiny_inv (text : List Byte) (h : text.length ≤ 2) : (tiny text).Inv where
  cfg_legal := by
    have h : ({ nv := 1, maxlen := 1, ibufCap := 2, obufCap := 12 } : Config).Legal := by constructor <;> decide
    exact h
  vreg_count := rfl
  vregs_sound := fun v hm hv => by
    have : v = VReg.reset := List.eq_of_mem_replicate (n := 1) hm
    rw [this] at hv; exact absurd hv (by decide)
  err_legal := show (0#4).toNat ≤ 6 by decide
  itvreg_lt := show (0#4).toNat < 1 by decide
  itvreg_valid := fun h => absurd (show false = true from h) (by decide)
  itpos_le := show (0#32).toNat ≤ 1 by decide
  ilen_le := by
    show (BitVec.ofNat 32 text.length).toNat ≤ 2
    rw [BitVec.toNat_ofNat]
    exact Nat.le_trans (Nat.mod_le _ _) h
  olen_le := show (0#32).toNat ≤ 12 by decide
  ibuf_within := within_writeAll [] 2 0 text (by omega) (within_nil 2)
  obuf_within := within_nil 12

/-- An instance whose MAXLEN is below the ILEN it can hold, so that FROMARRAY can exceed the capacity. -/
theorem witness_FromarrayCapacity : (tiny [1, 1]).Inv ∧ (tiny [1, 1]).cfg.maxlen < (tiny [1, 1]).ilen.toNat :=
  ⟨tiny_inv _ (by decide), by decide⟩

/-- L = 0, L = MAXLEN and L = MAXLEN + 1. -/
theorem witness_NewMakesAZeroVector :
    (demo []).Inv ∧ (7#4).toNat < (demo []).cfg.nv ∧ (0#32).toNat ≤ (demo []).cfg.maxlen ∧
      (256#32).toNat ≤ (demo []).cfg.maxlen ∧ (demo []).cfg.maxlen < (257#32).toNat :=
  ⟨demo_empty_inv, by decide, by decide, by decide, by decide⟩

/-- "0" parses, "0x" does not (T31, T35). -/
theorem witness_HexTextParse :
    parseHex [0x30] = some [0#4] ∧ parseHex [0x30, 0x78] = none ∧ parseHex [0x30, 0x58, 0x66] = some [15#4] := by decide

/-- "0" fits MAXLEN 256 and is beyond MAXLEN 1; the empty text does not parse. -/
theorem witness_FromhexConstructsFromText :
    (demo [0x30]).Inv ∧ parseHex (demo [0x30]).input = some [0#4] ∧
      32 * ((4 * 1 + 31) / 32) ≤ (demo [0x30]).cfg.maxlen ∧ (tiny [0x30]).Inv ∧
      parseHex (tiny [0x30]).input = some [0#4] ∧ (tiny [0x30]).cfg.maxlen < 32 * ((4 * 1 + 31) / 32) ∧
      parseHex (demo []).input = none :=
  ⟨demo_inv _ (by decide), by decide, by decide, tiny_inv _ (by decide), by decide, by decide, by decide⟩

/-- Capacity 257; "zz" does not parse; one digit for 0 bits; "1abc" and "0abc" for 12 bits (T46, T47). -/
theorem witness_FromhexlConstructsOrRefusesText :
    (demo []).cfg.maxlen < (257#32).toNat ∧ parseHex (demo [0x7A, 0x7A]).input = none ∧
      8 * ((0 + 31) / 32) < [1#4].length ∧ parseHex (demo [0x31]).input = some [1#4] ∧
      parseHex (demo [0x31, 0x61, 0x62, 0x63]).input = some [1#4, 10#4, 11#4, 12#4] ∧
      (placedWord 1 [1#4, 10#4, 11#4, 12#4] (12 / 32)).testBit (12 % 32) = true ∧
      (demo [0x30, 0x61, 0x62, 0x63]).Inv ∧
      parseHex (demo [0x30, 0x61, 0x62, 0x63]).input = some [0#4, 10#4, 11#4, 12#4] ∧
      ∀ i, 12 ≤ i → i < 32 * 1 → (placedWord 1 [0#4, 10#4, 11#4, 12#4] (i / 32)).testBit (i % 32) = false :=
  ⟨by decide, by decide, by decide, by decide, by decide, by decide, demo_inv _ (by decide), by decide, by decide⟩

/-- "[0]" is the text of the word 0. -/
theorem isJsonText_zero : IsJsonText [0x5B, 0x30, 0x5D] [0#32] :=
  ⟨[[0x30]], .cons ⟨by decide, by decide, by decide, by decide⟩ .nil, by decide⟩

/-- "[0]" for 32 bits fits; for 0 bits no word list fits it, since its one word is too many (T56). -/
theorem witness_FromjsonConstructsFromWords :
    (demo [0x5B, 0x30, 0x5D]).Inv ∧ IsJsonText (demo [0x5B, 0x30, 0x5D]).input [0#32] ∧ FitsLength 32 [0#32] ∧
      (demo []).cfg.maxlen < (257#32).toNat ∧ ¬∃ ws, IsJsonText (demo []).input ws ∧ FitsLength 0 ws := by
  refine ⟨demo_inv _ (by decide), ?_, ?_, by decide, ?_⟩
  · have : (demo [0x5B, 0x30, 0x5D]).input = [0x5B, 0x30, 0x5D] := by decide
    rw [this]; exact isJsonText_zero
  · refine ⟨by decide, fun i h1 h2 => ?_⟩
    have h2 : i < 32 := h2
    omega
  · rintro ⟨ws, ⟨nums, -, h⟩, -⟩
    have h0 : (demo []).input = [] := by decide
    rw [h0] at h
    cases h

/-- Booleans 1, 0, 1; a byte 2; ILEN = 0. -/
theorem witness_FromarrayConstructsFromBooleans :
    (demo [1, 0, 1]).Inv ∧ (demo [1, 0, 1]).ilen.toNat ≤ (demo [1, 0, 1]).cfg.maxlen ∧
      (∀ k, k < (demo [1, 0, 1]).ilen.toNat →
        (demo [1, 0, 1]).ibuf.read k = 0x00#8 ∨ (demo [1, 0, 1]).ibuf.read k = 0x01#8) ∧
      (demo [0, 2]).Inv ∧
      (∃ k, k < (demo [0, 2]).ilen.toNat ∧ (demo [0, 2]).ibuf.read k ≠ 0x00#8 ∧ (demo [0, 2]).ibuf.read k ≠ 0x01#8) ∧
      ∀ k, k < (demo []).ilen.toNat → (demo []).ibuf.read k = 0x00#8 ∨ (demo []).ibuf.read k = 0x01#8 :=
  ⟨demo_inv _ (by decide), by decide, by decide, demo_inv _ (by decide), ⟨1, by decide⟩, by decide⟩

/-- For SIZE, COUNT, NOT, RESET, ITSTART and every serialisation command: a register of each kind. -/
theorem witness_one_vector :
    (demo []).Inv ∧ ((demo []).vreg 0).valid = true ∧ ((demo []).vreg 3).valid = true ∧ ((demo []).vreg 3).len = 0 ∧
      ((demo []).vreg 4).valid = false :=
  ⟨demo_empty_inv, by decide, by decide, by decide, by decide⟩

/-- For GET, SET and TOGGLE: the last index of v0 and the first beyond it. -/
theorem witness_index :
    (demo []).Inv ∧ ((demo []).vreg 0).valid = true ∧ (71#32).toNat < ((demo []).vreg 0).len ∧
      ((demo []).vreg 0).len ≤ (72#32).toNat ∧ ((demo []).vreg 4).valid = false :=
  ⟨demo_empty_inv, by decide, by decide, by decide, by decide⟩

/-- For COPY, EQUALS, AND, OR and XOR: equal lengths, lengths that differ, one unconstructed. -/
theorem witness_two_vectors :
    (demo []).Inv ∧ ((demo []).vreg 1).valid = true ∧ ((demo []).vreg 2).valid = true ∧
      ((demo []).vreg 1).len = ((demo []).vreg 2).len ∧ ((demo []).vreg 0).len ≠ ((demo []).vreg 1).len ∧
      ((demo []).vreg 4).valid = false ∧ (4#4).toNat < (demo []).cfg.nv :=
  ⟨demo_empty_inv, by decide, by decide, by decide, by decide, by decide, by decide⟩

/-- For ITNEXT: no iterator, a pair at the last index, the end. -/
theorem witness_ItnextReportsTheNextPair :
    (demo []).status.itactive = false ∧ (demoIt 0 71).Inv ∧ (demoIt 0 71).status.itactive = true ∧
      (demoIt 0 71).itpos.toNat < ((demoIt 0 71).vreg (demoIt 0 71).status.itvreg).len ∧ (demoIt 0 72).Inv ∧
      ((demoIt 0 72).vreg (demoIt 0 72).status.itvreg).len ≤ (demoIt 0 72).itpos.toNat :=
  ⟨by decide, demoIt_inv 0 71 (by decide) (by decide) (by decide), by decide, by decide,
    demoIt_inv 0 72 (by decide) (by decide) (by decide), by decide⟩

/-- For the whole walk: the last pair of v0 and the first call beyond it, and the empty v3. -/
theorem witness_IteratorReportsEveryPairOnce :
    (demo []).Inv ∧ ((demo []).vreg 0).valid = true ∧ 71 < ((demo []).vreg 0).len ∧ ((demo []).vreg 0).len ≤ 72 ∧
      ((demo []).vreg 3).valid = true ∧ ((demo []).vreg 3).len ≤ 0 :=
  ⟨demo_empty_inv, by decide, by decide, by decide, by decide, by decide⟩

theorem witness_VectorWritersFrame :
    ∃ t, (Instr.vnot 0).dest = some 0 ∧ exec (.vnot 0) (demo []) = .next t := ⟨_, rfl, rfl⟩

theorem witness_ResultWritersFrame :
    ∃ t, (Instr.count 0).writesRes = true ∧ Instr.count 0 ≠ .itnext ∧ exec (.count 0) (demo []) = .next t ∧
      t.res = 4 := ⟨_, rfl, by decide, rfl, by decide⟩

/-- A serialisation that completes and one that raises. -/
theorem witness_SerialisersFrame :
    (demo []).Inv ∧ (Instr.tojson 3).serialises = true ∧
      after (exec (.tojson 3) (demo [])) (fun t => t.status.err) = some 0 ∧
      after (exec (.tojson 7) (demo [])) (fun t => t.status.err) = some 5 :=
  ⟨demo_empty_inv, rfl, by decide, by decide⟩

theorem witness_IteratorFrame :
    Instr.itnext.iterates = true ∧ after (exec .itnext (demoIt 0 1)) (fun t => t.res) = some 1 ∧
      after (exec .itnext (demo [])) (fun t => t.status.err) = some 5 := by decide

theorem witness_VectorRegistersHoldValues :
    ∃ t u, (5 : VNum) ≠ 1 ∧ exec (.copy 5 1) (demo []) = .next t ∧ exec (.vnot 5) t = .next u ∧
      (Instr.vnot 5).dest ≠ some 1 := ⟨_, _, by decide, rfl, rfl, by decide⟩

theorem witness_ResIsWrittenByFiveCommands :
    after (exec (.equals 0 0) (demo [])) (fun t => (t.status.err, t.res)) = some (0, 1) ∧
      after (exec (.get 0 72) (demo [])) (fun t => (t.status.err, t.res)) = some (1, 0) ∧
      (Instr.vnot 0).writesRes = false := by decide

/-- Two states that differ in the contents of the unconstructed v4 alone. -/
theorem witness_UnconstructedContentsAreNotObservable :
    ∃ s t s' : State, s ≠ t ∧ SameObservable s t ∧ step s = .next s' :=
  ⟨demo [], { demo [] with vregs := (demo []).vregs.set 4 { valid := false, len := 9, words := [0x7#32] } }, demo [],
    by decide, ⟨by decide, by decide, by decide, by decide⟩, rfl⟩

/-- "f": FROMHEX completes. -/
theorem witness_HexRoundTrip_text :
    (demo [0x66]).Inv ∧ (4#4).toNat < (demo [0x66]).cfg.nv ∧
      after (exec (.fromhex 4) (demo [0x66])) (fun t => t.status.err) = some 0 :=
  ⟨demo_inv _ (by decide), by decide, by decide⟩

/-- TOHEX of v1, and a state whose input is its output, "00000005". -/
theorem witness_HexRoundTrip_vector :
    after (exec (.tohex 1) (demo [])) (fun t => decide (t.output =
      (demo [0x30, 0x30, 0x30, 0x30, 0x30, 0x30, 0x30, 0x35]).input)) = some true ∧
      (demo [0x30, 0x30, 0x30, 0x30, 0x30, 0x30, 0x30, 0x35]).Inv ∧ 0 < ((demo []).vreg 1).len ∧
      ((demo []).vreg 3).len = 0 ∧
      after (exec (.tohex 3) (demo [])) (fun t => decide (t.output = (demo []).input)) = some true :=
  ⟨by decide, demo_inv _ (by decide), by decide, by decide, by decide⟩

/-- TOJSON of v1, and a state whose input is its output, "[5]". -/
theorem witness_JsonRoundTrip :
    after (exec (.tojson 1) (demo [])) (fun t => decide (t.output = (demo [0x5B, 0x35, 0x5D]).input)) = some true ∧
      (demo [0x5B, 0x35, 0x5D]).Inv := ⟨by decide, demo_inv _ (by decide)⟩

/-- TOARRAY of v3, and a state whose input is its output. -/
theorem witness_BooleanArrayRoundTrip :
    after (exec (.toarray 3) (demo [])) (fun t => decide (t.output = (demo []).input)) = some true ∧ (demo []).Inv :=
  ⟨by decide, demo_empty_inv⟩

/-- An index below the length of the constructed v0. -/
theorem witness_TwiceRestoresAndSetIsIdempotent :
    (demo []).Inv ∧ ((demo []).vreg 0).valid = true ∧ (71#32).toNat < ((demo []).vreg 0).len :=
  ⟨demo_empty_inv, by decide, by decide⟩

theorem witness_InclusionExclusionOfCounts :
    (demo []).Inv ∧ ((demo []).vreg 1).valid = true ∧ ((demo []).vreg 2).valid = true ∧
      ((demo []).vreg 1).len = ((demo []).vreg 2).len := ⟨demo_empty_inv, by decide, by decide, by decide⟩

end Sys2Proof.Tests
end

section
/-! SUPPORT. What each way a command can answer (`Effect`) keeps of the state, field by field, and the inversion
lemmas of the shared steps around a command: ISSUE, the other host operations, `step`. -/

namespace Sys2Proof.Machine

variable {i : Instr} {s t : State}

/-! The classes of commands -/

/-- A command with a destination register is in none of the other three classes. -/
theorem classes_of_dest {a : VNum} (hd : i.dest = some a) :
    i.writesRes = false ∧ i.serialises = false ∧ i.iterates = false := by
  cases i <;> simp [Instr.dest] at hd <;> exact ⟨rfl, rfl, rfl⟩

/-- SIZE, GET, EQUALS and COUNT have no destination register and are in neither of the other two classes. -/
theorem classes_of_writesRes (hr : i.writesRes = true) (hn : i ≠ .itnext) :
    i.dest = none ∧ i.serialises = false ∧ i.iterates = false := by
  cases i <;> simp [Instr.writesRes] at hr hn <;> exact ⟨rfl, rfl, rfl⟩

/-- ITSTART and ITNEXT have no destination register and write no output. -/
theorem classes_of_iterates (hi : i.iterates = true) : i.dest = none ∧ i.serialises = false := by
  cases i <;> simp [Instr.iterates] at hi <;> exact ⟨rfl, rfl⟩

/-! STATUS -/

theorem errCode_ne_zero (e : Err) : errCode e ≠ 0 := by cases e <;> decide

theorem errCode_le_six (e : Err) : (errCode e).toNat ≤ 6 := by cases e <;> decide

/-- An error sets ERRSEEN (10_state.md R31). -/
theorem raised_stickyErrseen (e : Err) (s : State) :
    StickyErrseen s { s with status := statusRaised e s.status } :=
  (Bool.or_eq_true_iff.2 (.inr (decide_eq_true (errCode_ne_zero e)))).symm

/-! The register file after a write -/

/-- V[b] after a write to V[a]: the written value where `b` is `a` and the register exists. -/
theorem vreg_setVreg (s : State) (a b : VNum) (v : VReg) :
    (s.setVreg a v).vreg b = if b = a ∧ a.toNat < s.vregs.length then v else s.vreg b := by
  by_cases hb : b = a
  · subst hb
    by_cases hl : b.toNat < s.vregs.length
    · simp [hl]
    · simp [State.vreg, State.setVreg, hl, List.set_eq_of_length_le (Nat.le_of_not_lt hl)]
  · simp [hb, vreg_setVreg_ne s a b v hb]

/-- Writing a constructed value leaves every constructed register constructed (10_state.md R21). -/
theorem valid_setVreg {a b : VNum} {v : VReg} (hv : v.valid = true) (hb : (s.vreg b).valid = true) :
    ((s.setVreg a v).vreg b).valid = true := by
  rw [vreg_setVreg]
  split
  · exact hv
  · exact hb

/-! What a command keeps -/

/-- No command writes a parameter, the input buffer, ILEN or the host's lists (10_state.md R28, R38, R39, R42). -/
theorem Effect.keeps_inputs (h : Effect i s t) :
    t.cfg = s.cfg ∧ t.ibuf = s.ibuf ∧ t.ilen = s.ilen ∧ t.hostOps = s.hostOps ∧ t.hostReads = s.hostReads := by
  cases h <;> exact ⟨rfl, rfl, rfl, rfl, rfl⟩

/-- A command that leaves an error code in ERR has changed STATUS alone (60_exceptions.md R211). -/
theorem Effect.raised_of_err_ne_zero (h : Effect i s t) (he : t.status.err ≠ 0) :
    ∃ e, t = { s with status := statusRaised e s.status } := by
  cases h with
  | raised e _ => exact ⟨e, rfl⟩
  | _ => exact absurd rfl he

/-- No command changes a register other than its destination (10_state.md R26). -/
theorem Effect.vreg_of_dest_ne (h : Effect i s t) {b : VNum} (hb : i.dest ≠ some b) : t.vreg b = s.vreg b := by
  cases h with
  | wroteVreg a v hd _ _ => exact vreg_setVreg_ne s a b v fun e => hb (e ▸ hd)
  | _ => rfl

/-- No command makes a constructed register unconstructed (10_state.md R21). -/
theorem Effect.valid_of_valid (h : Effect i s t) {b : VNum} (hb : (s.vreg b).valid = true) :
    (t.vreg b).valid = true := by
  cases h with
  | wroteVreg a v _ hv _ => exact valid_setVreg hv hb
  | _ => exact hb

/-- RES is written by its five commands alone, and by none that raises (10_state.md R27). -/
theorem Effect.res_eq (h : Effect i s t) (hr : i.writesRes = false ∨ t.status.err ≠ 0) : t.res = s.res := by
  rcases hr with hr | he
  · cases h with
    | wroteRes n hw _ => simp [hw] at hr
    | pair hi _ _ _ => simp [hi, Instr.writesRes] at hr
    | _ => rfl
  · obtain ⟨e, rfl⟩ := h.raised_of_err_ne_zero he
    rfl

/-- OBUF and OLEN are written by serialisation alone (10_state.md R40, R41). -/
theorem Effect.output_eq (h : Effect i s t) (hs : i.serialises = false) : t.obuf = s.obuf ∧ t.olen = s.olen := by
  cases h with
  | emitted out hw _ => simp [hw] at hs
  | _ => exact ⟨rfl, rfl⟩

/-- ITPOS and the iterator's fields are written by ITSTART and ITNEXT alone (10_state.md R32 to R35, R37). -/
theorem Effect.iterator_eq (h : Effect i s t) (hi : i.iterates = false) : t.itpos = s.itpos ∧ SameIterator s t := by
  cases h with
  | started a hw _ => simp [hw, Instr.iterates] at hi
  | pair hw _ _ _ => simp [hw, Instr.iterates] at hi
  | exhausted hw _ _ => simp [hw, Instr.iterates] at hi
  | _ => exact ⟨rfl, rfl, rfl, rfl, rfl⟩

/-- A command sets ERRSEEN where it raises and keeps it where it completes (10_state.md R31). -/
theorem Effect.stickyErrseen (h : Effect i s t) : StickyErrseen s t := by
  cases h with
  | raised e _ => exact raised_stickyErrseen e s
  | _ => simp [StickyErrseen]

/-- A command leaves a legal code in ERR (10_state.md R30). -/
theorem Effect.err_le_six (h : Effect i s t) : t.status.err.toNat ≤ 6 := by
  cases h with
  | raised e _ => exact errCode_le_six e
  | _ => simp

/-- No command clears ITACTIVE (10_state.md R34). -/
theorem Effect.itactive_of_itactive (h : Effect i s t) (ha : s.status.itactive = true) :
    t.status.itactive = true := by
  cases h with
  | started _ _ _ => rfl
  | _ => exact ha

/-! ISSUE, the other host operations, and a step -/

/-- An issued word is a command with its effect, or raises IllegalCommand (30_encoding.md R79). -/
theorem issue_effect {c : CommandWord} (h : issue c s = .next t) :
    (∃ i, Effect i s t) ∨ t = { s with status := statusRaised .illegalCommand s.status } := by
  unfold issue at h
  split at h
  · exact .inl ⟨_, exec_effect h⟩
  · exact .inr ((raise_next _ _ _).1 h)

/-- A host operation other than ISSUE and RESET() writes IBUF and ILEN, each by its own operation, and the list of
what the host has read; nothing else (20_memory.md R56, R57). -/
theorem perform_host {op : HostOp} (hi : ∀ c, op ≠ .issue c) (hr : op ≠ .reset) (h : perform op s = .next t) :
    ∃ ib il reads, t = { s with ibuf := ib, ilen := il, hostReads := reads } ∧
      ((∀ k b, op ≠ .writeIbuf k b) → ib = s.ibuf) ∧ ((∀ n, op ≠ .writeIlen n) → il = s.ilen) := by
  cases op with
  | issue c => exact absurd rfl (hi c)
  | reset => exact absurd rfl hr
  | writeIbuf k b =>
    simp only [perform, hostWriteIbuf] at h
    split at h <;> cases h
    · exact ⟨_, _, _, rfl, fun hne => absurd rfl (hne k b), fun _ => rfl⟩
    · exact ⟨_, _, _, rfl, fun _ => rfl, fun _ => rfl⟩
  | writeIlen n =>
    simp only [perform, hostWriteIlen] at h
    split at h <;> cases h
    · exact ⟨_, _, _, rfl, fun _ => rfl, fun hne => absurd rfl (hne n)⟩
    · exact ⟨_, _, _, rfl, fun _ => rfl, fun _ => rfl⟩
  | read x => cases h; exact ⟨_, _, _, rfl, fun _ => rfl, fun _ => rfl⟩
  | readIbuf k => cases h; exact ⟨_, _, _, rfl, fun _ => rfl, fun _ => rfl⟩
  | readObuf k => cases h; exact ⟨_, _, _, rfl, fun _ => rfl, fun _ => rfl⟩

/-- A step performs the host's next operation, or changes nothing where there is none (10_state.md R28; log 2). -/
theorem step_next : step s = .next t ↔
    (s.hostOps = [] ∧ t = s) ∨
      ∃ op rest, s.hostOps = op :: rest ∧ perform op { s with hostOps := rest } = .next t := by
  unfold step nextHostOp
  cases s.hostOps with
  | nil => simp [eq_comm]
  | cons op rest => simp

end Sys2Proof.Machine
end

section
/-! SUPPORT. The invariant of the state (`State.Inv`) under each way the state changes (10_state.md R23 to R25, R30,
R35, R37, R39, R41; 44_iteration.md R202). -/

namespace Sys2Proof.Machine

variable {s : State}

/-- What the host has still to do and has read is no part of the invariant. -/
theorem State.Inv.withHost (h : s.Inv) (ops : List HostOp) (reads : List HostValue) :
    State.Inv { s with hostOps := ops, hostReads := reads } := { h with }

/-- The power-on state with legal parameters meets the invariant (70_reset_and_hazards.md R240). -/
theorem resetOf_inv {c : Config} (hc : c.Legal) : (State.resetOf c).Inv where
  cfg_legal := hc
  vreg_count := by simp
  vregs_sound v hv hvalid := by
    rw [resetOf_vregs] at hv
    simp [List.eq_of_mem_replicate hv, VReg.reset] at hvalid
  err_legal := Nat.zero_le _
  itvreg_lt := hc.nv_pos
  itvreg_valid ha := by simp [Status.reset] at ha
  itpos_le := Nat.zero_le _
  ilen_le := Nat.zero_le _
  olen_le := Nat.zero_le _
  ibuf_within := within_nil _
  obuf_within := within_nil _

/-- An error keeps the invariant (60_exceptions.md R211). -/
theorem State.Inv.raised (h : s.Inv) (e : Err) : State.Inv { s with status := statusRaised e s.status } :=
  { h with err_legal := errCode_le_six e }

/-- A sound, constructed value written to a register keeps the invariant (10_state.md R23 to R25). -/
theorem State.Inv.wroteVreg (h : s.Inv) {a : VNum} {v : VReg} (hv : v.valid = true) (hs : v.Sound s.cfg.maxlen) :
    State.Inv { s.setVreg a v with status := statusCompleted s.status } :=
  { h with
    vreg_count := by simp [h.vreg_count]
    vregs_sound := fun x hx hvalid =>
      (List.mem_or_eq_of_mem_set hx).elim (fun hmem => h.vregs_sound x hmem hvalid) (fun heq => heq ▸ hs)
    err_legal := by simp
    itvreg_valid := fun ha => valid_setVreg hv (h.itvreg_valid ha) }

/-- A constructed register of the file is one of the NV registers (10_state.md R20). -/
theorem State.Inv.lt_nv_of_valid (h : s.Inv) {a : VNum} (hv : (s.vreg a).valid = true) : a.toNat < s.cfg.nv :=
  h.vreg_count ▸ (vreg_mem_of_valid s a hv).1

/-- The iterator's next position after a pair is at most MAXLEN (10_state.md R37). -/
theorem State.Inv.itpos_succ_le (h : s.Inv) {a : VNum} (hv : (s.vreg a).valid = true)
    (hl : s.itpos.toNat < (s.vreg a).len) : (s.itpos + 1).toNat ≤ s.cfg.maxlen := by
  have hlen := (sound_operand hv h.vregs_sound).len_le
  have hadd : (s.itpos + 1).toNat ≤ s.itpos.toNat + 1 := by
    rw [BitVec.toNat_add]
    exact Nat.mod_le _ _
  omega

/-- Every effect of a command keeps the invariant. -/
theorem Effect.inv {i : Instr} {t : State} (he : Effect i s t) (h : s.Inv) : t.Inv := by
  cases he with
  | raised e _ => exact h.raised e
  | wroteVreg a v _ hv hs => exact h.wroteVreg hv (hs h.vregs_sound)
  | wroteRes n _ _ => exact { h with err_legal := by simp }
  | emitted out _ hl =>
    exact { h with
      err_legal := by simp
      olen_le := (BitVec.toNat_ofNat _ _).trans_le ((Nat.mod_le _ _).trans hl)
      obuf_within := within_writeAll _ _ _ _ (by simpa using hl) h.obuf_within }
  | started a _ hv =>
    exact { h with
      err_legal := by simp
      itvreg_lt := h.lt_nv_of_valid hv
      itvreg_valid := fun _ => hv
      itpos_le := Nat.zero_le _ }
  | pair _ _ hv hl => exact { h with err_legal := by simp, itpos_le := h.itpos_succ_le hv hl }
  | exhausted _ _ _ => exact { h with err_legal := by simp }

/-- Every host operation keeps the invariant. -/
theorem perform_inv {op : HostOp} {t : State} (h : s.Inv) (hp : perform op s = .next t) : t.Inv := by
  cases op with
  | writeIbuf k b =>
    simp only [perform, hostWriteIbuf] at hp
    split at hp <;> cases hp
    next hk => exact { h with ibuf_within := within_write _ _ _ _ hk h.ibuf_within }
    next => exact h
  | writeIlen n =>
    simp only [perform, hostWriteIlen] at hp
    split at hp <;> cases hp
    next hn => exact { h with ilen_le := hn }
    next => exact h
  | issue c =>
    obtain ⟨i, he⟩ | rfl := issue_effect hp
    · exact he.inv h
    · exact h.raised _
  | read x => cases hp; exact h.withHost _ _
  | readIbuf k => cases hp; exact h.withHost _ _
  | readObuf k => cases hp; exact h.withHost _ _
  | reset => cases hp; exact (resetOf_inv h.cfg_legal).withHost _ _

/-- Settles O10: a step is a host operation, and each one keeps the invariant. -/
theorem everyStepKeepsTheInvariant : Obligations.EveryStepKeepsTheInvariant := by
  intro s t h hstep
  obtain ⟨-, rfl⟩ | ⟨op, rest, -, hp⟩ := step_next.1 hstep
  · exact h
  · exact perform_inv (h.withHost rest s.hostReads) hp

end Sys2Proof.Machine
end

section
/-! SUPPORT. Noninterference of the len and words of unconstructed registers (10_state.md R22): each shared operation
answers alike from two states that agree on the rest, so every command and every host operation does. -/

namespace Sys2Proof.Machine

/-- Where the first outcome is a next state, so is the second, and the two states agree on all that can be
observed. -/
def AnswersAlike (r r' : Result) : Prop := ∀ s', r = .next s' → Answers r' fun t' => SameObservable s' t'

variable {s t : State}

theorem answersAlike_next (h : SameObservable s t) : AnswersAlike (.next s) (.next t) := by
  intro s' hs
  cases hs
  exact ⟨t, rfl, h⟩

theorem SameObservable.refl (s : State) : SameObservable s s := ⟨rfl, rfl, fun _ => rfl, fun _ _ => rfl⟩

/-- Two such states differ in the register file alone. -/
theorem SameObservable.exists_vregs (h : SameObservable s t) : ∃ ws, t = { s with vregs := ws } :=
  ⟨t.vregs, congrArg (fun x : State => { x with vregs := t.vregs }) h.others.symm⟩

theorem SameObservable.cfg_eq (h : SameObservable s t) : t.cfg = s.cfg := by
  obtain ⟨ws, rfl⟩ := h.exists_vregs
  rfl

theorem SameObservable.hostOps_eq (h : SameObservable s t) : t.hostOps = s.hostOps := by
  obtain ⟨ws, rfl⟩ := h.exists_vregs
  rfl

/-- An update that neither reads nor writes the register file keeps the agreement. -/
theorem SameObservable.update (h : SameObservable s t) {f : State → State}
    (hf : ∀ (x : State) (ws : List VReg), f { x with vregs := ws } = { f x with vregs := ws }) :
    SameObservable (f s) (f t) := by
  have hvregs (x : State) : (f x).vregs = x.vregs := (congrArg State.vregs (hf x x.vregs) :)
  have hvreg (x : State) (a : VNum) : (f x).vreg a = x.vreg a := vreg_congr _ _ (hvregs x) a
  refine ⟨?_, by rw [hvregs, hvregs, h.count], fun a => ?_, fun a ha => ?_⟩
  · rw [← hf, ← hf, h.others]
  · rw [hvreg, hvreg, h.valid]
  · rw [hvreg] at ha ⊢
    rw [hvreg, h.constructed a ha]

/-- The same value written to the same register keeps the agreement. -/
theorem SameObservable.setVreg (h : SameObservable s t) (a : VNum) (v : VReg) :
    SameObservable (s.setVreg a v) (t.setVreg a v) := by
  refine ⟨h.others, by simp [h.count], fun b => ?_, fun b hb => ?_⟩
  · rw [vreg_setVreg, vreg_setVreg, h.count]
    split
    · rfl
    · exact h.valid b
  · rw [vreg_setVreg, h.count] at hb ⊢
    rw [vreg_setVreg]
    split at hb
    next hw => simp [hw]
    next hw => simpa [hw] using h.constructed b hb

/-! How a command ends -/

theorem complete_alike (h : SameObservable s t) : AnswersAlike (complete s) (complete t) :=
  answersAlike_next (h.update (f := fun x => { x with status := statusCompleted x.status }) fun _ _ => rfl)

theorem raise_alike (h : SameObservable s t) (e : Err) : AnswersAlike (raise e s) (raise e t) :=
  answersAlike_next (h.update (f := fun x => { x with status := statusRaised e x.status }) fun _ _ => rfl)

theorem completeRes_alike (h : SameObservable s t) (n : Nat) : AnswersAlike (completeRes n s) (completeRes n t) :=
  complete_alike (h.update (f := fun x => x.setRes (BitVec.ofNat 32 n)) fun _ _ => rfl)

theorem completeVreg_alike (h : SameObservable s t) (a : VNum) (v : VReg) :
    AnswersAlike (completeVreg a v s) (completeVreg a v t) :=
  complete_alike (h.setVreg a v)

theorem emit_alike (h : SameObservable s t) (out : List Byte) : AnswersAlike (emit out s) (emit out t) := by
  have hdone := complete_alike (h.update
    (f := fun x => { x with obuf := x.obuf.writeAll 0 out, olen := BitVec.ofNat 32 out.length }) fun _ _ => rfl)
  obtain ⟨ws, rfl⟩ := h.exists_vregs
  unfold emit
  split
  · exact hdone
  · intro s' hs
    cases hs

/-! The operand checks -/

/-- A vector operand: only a constructed register is handed on, and it is the same one in both states. -/
theorem withVector_alike (h : SameObservable s t) {a : VNum} {k k' : VReg → Result}
    (hk : ∀ v, AnswersAlike (k v) (k' v)) : AnswersAlike (withVector a s k) (withVector a t k') := by
  unfold withVector
  rw [← h.valid a]
  split
  next hv => exact h.constructed a hv ▸ hk _
  next => exact raise_alike h _

theorem withIndex_alike (h : SameObservable s t) {v : VReg} {imm : Word} {k k' : Nat → Result}
    (hk : ∀ n, AnswersAlike (k n) (k' n)) : AnswersAlike (withIndex v imm s k) (withIndex v imm t k') := by
  unfold withIndex
  split
  · exact hk _
  · exact raise_alike h _

theorem withCapacity_alike (h : SameObservable s t) {len : Nat} {k k' : Result} (hk : AnswersAlike k k') :
    AnswersAlike (withCapacity len s k) (withCapacity len t k') := by
  have hraise := raise_alike h .capacity
  obtain ⟨ws, rfl⟩ := h.exists_vregs
  unfold withCapacity
  split
  · exact hk
  · exact hraise

theorem withPair_alike (h : SameObservable s t) {va vb : VNum} {k k' : VReg → VReg → Result}
    (hk : ∀ a b, AnswersAlike (k a b) (k' a b)) : AnswersAlike (withPair va vb s k) (withPair va vb t k') :=
  withVector_alike h fun a => withVector_alike h fun b => by
    split
    · exact hk a b
    · exact raise_alike h _

theorem withInput_alike (h : SameObservable s t) {k k' : List Byte → Result}
    (hk : ∀ x, AnswersAlike (k x) (k' x)) : AnswersAlike (withInput s k) (withInput t k') := by
  obtain ⟨ws, rfl⟩ := h.exists_vregs
  unfold withInput
  split
  · exact hk _
  · intro s' hs
    cases hs

theorem orFormatError_alike (h : SameObservable s t) {α : Type} {x : Option α} {k k' : α → Result}
    (hk : ∀ y, AnswersAlike (k y) (k' y)) : AnswersAlike (orFormatError x s k) (orFormatError x t k') := by
  cases x with
  | none => exact raise_alike h _
  | some y => exact hk y

/-! Commands and host operations -/

/-- ITNEXT reads the iterator's register live, and only where it is constructed (44_iteration.md R201, R202). -/
theorem execItnext_alike (h : SameObservable s t) : AnswersAlike (execItnext s) (execItnext t) := by
  have hpair (v : VReg) := complete_alike (h.update
    (f := fun x =>
      { x with
        res := x.itpos
        status := statusItPair (v.bit x.itpos.toNat) x.status
        itpos := x.itpos + 1 }) fun _ _ => rfl)
  have hend := complete_alike (h.update
    (f := fun x => { x with status := statusItExhausted x.status }) fun _ _ => rfl)
  have hraise := raise_alike h .uninitialisedVector
  obtain ⟨ws, rfl⟩ := h.exists_vregs
  unfold execItnext
  split
  · refine withVector_alike h fun v => ?_
    split
    · exact hpair v
    · exact hend
  · exact hraise

/-- No command observes the contents of an unconstructed register. -/
theorem exec_alike (i : Instr) (h : SameObservable s t) : AnswersAlike (exec i s) (exec i t) := by
  cases i with dsimp only [exec]
  | new va imm => exact withCapacity_alike h (completeVreg_alike h _ _)
  | fromhex va =>
    exact withInput_alike h fun _ => orFormatError_alike h fun _ =>
      withCapacity_alike h (orFormatError_alike h fun _ => completeVreg_alike h _ _)
  | fromhexl va imm =>
    exact withCapacity_alike h (withInput_alike h fun _ => orFormatError_alike h fun _ =>
      orFormatError_alike h fun _ => completeVreg_alike h _ _)
  | fromjson va imm =>
    exact withCapacity_alike h (withInput_alike h fun _ => orFormatError_alike h fun _ =>
      orFormatError_alike h fun _ => completeVreg_alike h _ _)
  | fromarray va =>
    obtain ⟨ws, rfl⟩ := h.exists_vregs
    exact withCapacity_alike h (withInput_alike h fun _ => orFormatError_alike h fun _ => completeVreg_alike h _ _)
  | size va => exact withVector_alike h fun _ => completeRes_alike h _
  | get va imm => exact withVector_alike h fun _ => withIndex_alike h fun _ => completeRes_alike h _
  | set va imm f => exact withVector_alike h fun _ => withIndex_alike h fun _ => completeVreg_alike h _ _
  | toggle va imm => exact withVector_alike h fun _ => withIndex_alike h fun _ => completeVreg_alike h _ _
  | reset va => exact withVector_alike h fun _ => completeVreg_alike h _ _
  | copy va vb => exact withVector_alike h fun _ => completeVreg_alike h _ _
  | equals va vb => exact withVector_alike h fun _ => withVector_alike h fun _ => completeRes_alike h _
  | count va => exact withVector_alike h fun _ => completeRes_alike h _
  | vnot va => exact withVector_alike h fun _ => completeVreg_alike h _ _
  | vand va vb => exact withPair_alike h fun _ _ => completeVreg_alike h _ _
  | vor va vb => exact withPair_alike h fun _ _ => completeVreg_alike h _ _
  | vxor va vb => exact withPair_alike h fun _ _ => completeVreg_alike h _ _
  | toarray va => exact withVector_alike h fun _ => emit_alike h _
  | tointarray va => exact withVector_alike h fun _ => emit_alike h _
  | tostring va => exact withVector_alike h fun _ => emit_alike h _
  | tobinstr va => exact withVector_alike h fun _ => emit_alike h _
  | tohex va => exact withVector_alike h fun _ => emit_alike h _
  | tojson va => exact withVector_alike h fun _ => emit_alike h _
  | itstart va =>
    exact withVector_alike h fun _ => complete_alike (h.update
      (f := fun x => { x with status := statusItStarted va x.status, itpos := 0 }) fun _ _ => rfl)
  | itnext => exact execItnext_alike h

/-- No issued word does: the decoder looks at the word and at NV (30_encoding.md R79). -/
theorem issue_alike (c : CommandWord) (h : SameObservable s t) : AnswersAlike (issue c s) (issue c t) := by
  unfold issue
  rw [h.cfg_eq]
  split
  · exact exec_alike _ h
  · exact raise_alike h _

/-- No host operation does: a READ names no vector register, and RESET() overwrites them all. -/
theorem perform_alike (op : HostOp) (h : SameObservable s t) : AnswersAlike (perform op s) (perform op t) := by
  cases op with
  | issue c => exact issue_alike c h
  | writeIbuf k b =>
    exact answersAlike_next (h.update (f := hostWriteIbuf k b) fun x ws => by unfold hostWriteIbuf; split <;> rfl)
  | writeIlen n =>
    exact answersAlike_next (h.update (f := hostWriteIlen n) fun x ws => by unfold hostWriteIlen; split <;> rfl)
  | read x => exact answersAlike_next (h.update (f := hostRead x) fun _ _ => by cases x <;> rfl)
  | readIbuf k => exact answersAlike_next (h.update (f := hostReadIbuf k) fun _ _ => rfl)
  | readObuf k => exact answersAlike_next (h.update (f := hostReadObuf k) fun _ _ => rfl)
  | reset =>
    obtain ⟨ws, rfl⟩ := h.exists_vregs
    exact answersAlike_next (SameObservable.refl (hostReset s))

/-- Settles O51: the two states have the same next host operation, and it answers alike from both. -/
theorem unconstructedContentsAreNotObservable : Obligations.UnconstructedContentsAreNotObservable := by
  intro s t s' h hstep
  obtain ⟨hnil, rfl⟩ | ⟨op, rest, hcons, hp⟩ := step_next.1 hstep
  · exact ⟨t, step_next.2 (.inl ⟨h.hostOps_eq.trans hnil, rfl⟩), h⟩
  · obtain ⟨t', ht, hsame⟩ :=
      perform_alike op (h.update (f := fun x => { x with hostOps := rest }) fun _ _ => rfl) s' hp
    exact ⟨t', step_next.2 (.inr ⟨op, rest, h.hostOps_eq.trans hcons, ht⟩), hsame⟩

end Sys2Proof.Machine
end

section
/-! SUPPORT. The writers of each place of the state and the frames of the commands (10_state.md), from what an
`Effect` keeps; and the layout of STATUS. -/

namespace Sys2Proof.Machine

variable {i : Instr} {s t : State}

/-! Whole-machine rules -/

theorem StickyErrseen.errseen_of_errseen (h : StickyErrseen s t) (hs : s.status.errseen = true) :
    t.status.errseen = true := by
  rw [h, hs, Bool.true_or]

/-- Everything a host operation can do: an issued word has a command's effect or raises IllegalCommand, RESET() sets
the reset values, any other operation writes the input buffer, ILEN and the host's reads alone. -/
theorem perform_cases {op : HostOp} (h : perform op s = .next t) :
    (∃ i, Effect i s t) ∨ t = { s with status := statusRaised .illegalCommand s.status } ∨
      (∃ ib il reads, t = { s with ibuf := ib, ilen := il, hostReads := reads }) ∨
      op = .reset ∧ t = hostReset s := by
  by_cases hr : op = .reset
  · subst hr
    cases h
    exact .inr (.inr (.inr ⟨rfl, rfl⟩))
  · by_cases hi : ∃ c, op = .issue c
    · obtain ⟨c, rfl⟩ := hi
      exact (issue_effect h).imp_right .inl
    · obtain ⟨ib, il, reads, ht, -, -⟩ := perform_host (not_exists.1 hi) hr h
      exact .inr (.inr (.inl ⟨ib, il, reads, ht⟩))

/-- Settles O12, by the cases of the host operation the step performs. -/
theorem onlyResetClears : Obligations.OnlyResetClears := by
  intro s t h
  obtain ⟨-, rfl⟩ | ⟨op, rest, hops, hp⟩ := step_next.1 h
  · exact ⟨rfl, fun _ => ⟨id, id, fun _ => id⟩⟩
  · obtain ⟨i, he⟩ | rfl | ⟨ib, il, reads, rfl⟩ | ⟨rfl, rfl⟩ := perform_cases hp
    · exact ⟨he.keeps_inputs.1, fun _ =>
        ⟨he.stickyErrseen.errseen_of_errseen, he.itactive_of_itactive, fun _ => he.valid_of_valid⟩⟩
    · exact ⟨rfl, fun _ => ⟨fun _ => rfl, id, fun _ => id⟩⟩
    · exact ⟨rfl, fun _ => ⟨id, id, fun _ => id⟩⟩
    · exact ⟨rfl, fun hne => absurd (by rw [hops]; rfl) hne⟩

/-- Settles O15: an issued word has a command's effect or raises IllegalCommand, and both write ERR and ERRSEEN so. -/
theorem errAndErrseenAreWritten : Obligations.ErrAndErrseenAreWritten := by
  refine ⟨fun s t c h => ?_, fun s t op hi hr h => ?_, fun s => ⟨_, rfl, rfl, rfl⟩⟩
  · obtain ⟨i, he⟩ | rfl := issue_effect h
    · exact ⟨he.err_le_six, he.stickyErrseen⟩
    · exact ⟨errCode_le_six _, raised_stickyErrseen _ s⟩
  · obtain ⟨ib, il, reads, rfl, -, -⟩ := perform_host hi hr h
    rfl

/-! Frames -/

/-- A command other than a serialisation changes the vector registers, STATUS, RES and ITPOS at most. -/
theorem Effect.onlyVregsAndStatus (h : Effect i s t) (hs : i.serialises = false) :
    OnlyVregsAndStatus { s with res := t.res, itpos := t.itpos } t := by
  obtain ⟨hcfg, hibuf, hilen, hops, hreads⟩ := h.keeps_inputs
  obtain ⟨hobuf, holen⟩ := h.output_eq hs
  exact ⟨hcfg, rfl, rfl, hilen, holen, fun _ => hibuf ▸ rfl, fun _ => hobuf ▸ rfl, hops, hreads⟩

/-- A command without a destination leaves every vector register as it was. -/
theorem Effect.vreg_of_dest_none (h : Effect i s t) (hd : i.dest = none) (b : VNum) : t.vreg b = s.vreg b :=
  h.vreg_of_dest_ne (by simp [hd])

/-- Settles O43, from what an effect keeps, since a command with a destination is in no other class. -/
theorem vectorWritersFrame : Obligations.VectorWritersFrame := by
  intro i a s t hd h
  have he := exec_effect h
  obtain ⟨hres, hser, hiter⟩ := classes_of_dest hd
  obtain ⟨hitpos, hsame⟩ := he.iterator_eq hiter
  have honly := he.onlyVregsAndStatus hser
  rw [he.res_eq (.inl hres), hitpos] at honly
  refine ⟨fun b hb => he.vreg_of_dest_ne fun hd' => ?_, honly, hsame, he.stickyErrseen⟩
  exact hb (Option.some.inj (hd'.symm.trans hd))

/-- Settles O44, in the same way; an error keeps RES. -/
theorem resultWritersFrame : Obligations.ResultWritersFrame := by
  intro i s t hr hn h
  have he := exec_effect h
  obtain ⟨hdest, hser, hiter⟩ := classes_of_writesRes hr hn
  obtain ⟨hitpos, hsame⟩ := he.iterator_eq hiter
  have honly := he.onlyVregsAndStatus hser
  rw [hitpos] at honly
  exact ⟨he.vreg_of_dest_none hdest, honly, hsame, he.stickyErrseen, fun herr => he.res_eq (.inr herr)⟩

/-- An iteration command that changes RES is an ITNEXT that returns a pair (44_iteration.md R201). -/
theorem Effect.pair_of_res_ne (h : Effect i s t) (hi : i.iterates = true) (hne : t.res ≠ s.res) :
    i = .itnext ∧ t.status.err = 0 ∧ t.status.itdone = false := by
  cases h with
  | wroteRes n hr hn =>
    obtain ⟨-, -, hiter⟩ := classes_of_writesRes hr hn
    simp [hi] at hiter
  | pair hw _ _ _ => exact ⟨hw, rfl, rfl⟩
  | _ => exact absurd rfl hne

/-- ITNEXT keeps ITACTIVE and ITVREG (10_state.md R34, R35). -/
theorem Effect.iterator_of_itnext (h : Effect .itnext s t) :
    t.status.itactive = s.status.itactive ∧ t.status.itvreg = s.status.itvreg := by
  cases h with
  | started a hi _ => cases hi
  | _ => exact ⟨rfl, rfl⟩

/-- Settles O46: the two commands have no destination and write no output; the rest is by the cases of their effects. -/
theorem iteratorFrame : Obligations.IteratorFrame := by
  intro i s t hi h
  have he := exec_effect h
  obtain ⟨hdest, hser⟩ := classes_of_iterates hi
  refine ⟨he.vreg_of_dest_none hdest, he.onlyVregsAndStatus hser, he.stickyErrseen, he.pair_of_res_ne hi, ?_, ?_⟩
  · rintro rfl
    exact he.iterator_of_itnext
  · intro herr
    obtain ⟨e, rfl⟩ := he.raised_of_err_ne_zero herr
    exact ⟨rfl, rfl, rfl, rfl, rfl⟩

/-- Settles O47, by the class of the command; ISSUE and the host's other operations by their inversion lemmas. -/
theorem eachPlaceHasItsWriters : Obligations.EachPlaceHasItsWriters := by
  refine ⟨fun c s t h => ?_, fun i s t h hs => ?_, fun i s t h hi => (exec_effect h).iterator_eq hi,
    fun op s t hi hr h => ?_⟩
  · obtain ⟨i, he⟩ | rfl := issue_effect h
    · obtain ⟨-, hibuf, hilen, -, -⟩ := he.keeps_inputs
      exact ⟨hilen, fun _ => hibuf ▸ rfl⟩
    · exact ⟨rfl, fun _ => rfl⟩
  · obtain ⟨hobuf, holen⟩ := (exec_effect h).output_eq hs
    exact ⟨holen, fun _ => hobuf ▸ rfl⟩
  · obtain ⟨ib, il, reads, rfl, hib, hil⟩ := perform_host hi hr h
    exact ⟨rfl, fun _ => rfl, rfl, rfl, fun hne _ => hib hne ▸ rfl, hil⟩

/-- Settles O48: each of the two commands keeps every register but its own destination. -/
theorem vectorRegistersHoldValues : Obligations.VectorRegistersHoldValues := by
  refine ⟨fun i s t b h hb => (exec_effect h).vreg_of_dest_ne hb, fun s t u va vb i hne hcopy h => ?_⟩
  have hkept : t.vreg vb = s.vreg vb := (exec_effect hcopy).vreg_of_dest_ne fun hd => hne (Option.some.inj hd)
  have he := exec_effect h
  exact ⟨fun hb => (he.vreg_of_dest_ne hb).trans hkept, he.vreg_of_dest_ne⟩

/-! RES -/

/-- A truth value in RES is 0 or 1 (10_state.md R27). -/
theorem ofNat_toNat_eq_zero_or_one (b : Bool) : BitVec.ofNat 32 b.toNat = 0 ∨ BitVec.ofNat 32 b.toNat = 1 := by
  cases b
  · exact .inl rfl
  · exact .inr rfl

/-- EQUALS that completes writes a truth value (42_whole_vector.md R151). -/
theorem exec_equals_res {a b : VNum} (h : exec (.equals a b) s = .next t) (he : t.status.err = 0) :
    t.res = 0 ∨ t.res = 1 := by
  simp only [exec, execEquals, withVector_next, completeRes_next] at h
  obtain ⟨-, ⟨-, rfl⟩ | ⟨-, rfl⟩⟩ | ⟨-, rfl⟩ := h
  · exact ofNat_toNat_eq_zero_or_one _
  · exact absurd he (errCode_ne_zero .uninitialisedVector)
  · exact absurd he (errCode_ne_zero .uninitialisedVector)

/-- GET that completes writes a truth value (41_bit_access.md R132). -/
theorem exec_get_res {a : VNum} {n : Word} (h : exec (.get a n) s = .next t) (he : t.status.err = 0) :
    t.res = 0 ∨ t.res = 1 := by
  simp only [exec, execGet, withVector_next, withIndex_next, completeRes_next] at h
  obtain ⟨-, ⟨-, rfl⟩ | ⟨-, rfl⟩⟩ | ⟨-, rfl⟩ := h
  · exact ofNat_toNat_eq_zero_or_one _
  · exact absurd he (errCode_ne_zero .index)
  · exact absurd he (errCode_ne_zero .uninitialisedVector)

/-- Settles O49, by the class of the command; EQUALS and GET by their own meanings. -/
theorem resIsWrittenByFiveCommands : Obligations.ResIsWrittenByFiveCommands := by
  refine ⟨fun i s t h => (exec_effect h).res_eq, fun i s t h herr hi => ?_, fun s t op hi hr h => ?_,
    fun s => ⟨_, rfl, rfl⟩, fun s => ⟨_, rfl, rfl⟩⟩
  · obtain ⟨a, b, rfl⟩ | ⟨a, n, rfl⟩ := hi
    · exact exec_equals_res h herr
    · exact exec_get_res h herr
  · obtain ⟨ib, il, reads, rfl, -, -⟩ := perform_host hi hr h
    rfl

/-! The layout of STATUS -/

/-- STATUS bit by bit (10_state.md R29, R36). -/
theorem Status.word_getLsbD (st : Status) (k : Nat) :
    st.word.getLsbD k =
      if k < 4 then st.err.getLsbD k
      else if k = 4 then st.errseen
      else if k = 5 then st.itbit
      else if k = 6 then st.itdone
      else if k = 7 then st.itactive
      else st.itvreg.getLsbD (k - 8) := by
  simp only [Status.word, BitVec.getLsbD_append, BitVec.getLsbD_ofBool, BitVec.getLsbD_zero]
  rcases Nat.lt_or_ge k 8 with hlow | hhigh
  · interval_cases k <;> rfl
  · grind

/-- The same bits of STATUS and of a word make the same field. -/
theorem Status.extract_word {st : Status} {n lo : Nat} {w : BitVec n}
    (h : ∀ k, k < n → st.word.getLsbD (lo + k) = w.getLsbD k) : st.word.extractLsb' lo n = w :=
  BitVec.eq_of_getLsbD_eq fun k hk => by
    rw [BitVec.getLsbD_extractLsb', h k hk, decide_eq_true hk, Bool.true_and]

/-- Settles O50: each field is read off the bits of the word. -/
theorem statusWordLayout : Obligations.StatusWordLayout := by
  intro st
  refine ⟨Status.extract_word fun k hk => ?_, st.word_getLsbD 4, st.word_getLsbD 5, st.word_getLsbD 6,
    st.word_getLsbD 7, Status.extract_word fun k hk => ?_, Status.extract_word fun k hk => ?_, fun s hs => ?_⟩
  · rw [Status.word_getLsbD]
    simp [hk]
  · rw [Status.word_getLsbD]
    grind
  · rw [Status.word_getLsbD]
    grind
  · subst hs
    rfl

end Sys2Proof.Machine
end

section
/-! SUPPORT. Progress: from a state that meets the invariant every command, every host operation and so every step
answers a next state (20_memory.md R55, 43_serialization.md R180). Each shared operation goes on where what follows
it does; only reading the input and writing the output can fault, and the invariant bounds both. -/

namespace Sys2Proof.Machine

variable {s : State}

/-- The machine goes on: the outcome is a next state, no fault and no refusal. -/
def Continues (r : Result) : Prop := ∃ t, r = .next t

/-! How a command ends -/

theorem complete_continues (s : State) : Continues (complete s) := ⟨_, rfl⟩

theorem raise_continues (e : Err) (s : State) : Continues (raise e s) := ⟨_, rfl⟩

theorem completeRes_continues (n : Nat) (s : State) : Continues (completeRes n s) := complete_continues _

theorem completeVreg_continues (a : VNum) (v : VReg) (s : State) : Continues (completeVreg a v s) :=
  complete_continues _

/-- An output that fits OBUF is written (43_serialization.md R180). -/
theorem emit_continues {out : List Byte} (hfit : out.length ≤ s.cfg.obufCap) : Continues (emit out s) :=
  ⟨_, emit_next.2 ⟨hfit, rfl⟩⟩

/-! The operand checks -/

theorem withVector_continues {a : VNum} {k : VReg → Result}
    (hk : (s.vreg a).valid = true → Continues (k (s.vreg a))) : Continues (withVector a s k) := by
  unfold withVector
  split
  next hv => exact hk hv
  next => exact raise_continues _ _

theorem withIndex_continues {v : VReg} {imm : Word} {k : Nat → Result} (hk : ∀ n, Continues (k n)) :
    Continues (withIndex v imm s k) := by
  unfold withIndex
  split
  · exact hk _
  · exact raise_continues _ _

theorem withCapacity_continues {len : Nat} {k : Result} (hk : Continues k) : Continues (withCapacity len s k) := by
  unfold withCapacity
  split
  · exact hk
  · exact raise_continues _ _

theorem withPair_continues {va vb : VNum} {k : VReg → VReg → Result} (hk : ∀ a b, Continues (k a b)) :
    Continues (withPair va vb s k) :=
  withVector_continues fun _ => withVector_continues fun _ => by
    split
    · exact hk _ _
    · exact raise_continues _ _

/-- An ILEN within IBUF_CAP names bytes that exist (10_state.md R39). -/
theorem withInput_continues (hilen : s.ilen.toNat ≤ s.cfg.ibufCap) {k : List Byte → Result}
    (hk : ∀ t, Continues (k t)) : Continues (withInput s k) := by
  obtain ⟨t, ht⟩ := hk s.input
  exact ⟨t, withInput_next.2 ⟨hilen, ht⟩⟩

theorem orFormatError_continues {α : Type} {x : Option α} {k : α → Result} (hk : ∀ y, Continues (k y)) :
    Continues (orFormatError x s k) := by
  cases x with
  | none => exact raise_continues _ _
  | some y => exact hk y

/-! Commands, host operations, a step -/

theorem execItnext_continues (s : State) : Continues (execItnext s) := by
  unfold execItnext
  split
  · refine withVector_continues fun _ => ?_
    split
    · exact complete_continues _
    · exact complete_continues _
  · exact raise_continues _ _

/-- Every command terminates with a next state (20_memory.md R55). -/
theorem exec_continues (h : s.Inv) (i : Instr) : Continues (exec i s) := by
  have hfits {va : VNum} (hv : (s.vreg va).valid = true) :=
    outputs_fit s.cfg h.cfg_legal (s.vreg va) (sound_operand hv h.vregs_sound).len_le
  cases i with dsimp only [exec]
  | new va imm => exact withCapacity_continues (completeVreg_continues _ _ _)
  | fromhex va =>
    exact withInput_continues h.ilen_le fun _ => orFormatError_continues fun _ =>
      withCapacity_continues (orFormatError_continues fun _ => completeVreg_continues _ _ _)
  | fromhexl va imm =>
    exact withCapacity_continues (withInput_continues h.ilen_le fun _ => orFormatError_continues fun _ =>
      orFormatError_continues fun _ => completeVreg_continues _ _ _)
  | fromjson va imm =>
    exact withCapacity_continues (withInput_continues h.ilen_le fun _ => orFormatError_continues fun _ =>
      orFormatError_continues fun _ => completeVreg_continues _ _ _)
  | fromarray va =>
    exact withCapacity_continues (withInput_continues h.ilen_le fun _ =>
      orFormatError_continues fun _ => completeVreg_continues _ _ _)
  | size va => exact withVector_continues fun _ => completeRes_continues _ _
  | get va imm => exact withVector_continues fun _ => withIndex_continues fun _ => completeRes_continues _ _
  | set va imm f => exact withVector_continues fun _ => withIndex_continues fun _ => completeVreg_continues _ _ _
  | toggle va imm => exact withVector_continues fun _ => withIndex_continues fun _ => completeVreg_continues _ _ _
  | reset va => exact withVector_continues fun _ => completeVreg_continues _ _ _
  | copy va vb => exact withVector_continues fun _ => completeVreg_continues _ _ _
  | equals va vb => exact withVector_continues fun _ => withVector_continues fun _ => completeRes_continues _ _
  | count va => exact withVector_continues fun _ => completeRes_continues _ _
  | vnot va => exact withVector_continues fun _ => completeVreg_continues _ _ _
  | vand va vb => exact withPair_continues fun _ _ => completeVreg_continues _ _ _
  | vor va vb => exact withPair_continues fun _ _ => completeVreg_continues _ _ _
  | vxor va vb => exact withPair_continues fun _ _ => completeVreg_continues _ _ _
  | toarray va => exact withVector_continues fun hv => have ⟨hfit, _⟩ := hfits hv; emit_continues hfit
  | tointarray va => exact withVector_continues fun hv => have ⟨_, hfit, _⟩ := hfits hv; emit_continues hfit
  | tostring va => exact withVector_continues fun hv => have ⟨_, _, hfit, _⟩ := hfits hv; emit_continues hfit
  | tobinstr va => exact withVector_continues fun hv => have ⟨_, _, _, hfit, _⟩ := hfits hv; emit_continues hfit
  | tohex va => exact withVector_continues fun hv => have ⟨_, _, _, _, hfit, _⟩ := hfits hv; emit_continues hfit
  | tojson va => exact withVector_continues fun hv => have ⟨_, _, _, _, _, hfit⟩ := hfits hv; emit_continues hfit
  | itstart va => exact withVector_continues fun _ => complete_continues _
  | itnext => exact execItnext_continues s

/-- So does every issued word, legal or not (30_encoding.md R79). -/
theorem issue_continues (h : s.Inv) (c : CommandWord) : Continues (issue c s) := by
  unfold issue
  split
  · exact exec_continues h _
  · exact raise_continues _ _

theorem perform_continues (h : s.Inv) (op : HostOp) : Continues (perform op s) := by
  cases op with
  | issue c => exact issue_continues h c
  | _ => exact ⟨_, rfl⟩

/-- Settles O11: with no operation left a step is idle; the operation at the front of the list goes on. -/
theorem everyStepAnswersANextState : Obligations.EveryStepAnswersANextState := by
  intro s h
  cases hops : s.hostOps with
  | nil => exact ⟨s, step_next.2 (.inl ⟨hops, rfl⟩), trivial⟩
  | cons op rest =>
    obtain ⟨t, ht⟩ := perform_continues (h.withHost rest s.hostReads) op
    exact ⟨t, step_next.2 (.inr ⟨op, rest, hops, ht⟩), trivial⟩

end Sys2Proof.Machine
end

section
/-! SUPPORT. What each host operation does (20_memory.md R56, R57), and how a step performs the next one
(10_state.md R28). -/

namespace Sys2Proof.Machine

variable {s : State}

/-! WRITE_IBUF and WRITE_ILEN on the two sides of their bounds -/

theorem hostWriteIbuf_of_lt {k : Word} (b : Byte) (hk : k.toNat < s.cfg.ibufCap) :
    hostWriteIbuf k b s = { s with ibuf := s.ibuf.write k.toNat b } :=
  if_pos hk

theorem hostWriteIbuf_of_le {k : Word} (b : Byte) (hk : s.cfg.ibufCap ≤ k.toNat) : hostWriteIbuf k b s = s :=
  if_neg (Nat.not_lt.2 hk)

theorem hostWriteIlen_of_le {n : Word} (hn : n.toNat ≤ s.cfg.ibufCap) : hostWriteIlen n s = { s with ilen := n } :=
  if_pos hn

theorem hostWriteIlen_of_lt {n : Word} (hn : s.cfg.ibufCap < n.toNat) : hostWriteIlen n s = s :=
  if_neg (Nat.not_le.2 hn)

/-- The same byte written twice to a canonical buffer is the byte written once. -/
theorem write_write_same (m : Memory) (a : Nat) (b : Byte) (h : m.wf = true) :
    (m.write a b).write a b = m.write a b := by
  have hwf := wf_write m a b h
  refine memory_ext _ _ (wf_write _ a b hwf) hwf fun x => ?_
  rw [read_write _ a x b hwf, read_write m a x b h]
  split <;> rfl

theorem hostWriteIbuf_idem (k : Word) (b : Byte) (h : s.ibuf.wf = true) :
    hostWriteIbuf k b (hostWriteIbuf k b s) = hostWriteIbuf k b s := by
  rcases Nat.lt_or_ge k.toNat s.cfg.ibufCap with hk | hk
  · rw [hostWriteIbuf_of_lt b hk, hostWriteIbuf_of_lt b (by exact hk), write_write_same _ _ _ h]
  · rw [hostWriteIbuf_of_le b hk, hostWriteIbuf_of_le b hk]

theorem hostWriteIlen_idem (n : Word) (s : State) : hostWriteIlen n (hostWriteIlen n s) = hostWriteIlen n s := by
  rcases Nat.lt_or_ge s.cfg.ibufCap n.toNat with hn | hn
  · rw [hostWriteIlen_of_lt hn, hostWriteIlen_of_lt hn]
  · rw [hostWriteIlen_of_le hn, hostWriteIlen_of_le (by exact hn)]

/-! ISSUE, by what the word decodes to -/

theorem issue_of_command {c : CommandWord} {i : Instr} (hd : decode s.cfg.nv c = .command i) :
    issue c s = exec i s := by
  simp only [issue, hd]

theorem issue_of_illegal {c : CommandWord} {r : Reject} (hd : decode s.cfg.nv c = .illegal r) :
    issue c s = raise .illegalCommand s := by
  simp only [issue, hd]

/-! The reads -/

/-- READ, READ_IBUF or READ_OBUF. -/
def HostOp.IsRead (op : HostOp) : Prop := (∃ x, op = .read x) ∨ (∃ k, op = .readIbuf k) ∨ ∃ k, op = .readObuf k

/-- A read hands the host a value and does nothing else, and what the host has read before does not enter into the
value (20_memory.md R57). -/
theorem HostOp.IsRead.perform_eq {op : HostOp} (h : op.IsRead) :
    ∃ value : State → HostValue,
      (∀ s, perform op s = .next (hostReceive (value s) s)) ∧ ∀ x s, value (hostReceive x s) = value s := by
  obtain ⟨x, rfl⟩ | ⟨k, rfl⟩ | ⟨k, rfl⟩ := h
  · exact ⟨fun s => .word (regValue x s), fun _ => rfl, fun _ _ => by cases x <;> rfl⟩
  · exact ⟨fun s => .byte (ibufValue k s), fun _ => rfl, fun _ _ => rfl⟩
  · exact ⟨fun s => .byte (obufValue k s), fun _ => rfl, fun _ _ => rfl⟩

/-- A read leaves the BVALU as it was, and the same read again returns the same value. -/
theorem HostOp.IsRead.repeats {op : HostOp} (h : op.IsRead) (s : State) :
    Answers (perform op s) fun t => t.device = s.device ∧ ∃ v, t.hostReads = v :: s.hostReads ∧
      Answers (perform op t) fun u => u.device = s.device ∧ u.hostReads = v :: v :: s.hostReads := by
  obtain ⟨value, hperform, hvalue⟩ := h.perform_eq
  exact ⟨_, hperform s, rfl, value s, rfl, _, hperform _, rfl, by rw [hvalue]; rfl⟩

/-- A read done twice leaves the BVALU as doing it once. -/
theorem HostOp.IsRead.idem {op : HostOp} (h : op.IsRead) (s : State) :
    Answers (perform op s) fun t => Answers (perform op t) fun u => u.device = t.device := by
  obtain ⟨t, ht, hdevice, -, -, u, hu, hdevice', -⟩ := h.repeats s
  exact ⟨t, ht, u, hu, hdevice'.trans hdevice.symm⟩

/-- A legal parameter fits the 32-bit register that reports it (10_state.md R42). -/
theorem toNat_ofNat_of_legal {c : Config} (h : c.Legal) :
    (BitVec.ofNat 32 c.nv).toNat = c.nv ∧ (BitVec.ofNat 32 c.maxlen).toNat = c.maxlen ∧
      (BitVec.ofNat 32 c.ibufCap).toNat = c.ibufCap ∧ (BitVec.ofNat 32 c.obufCap).toNat = c.obufCap := by
  have hnv := h.nv_le
  have hmaxlen := h.maxlen_le
  have hibuf := h.ibuf_le
  have hobuf := h.obuf_le
  simp only [BitVec.toNat_ofNat]
  omega

/-! The table, idempotence, a step -/

/-- Settles O6, row by row of the table. -/
theorem hostOperationsActAsTabled : Obligations.HostOperationsActAsTabled := by
  intro s h
  refine ⟨fun k b hk => ?_, fun k b hk => congrArg _ (hostWriteIbuf_of_le b hk),
    fun n hn => congrArg _ (hostWriteIlen_of_le hn), fun n hn => congrArg _ (hostWriteIlen_of_lt hn),
    fun c i => issue_of_command, fun c r => issue_of_illegal, fun x => ?_, fun k => rfl, fun k => rfl, rfl⟩
  · have hread (x : Nat) := read_write s.ibuf k.toNat x b h.ibuf_within.canonical
    refine ⟨_, congrArg Host.Outcome.next (hostWriteIbuf_of_lt b hk), ?_, fun x hx => ?_, rfl⟩
    · rw [hread, if_pos rfl]
    · rw [hread, if_neg hx]
  · obtain ⟨hnv, hmaxlen, hibuf, hobuf⟩ := toNat_ofNat_of_legal h.cfg_legal
    refine ⟨_, rfl, rfl, regValue x s, rfl, ?_⟩
    cases x <;> simp [regValue, hnv, hmaxlen, hibuf, hobuf]

/-- Settles O7: a read only hands over its value, and a byte or an ILEN written twice is as written once. -/
theorem readsHaveNoSideEffects : Obligations.ReadsHaveNoSideEffects := by
  refine ⟨fun s op hop => HostOp.IsRead.repeats hop s, fun s op h hissue hreset => ?_⟩
  cases op with
  | writeIbuf k b =>
    exact ⟨_, rfl, _, rfl, congrArg State.device (hostWriteIbuf_idem k b h.ibuf_within.canonical)⟩
  | writeIlen n => exact ⟨_, rfl, _, rfl, congrArg State.device (hostWriteIlen_idem n s)⟩
  | issue c => exact absurd rfl (hissue c)
  | read x => exact HostOp.IsRead.idem (.inl ⟨x, rfl⟩) s
  | readIbuf k => exact HostOp.IsRead.idem (.inr (.inl ⟨k, rfl⟩)) s
  | readObuf k => exact HostOp.IsRead.idem (.inr (.inr ⟨k, rfl⟩)) s
  | reset => exact absurd rfl hreset

/-- A step performs the first operation of the list and takes it off (10_state.md R28; log 2). -/
theorem step_cons {op : HostOp} {rest : List HostOp} (h : s.hostOps = op :: rest) :
    step s = perform op { s with hostOps := rest } := by
  simp only [step, nextHostOp, h]

/-- The word that `withFetchWord` places is issued by the very next step (log 3). -/
theorem step_withFetchWord (s : State) (c : CommandWord) : step (s.withFetchWord 64 c.toNat) = issue c s := by
  have hword : BitVec.ofNat 64 (c.toNat % 2 ^ 64) = c := by
    rw [Nat.mod_eq_of_lt c.isLt, BitVec.ofNat_toNat, BitVec.setWidth_eq]
  rw [State.withFetchWord, hword]
  rfl

/-- Settles O5, by the equations of `step` and of `issue`. -/
theorem stepPerformsTheNextOperation : Obligations.StepPerformsTheNextOperation := by
  intro s op rest hops
  have hstep := step_cons hops
  refine ⟨hstep, fun c i hop hd => ?_, fun c r hop hd => ?_, fun i hd => ?_, rfl⟩
  · subst hop
    exact hstep.trans (issue_of_command hd)
  · subst hop
    exact hstep.trans (issue_of_illegal hd)
  · exact (step_withFetchWord s _).trans (issue_of_command hd)

end Sys2Proof.Machine
end

section
/-! SUPPORT. The decoder and the encoder are inverse (30_encoding.md R79): a command word is its fields and its
reserved bits (R71), the mask test says that the reserved bits and the fields outside the form are zero (R77), and the
opcode map rebuilds a command from such fields (R76). Last, the statements about the encoding. -/

namespace Sys2Proof

/-! The fields of a command word -/

/-- The command word of these fields, the reserved bits c[31:17] among them (30_encoding.md R71). -/
def layout (imm : Word) (rsv : BitVec 15) (f : Bool) (vb va : VNum) (op : BitVec 8) : CommandWord :=
  imm ++ rsv ++ BitVec.ofBool f ++ vb ++ va ++ op

theorem Fields.word_eq_layout (x : Fields) : x.word = layout x.imm 0 x.f x.vb x.va x.op := rfl

theorem setWidth_eq_layout (op : BitVec 8) : op.setWidth 64 = layout 0 0 false 0 0 op :=
  BitVec.setWidth_eq_append (by decide)

theorem bitVec_append_inj {m n : Nat} {a a' : BitVec m} {b b' : BitVec n} :
    a ++ b = a' ++ b' ↔ a = a' ∧ b = b' := by
  refine ⟨fun h => ⟨?_, ?_⟩, fun ⟨ha, hb⟩ => ha ▸ hb ▸ rfl⟩
  · simpa only [BitVec.extractLsb'_append_eq_left] using congrArg (BitVec.extractLsb' n m) h
  · simpa only [BitVec.extractLsb'_append_eq_right] using congrArg (BitVec.extractLsb' 0 n) h

theorem layout_inj {imm imm' : Word} {rsv rsv' : BitVec 15} {f f' : Bool} {vb vb' va va' : VNum}
    {op op' : BitVec 8} :
    layout imm rsv f vb va op = layout imm' rsv' f' vb' va' op' ↔
      imm = imm' ∧ rsv = rsv' ∧ f = f' ∧ vb = vb' ∧ va = va' ∧ op = op' := by
  unfold layout
  iterate 5 rw [bitVec_append_inj]
  simp only [BitVec.ofBool_eq_iff_eq, and_assoc]

theorem layout_and (imm imm' : Word) (rsv rsv' : BitVec 15) (f f' : Bool) (vb vb' va va' : VNum)
    (op op' : BitVec 8) :
    layout imm rsv f vb va op &&& layout imm' rsv' f' vb' va' op' =
      layout (imm &&& imm') (rsv &&& rsv') (f && f') (vb &&& vb') (va &&& va') (op &&& op') := by
  unfold layout
  iterate 5 rw [BitVec.and_append]
  rw [BitVec.ofBool_and_ofBool]

theorem ofBool_getLsbD (c : CommandWord) (k : Nat) : BitVec.ofBool (c.getLsbD k) = c.extractLsb' k 1 := by
  ext i hi
  obtain rfl : i = 0 := by omega
  simp

/-- Every command word is its fields and its reserved bits. -/
theorem layout_fieldsOf (c : CommandWord) :
    layout (fieldsOf c).imm (c.extractLsb' 17 15) (fieldsOf c).f (fieldsOf c).vb (fieldsOf c).va (fieldsOf c).op
      = c := by
  simp only [layout, fieldsOf, ofBool_getLsbD]
  iterate 5 rw [BitVec.extractLsb'_append_extractLsb'_eq_extractLsb']
  · exact BitVec.extractLsb'_eq_self
  all_goals rfl

@[simp] theorem fieldsOf_word (x : Fields) : fieldsOf x.word = x := by
  obtain ⟨himm, -, hf, hvb, hva, hop⟩ := layout_inj.mp ((layout_fieldsOf x.word).trans x.word_eq_layout)
  generalize fieldsOf x.word = y at *
  cases x
  cases y
  simp_all only

/-- The fields alone give the word back where the reserved bits are zero. -/
theorem word_fieldsOf_iff (c : CommandWord) : c = (fieldsOf c).word ↔ c.extractLsb' 17 15 = 0 := by
  conv_lhs => lhs; rw [← layout_fieldsOf c]
  simp only [Fields.word_eq_layout, layout_inj, and_true, true_and]

/-! The mask test -/

/-- The fields that carry no operand in the form are zero (30_encoding.md R72, R77). -/
def Form.Fits : Form → Fields → Prop
  | .N, x => x.imm = 0 ∧ x.f = false ∧ x.vb = 0 ∧ x.va = 0
  | .A, x => x.imm = 0 ∧ x.f = false ∧ x.vb = 0
  | .AB, x => x.imm = 0 ∧ x.f = false
  | .AI, x => x.f = false ∧ x.vb = 0
  | .AFI, x => x.vb = 0

/-- MASK(f) field by field: all ones but in the fields that carry an operand (30_encoding.md R72, R77). -/
theorem Form.mask_eq_layout (f : Form) : f.mask =
    layout (if f = .AI ∨ f = .AFI then 0 else BitVec.allOnes 32) (BitVec.allOnes 15) (f ≠ .AFI)
      (if f = .AB then 0 else BitVec.allOnes 4) (if f = .N then BitVec.allOnes 4 else 0) (BitVec.allOnes 8) := by
  cases f <;> rfl

theorem layout_and_mask (f : Form) (x : Fields) (rsv : BitVec 15) :
    layout x.imm rsv x.f x.vb x.va x.op &&& f.mask = x.op.setWidth 64 ↔ rsv = 0 ∧ f.Fits x := by
  rw [f.mask_eq_layout, setWidth_eq_layout, layout_and, layout_inj]
  cases f <;> simp [-BitVec.reduceAllOnes, Form.Fits, and_left_comm]

/-- What the mask test asks of a word: zero reserved bits and zero fields outside the form (30_encoding.md R77). -/
theorem mask_test_iff (f : Form) (c : CommandWord) :
    c &&& f.mask = (fieldsOf c).op.setWidth 64 ↔ c = (fieldsOf c).word ∧ f.Fits (fieldsOf c) := by
  rw [word_fieldsOf_iff, ← layout_and_mask, layout_fieldsOf]

/-! The opcode map and the commands -/

/-- The row of every command, of the 25 lemmas by constructor. -/
theorem Laws.OpMap.statement : ∀ i : Instr, Statement i
  | .new va imm => new va imm
  | .fromhex va => fromhex va
  | .fromhexl va imm => fromhexl va imm
  | .fromjson va imm => fromjson va imm
  | .fromarray va => fromarray va
  | .size va => size va
  | .get va imm => get va imm
  | .set va imm f => set va imm f
  | .toggle va imm => toggle va imm
  | .reset va => reset va
  | .copy va vb => copy va vb
  | .equals va vb => equals va vb
  | .count va => count va
  | .vnot va => vnot va
  | .vand va vb => vand va vb
  | .vor va vb => vor va vb
  | .vxor va vb => vxor va vb
  | .toarray va => toarray va
  | .tointarray va => tointarray va
  | .tostring va => tostring va
  | .tobinstr va => tobinstr va
  | .tohex va => tohex va
  | .tojson va => tojson va
  | .itstart va => itstart va
  | .itnext => itnext

theorem Instr.form_fits (i : Instr) : i.form.Fits i.fields := by
  cases i <;> simp [Instr.form, Instr.fields, Form.Fits]

/-- A row of the opcode map loses no field: the command it makes of fields that fit its form has those fields. -/
theorem OpRow.fields_build {row : OpRow} {x : Fields} (hrow : opMap x.op = some row) (hx : row.form.Fits x) :
    (row.build x).fields = x := by
  obtain ⟨op, va, vb, f, imm⟩ := x
  simp only [opMap] at hrow
  split at hrow <;> cases hrow <;> simp_all [Form.Fits, Instr.fields, Instr.opcode, BitVec.toNat_eq]

/-! The decoder -/

/-- The checks on the word alone pass exactly where OP has a row (30_encoding.md R78) and the word is made of fields
that fit the row's form (R77). -/
theorem decodeFields_eq_command {c : CommandWord} {i : Instr} : decodeFields c = .command i ↔
    ∃ row, opMap (fieldsOf c).op = some row ∧ (c = (fieldsOf c).word ∧ row.form.Fits (fieldsOf c)) ∧
      row.build (fieldsOf c) = i := by
  unfold decodeFields
  split
  next hnone => simp [hnone]
  next row hrow => simp [hrow, mask_test_iff, ite_eq_iff]

theorem decodeFields_iff {c : CommandWord} {i : Instr} : decodeFields c = .command i ↔ c = encode i := by
  rw [decodeFields_eq_command]
  constructor
  · rintro ⟨row, hrow, ⟨hword, hfits⟩, rfl⟩
    rwa [encode, OpRow.fields_build hrow hfits]
  · rintro rfl
    obtain ⟨hop, row, hrow, hform, hbuild⟩ := Laws.OpMap.statement i
    simp only [encode, fieldsOf_word, hop, true_and]
    exact ⟨row, hrow, hform ▸ i.form_fits, hbuild⟩

/-- The decoder answers a command exactly at that command's encoding, and only where the registers it names exist
(30_encoding.md R74, R79). -/
theorem decode_eq_command_iff {nv : Nat} {c : CommandWord} {i : Instr} :
    decode nv c = .command i ↔ c = encode i ∧ i.wf nv = true := by
  rw [← decodeFields_iff, decode]
  cases hd : decodeFields c with
  | illegal r => simp
  | command j =>
    simp only [ite_eq_iff, Decoded.command.injEq, reduceCtorEq, and_false, or_false]
    exact ⟨fun ⟨hj, h⟩ => ⟨h, h ▸ hj⟩, fun ⟨h, hi⟩ => ⟨h ▸ hi, h⟩⟩

end Sys2Proof

namespace Sys2Proof.Machine

/-- Settles O1: the decoder answers a command at its encoding. -/
theorem decodeOfEncodeIsTheCommand : Obligations.DecodeOfEncodeIsTheCommand :=
  fun _ _ hwf => decode_eq_command_iff.mpr ⟨rfl, hwf⟩

/-- Settles O2: the decoder answers a command at its encoding only, so two words it answers it at are equal. -/
theorem legalWordIsTheOneEncoding : Obligations.LegalWordIsTheOneEncoding := by
  intro nv c i hd
  obtain ⟨hc, hwf⟩ := decode_eq_command_iff.mp hd
  refine ⟨hc, hwf, fun c' hd' => ?_⟩
  obtain ⟨hc', -⟩ := decode_eq_command_iff.mp hd'
  rw [hc, hc']

/-- Settles O3: a word that decodes to a command encodes it, so this one is illegal and ISSUE raises. -/
theorem otherWordsRaiseIllegalCommand : Obligations.OtherWordsRaiseIllegalCommand := by
  intro s c hnone
  cases hd : decode s.cfg.nv c with
  | command i =>
    obtain ⟨hc, hwf⟩ := decode_eq_command_iff.mp hd
    exact absurd hc.symm (hnone i hwf)
  | illegal r => exact issue_of_illegal hd

end Sys2Proof.Machine
end

section
/-! SUPPORT. How a command answers, told from what it runs: a shared check that passes leaves what follows it, one that
fails leaves `raise`; `raise` is the statement `Raises` (60_exceptions.md R211) and a write of a register that exists is
the statement `IntoVector` (R212). Then the two statements about errors and example words, and NEW. -/

namespace Sys2Proof.Machine

variable {s : State}

/-! The shared checks -/

theorem withCapacity_of_le {len : Nat} {k : Result} (h : len ≤ s.cfg.maxlen) : withCapacity len s k = k := if_pos h

theorem withCapacity_of_lt {len : Nat} {k : Result} (h : s.cfg.maxlen < len) :
    withCapacity len s k = raise .capacity s := if_neg (Nat.not_le.2 h)

/-- The input exists in every state a run reaches (10_state.md R39). -/
theorem State.Inv.withInput_eq (h : s.Inv) (k : List Byte → Result) : withInput s k = k s.input := if_pos h.ilen_le

@[simp] theorem orFormatError_some {α : Type} (x : α) (s : State) (k : α → Result) :
    orFormatError (some x) s k = k x := rfl

@[simp] theorem orFormatError_none {α : Type} (s : State) (k : α → Result) :
    orFormatError none s k = raise .format s := rfl

/-! How a command ends -/

theorem raises_of_exec_eq {i : Instr} {e : Err} (h : exec i s = raise e s) : Raises (errCode e) i s := h

theorem Answers.imp {r : Result} {P Q : State → Prop} (h : Answers r P) (hPQ : ∀ t, P t → Q t) : Answers r Q :=
  Exists.imp (fun t ht => ht.imp_right (hPQ t)) h

/-- A command that writes a register below NV and completes: the register holds the value, and the rest is framed
(60_exceptions.md R212). -/
theorem State.Inv.answers_completeVreg (h : s.Inv) {va : VNum} (hva : va.toNat < s.cfg.nv) (v : VReg) :
    Answers (completeVreg va v s) fun t => t.vreg va = v ∧ IntoVector va s t :=
  ⟨_, rfl, vreg_setVreg_same s va v (h.vreg_count ▸ hva), fun b hb => vreg_setVreg_ne s va b v hb, rfl⟩

/-! Command words of the forms A and AI -/

/-- A command word without F and VB (30_encoding.md R71). -/
theorem layout_va_imm (imm : Word) (va : VNum) (op : BitVec 8) :
    layout imm 0 false 0 va op = imm ++ 0#20 ++ va ++ op := by
  have hzero : imm ++ 0#15 ++ BitVec.ofBool false ++ 0#4 = imm ++ (0#15 ++ BitVec.ofBool false ++ 0#4) := by
    simp only [BitVec.append_assoc, BitVec.cast_eq]
  exact congrArg (fun x : BitVec 52 => x ++ va ++ op) hzero

/-- A command word of VA alone (30_encoding.md R71). -/
theorem layout_va (va : VNum) (op : BitVec 8) : layout 0 0 false 0 va op = 0#52 ++ va ++ op := by
  rw [layout_va_imm]
  rfl

/-! Errors, and the spec's example words -/

/-- Settles O13: an effect that leaves an error code is `raised`, and an illegal word raises as well. -/
theorem errorsChangeOnlyStatus : Obligations.ErrorsChangeOnlyStatus := by
  refine ⟨fun i s t h herr => ?_, fun c s t h herr => ?_⟩
  · obtain ⟨e, rfl⟩ := (exec_effect h).raised_of_err_ne_zero herr
    rfl
  · obtain ⟨i, he⟩ | rfl := issue_effect h
    · obtain ⟨e, rfl⟩ := he.raised_of_err_ne_zero herr
      rfl
    · rfl

/-- Settles O4: each word is the encoding of its command, which names registers below 8. -/
theorem exampleWordsDecode : Obligations.ExampleWordsDecode := by
  refine ⟨?_, ?_, ?_, ?_, ?_, ?_⟩ <;> exact decode_eq_command_iff.mpr ⟨rfl, rfl⟩

/-! NEW -/

/-- Settles O17: NEW writes zeros where the length passes the capacity check, and raises where it does not. -/
theorem newMakesAZeroVector : Obligations.NewMakesAZeroVector := by
  refine fun va imm => ⟨layout_va_imm imm va 0x01, fun s => ⟨fun hlt => ?_, fun h hva hle => ?_⟩⟩
  · exact raises_of_exec_eq (i := .new va imm) (withCapacity_of_lt hlt)
  · have hexec : exec (.new va imm) s = completeVreg va _ s := withCapacity_of_le hle
    rw [hexec]
    exact h.answers_completeVreg hva _

end Sys2Proof.Machine
end

section
/-! SUPPORT. The hex text (40_construction.md R101): each function of the parse accepts exactly what the rule says. -/

namespace Sys2Proof.Machine

theorem hexDigit_eq_some_iff {ch : Byte} {d : BitVec 4} : hexDigit ch = some d ↔ IsHexDigit ch d := by
  have hofNat (n : Nat) (hn : n < 16) : BitVec.ofNat 4 n = d ↔ d.toNat = n := by
    rw [← BitVec.toNat_inj, BitVec.toNat_ofNat, Nat.mod_eq_of_lt hn, eq_comm]
  simp only [hexDigit, IsHexDigit, chZero, chLowerA, chUpperA, BitVec.toNat_ofNat, Nat.reducePow, Nat.reduceMod]
  split
  next => rw [Option.some.injEq, hofNat _ (by omega)]; omega
  next =>
    split
    next => rw [Option.some.injEq, hofNat _ (by omega)]; omega
    next =>
      split
      next => rw [Option.some.injEq, hofNat _ (by omega)]; omega
      next => simp only [reduceCtorEq, false_iff]; omega

theorem hexDigits_eq_some_iff {u : List Byte} {d : List (BitVec 4)} :
    hexDigits u = some d ↔ List.Forall₂ IsHexDigit u d := by
  induction u generalizing d with
  | nil => simp [hexDigits, eq_comm]
  | cons ch rest ih =>
    simp only [hexDigits, List.forall₂_cons_left_iff, ← ih, ← hexDigit_eq_some_iff]
    cases hexDigit ch <;> cases hexDigits rest <;> simp [eq_comm]

theorem stripHexPrefix_of_prefixed {t u : List Byte} (h : HexPrefixed t u) : stripHexPrefix t = u := by
  rcases h with rfl | rfl <;> rfl

theorem stripHexPrefix_of_not_prefixed {t : List Byte} (h : ¬∃ u, HexPrefixed t u) : stripHexPrefix t = t := by
  unfold stripHexPrefix
  split
  next c0 c1 rest =>
    refine if_neg ?_
    rintro ⟨rfl, rfl | rfl⟩
    · exact h ⟨rest, .inl rfl⟩
    · exact h ⟨rest, .inr rfl⟩
  next => rfl

/-- What is stripped is one "0x" or "0X" at position 0, if there is one (40_construction.md R101). -/
theorem stripHexPrefix_eq_iff {t u : List Byte} :
    stripHexPrefix t = u ↔ HexPrefixed t u ∨ (¬∃ u', HexPrefixed t u') ∧ u = t := by
  by_cases hpre : ∃ u', HexPrefixed t u'
  · obtain ⟨u', hu'⟩ := hpre
    refine ⟨fun hu => .inl ?_, ?_⟩
    · rwa [← hu, stripHexPrefix_of_prefixed hu']
    · rintro (hu | ⟨hno, -⟩)
      · exact stripHexPrefix_of_prefixed hu
      · exact absurd ⟨u', hu'⟩ hno
  · rw [stripHexPrefix_of_not_prefixed hpre]
    refine ⟨fun hu => .inr ⟨hpre, hu.symm⟩, ?_⟩
    rintro (hu | ⟨-, rfl⟩)
    · exact absurd ⟨u, hu⟩ hpre
    · rfl

theorem parseHex_eq_some_iff {t : List Byte} {d : List (BitVec 4)} :
    parseHex t = some d ↔ d ≠ [] ∧ List.Forall₂ IsHexDigit (stripHexPrefix t) d := by
  rw [← hexDigits_eq_some_iff, parseHex]
  split
  next hempty => simp [List.length_eq_zero_iff.mp hempty, hexDigits, eq_comm]
  next hlen =>
    refine ⟨fun hd => ⟨?_, hd⟩, And.right⟩
    rintro rfl
    exact hlen (hexDigits_eq_some_iff.mp hd).length_eq

/-- Settles O18: the digits of the stripped text, where there is at least one. -/
theorem hexTextParse : Obligations.HexTextParse := by
  intro t d
  rw [parseHex_eq_some_iff]
  simp only [← stripHexPrefix_eq_iff, exists_eq_left']

end Sys2Proof.Machine
end

section
/-! SUPPORT. The placement of digits in words (40_construction.md R102): a group of eight digits is the sum the rule
writes, and `placeHex` answers exactly where the digits fit the words and the words fit the length. -/

namespace Sys2Proof.Machine

/-! Words that fit a length -/

theorem padClear_iff_padBits {len : Nat} {ws : List Word} :
    padClear len ws = true ↔ (VReg.make len ws).padBits = 0 := by
  simp only [padClear, VReg.padBits, VReg.make, VReg.word, Bool.or_eq_true, decide_eq_true_eq]
  by_cases hzero : wordCount len = 0
  · simp [hzero]
  · simp [hzero]

/-- The test of the final word's padding is the rule's clause about every index (40_construction.md R102, R106). -/
theorem fitsLength_iff {len : Nat} {ws : List Word} :
    FitsLength len ws ↔ ws.length = wordCount len ∧ padClear len ws = true := by
  refine and_congr_right fun hw => ?_
  rw [padClear_iff_padBits, padding_iff _ hw]
  refine forall₂_congr fun i _ => ⟨fun hbit => ?_, fun hbit _ => hbit⟩
  by_cases hi : i < 32 * ws.length
  · exact hbit hi
  · have hout : ws.length ≤ wordOf i := by simp only [wordOf]; omega
    simp [bit_def, VReg.make, List.getElem?_eq_none hout]

theorem placeJson_eq_some_iff {ws : List Word} {len : Nat} {v : VReg} :
    placeJson ws len = some v ↔ FitsLength len ws ∧ v = VReg.make len ws := by
  rw [placeJson, fitsLength_iff, Option.ite_none_right_eq_some, Option.some.injEq, eq_comm (a := v)]

/-! Groups of digits -/

/-- The words of placeHex(d, L) as the sums of 40_construction.md R102, for w = W(L). -/
def placedWords (w : Nat) (d : List (BitVec 4)) : List Word :=
  (List.range w).map fun j => BitVec.ofNat 32 (placedWord w d j)

@[simp] theorem length_placedWords (w : Nat) (d : List (BitVec 4)) : (placedWords w d).length = w := by
  simp [placedWords]

/-- A digit after a number: the number moves up one place (40_construction.md R102). -/
theorem shiftLeft_or_digit (n : Nat) (d : BitVec 4) :
    (BitVec.ofNat 32 n <<< 4) ||| d.setWidth 32 = BitVec.ofNat 32 (16 * n + d.toNat) := by
  have hdisj : (BitVec.ofNat 32 n <<< 4) &&& d.setWidth 32 = 0#32 := by
    ext i hi
    by_cases hlow : i < 4
    · simp [hlow]
    · simp [BitVec.getLsbD_of_ge d i (Nat.le_of_not_lt hlow)]
  rw [← BitVec.add_eq_or_of_and_eq_zero _ _ hdisj]
  bv_omega

theorem digitsWord_eq (ds : List (BitVec 4)) :
    digitsWord ds = BitVec.ofNat 32 (ds.foldl (fun n d => 16 * n + d.toNat) 0) := by
  have hfrom (n : Nat) : ds.foldl (fun (acc : Word) d => (acc <<< 4) ||| d.setWidth 32) (BitVec.ofNat 32 n) =
      BitVec.ofNat 32 (ds.foldl (fun n d => 16 * n + d.toNat) n) := by
    induction ds generalizing n with
    | nil => rfl
    | cons d ds ih => rw [List.foldl_cons, shiftLeft_or_digit, ih, List.foldl_cons]
  exact hfrom 0

/-- Eight digits of a list that has them, one by one. -/
theorem take_drop_eq_map_getD {p : List (BitVec 4)} {k : Nat} (h : k + 8 ≤ p.length) :
    (p.drop k).take 8 = (List.range 8).map fun i => p.getD (k + i) 0#4 := by
  refine List.ext_getElem ?_ fun i _ hi => ?_
  · simp only [List.length_take, List.length_drop, List.length_map, List.length_range]
    omega
  · have hk : k + i < p.length := by
      simp only [List.length_map, List.length_range] at hi
      omega
    simp [hk]

/-- The number of eight digits, the most significant first, as the sum of 40_construction.md R102. -/
theorem foldl_digits_eq_sum (f : Nat → BitVec 4) :
    ((List.range 8).map f).foldl (fun n d => 16 * n + d.toNat) 0 =
      ((List.range 8).map fun k => (f k).toNat * 2 ^ (4 * (7 - k))).sum := by
  simp only [List.range_succ, List.range_zero, List.nil_append, List.map_append, List.map_cons, List.map_nil,
    List.foldl_append, List.foldl_cons, List.foldl_nil, List.sum_append, List.sum_cons, List.sum_nil]
  omega

theorem groupWords_eq_placedWords {w : Nat} {d : List (BitVec 4)} (hd : d.length ≤ 8 * w) :
    groupWords w (List.replicate (8 * w - d.length) 0#4 ++ d) = placedWords w d := by
  refine List.map_congr_left fun j hj => ?_
  have hj : j < w := List.mem_range.mp hj
  have hgroup : 8 * j + 8 ≤ (List.replicate (8 * w - d.length) 0#4 ++ d).length := by
    simp only [List.length_append, List.length_replicate]
    omega
  rw [take_drop_eq_map_getD hgroup, digitsWord_eq, foldl_digits_eq_sum, placedWord]

theorem placeHex_eq_some_iff {d : List (BitVec 4)} {len : Nat} {v : VReg} :
    placeHex d len = some v ↔
      d.length ≤ 8 * wordCount len ∧ FitsLength len (placedWords (wordCount len) d) ∧
        v = VReg.make len (placedWords (wordCount len) d) := by
  rw [placeHex, Option.ite_none_right_eq_some]
  refine and_congr_right fun hd => ?_
  rw [groupWords_eq_placedWords hd, fitsLength_iff, Option.ite_none_right_eq_some, Option.some.injEq,
    eq_comm (a := v), and_iff_right (length_placedWords _ d)]

end Sys2Proof.Machine
end

section
/-! SUPPORT. The JSON word array (40_construction.md R105): what `parseJsonFrom` accepts inside a number and where a
number must begin, told in the words of the grammar. -/

namespace Sys2Proof.Machine

/-! Numerals -/

theorem decDigit_eq_some_iff {ch : Byte} {d : Nat} :
    decDigit ch = some d ↔ (0x30 ≤ ch.toNat ∧ ch.toNat ≤ 0x39) ∧ ch.toNat - 0x30 = d := by
  rw [decDigit, Option.ite_none_right_eq_some, Option.some.injEq]
  rfl

/-- The rest of a numeral whose digits so far have the value `n`: no digit follows a leading zero. -/
def NumeralRest (n : Nat) (u : List Byte) (w : Word) : Prop :=
  (∀ ch ∈ u, 0x30 ≤ ch.toNat ∧ ch.toNat ≤ 0x39) ∧ (n = 0 → u = []) ∧
    u.foldl (fun acc ch => 10 * acc + (ch.toNat - 0x30)) n = w.toNat

theorem numeralRest_nil {n : Nat} {w : Word} : NumeralRest n [] w ↔ n = w.toNat := by
  simp [NumeralRest]

theorem numeralRest_cons {n : Nat} {ch : Byte} {u : List Byte} {w : Word} :
    NumeralRest n (ch :: u) w ↔ ∃ d, decDigit ch = some d ∧ n ≠ 0 ∧ NumeralRest (10 * n + d) u w := by
  simp only [NumeralRest, decDigit_eq_some_iff, List.forall_mem_cons, List.foldl_cons]
  constructor
  · rintro ⟨⟨hch, hu⟩, hn, hw⟩
    have hn : n ≠ 0 := fun h => List.cons_ne_nil _ _ (hn h)
    exact ⟨_, ⟨hch, rfl⟩, hn, hu, fun h => absurd h (by omega), hw⟩
  · rintro ⟨_, ⟨hch, rfl⟩, hn, hu, -, hw⟩
    exact ⟨⟨hch, hu⟩, fun h => absurd h hn, hw⟩

theorem IsNumeral.ne_nil {t : List Byte} {w : Word} (h : IsNumeral t w) : t ≠ [] := h.left

theorem isNumeral_cons {ch : Byte} {u : List Byte} {w : Word} :
    IsNumeral (ch :: u) w ↔ ∃ d, decDigit ch = some d ∧ NumeralRest d u w := by
  have hlead (hch : 0x30 ≤ ch.toNat ∧ ch.toNat ≤ 0x39) :
      ((ch :: u).head? = some 0x30#8 → (ch :: u).length = 1) ↔ (ch.toNat - 0x30 = 0 → u = []) := by
    have hzero : ch = 0x30#8 ↔ ch.toNat - 0x30 = 0 := by bv_omega
    simp [hzero]
  simp only [IsNumeral, NumeralRest, decDigit_eq_some_iff, List.forall_mem_cons, List.foldl_cons, Nat.mul_zero,
    Nat.zero_add]
  constructor
  · rintro ⟨-, ⟨hch, hu⟩, hone, hw⟩
    exact ⟨_, ⟨hch, rfl⟩, hu, (hlead hch).mp hone, hw⟩
  · rintro ⟨_, ⟨hch, rfl⟩, hu, hone, hw⟩
    exact ⟨List.cons_ne_nil _ _, ⟨hch, hu⟩, (hlead hch).mpr hone, hw⟩

/-! Items -/

/-- What stands after a numeral of the word `w`, and the words of the whole: the closing bracket and `[w]`, or a comma
and a text whose words follow `w` (40_construction.md R105). -/
def ItemsEnd (t : List Byte) (w : Word) (ws : List Word) : Prop :=
  (t = [chClose] ∧ ws = [w]) ∨ ∃ rest ws', t = chComma :: rest ∧ ws = w :: ws' ∧ parseJsonFrom none rest = some ws'

/-- A numeral ends before a character that is no digit. -/
theorem ItemsEnd.exists_cons {t : List Byte} {w : Word} {ws : List Word} (h : ItemsEnd t w ws) :
    ∃ ch rest, t = ch :: rest ∧ decDigit ch = none := by
  rcases h with ⟨rfl, -⟩ | ⟨rest, -, rfl, -⟩
  · exact ⟨_, _, rfl, rfl⟩
  · exact ⟨_, _, rfl, rfl⟩

/-- Inside a number, a character that is no digit ends it where its value is a word's. -/
theorem parseJsonFrom_some_cons {n : Nat} {ch : Byte} {rest : List Byte} {ws : List Word} (hch : decDigit ch = none) :
    parseJsonFrom (some n) (ch :: rest) = some ws ↔ ∃ w, n = w.toNat ∧ ItemsEnd (ch :: rest) w ws := by
  simp only [parseJsonFrom, hch]
  split
  next hbig =>
    refine ⟨nofun, ?_⟩
    rintro ⟨w, rfl, -⟩
    omega
  next hsmall =>
    have hw (w : Word) : n = w.toNat ↔ w = BitVec.ofNat 32 n := by bv_omega
    simp only [hw, exists_eq_left, ItemsEnd, List.cons.injEq]
    split
    next hcomma =>
      have hclose : chComma ≠ chClose := by decide
      simp [hcomma, hclose, and_comm, eq_comm (a := ws)]
    next hcomma => simp [hcomma, eq_comm (a := ws)]

/-- Inside a number, the parse accepts the rest of the numeral and what ends it. -/
theorem parseJsonFrom_some_iff {n : Nat} {t : List Byte} {ws : List Word} :
    parseJsonFrom (some n) t = some ws ↔ ∃ u w t', NumeralRest n u w ∧ t = u ++ t' ∧ ItemsEnd t' w ws := by
  induction t generalizing n with
  | nil =>
    refine ⟨nofun, ?_⟩
    rintro ⟨u, w, t', -, ht, hend⟩
    obtain ⟨ch, rest, rfl, -⟩ := hend.exists_cons
    simp at ht
  | cons ch rest ih =>
    cases hch : decDigit ch with
    | some d =>
      have hstep : parseJsonFrom (some n) (ch :: rest) =
          if n = 0 then none else parseJsonFrom (some (10 * n + d)) rest := by
        simp only [parseJsonFrom, hch]
      rw [hstep, Option.ite_none_left_eq_some, ih]
      constructor
      · rintro ⟨hn, u, w, t', hu, rfl, hend⟩
        exact ⟨ch :: u, w, t', numeralRest_cons.mpr ⟨d, hch, hn, hu⟩, rfl, hend⟩
      · rintro ⟨_ | ⟨_, u⟩, w, t', hu, ht, hend⟩
        · obtain ⟨ch', rest', rfl, hch'⟩ := hend.exists_cons
          cases ht
          simp [hch] at hch'
        · cases ht
          obtain ⟨d', hd', hn, hu⟩ := numeralRest_cons.mp hu
          cases hch.symm.trans hd'
          exact ⟨hn, u, w, t', hu, rfl, hend⟩
    | none =>
      rw [parseJsonFrom_some_cons hch]
      constructor
      · rintro ⟨w, hn, hend⟩
        exact ⟨[], w, _, numeralRest_nil.mpr hn, rfl, hend⟩
      · rintro ⟨_ | ⟨_, u⟩, w, t', hu, ht, hend⟩
        · cases ht
          exact ⟨w, numeralRest_nil.mp hu, hend⟩
        · cases ht
          obtain ⟨d, hd, -⟩ := numeralRest_cons.mp hu
          simp [hch] at hd

theorem parseJsonFrom_none_eq_some {t : List Byte} {ws : List Word} :
    parseJsonFrom none t = some ws ↔
      ∃ ch rest d, t = ch :: rest ∧ decDigit ch = some d ∧ parseJsonFrom (some d) rest = some ws := by
  cases t with
  | nil => simp [parseJsonFrom]
  | cons ch rest => cases hch : decDigit ch <;> simp [parseJsonFrom, hch]

/-- Where a number must begin, the parse accepts a numeral and what ends it. -/
theorem parseJsonFrom_none_iff {t : List Byte} {ws : List Word} :
    parseJsonFrom none t = some ws ↔ ∃ num w t', IsNumeral num w ∧ t = num ++ t' ∧ ItemsEnd t' w ws := by
  rw [parseJsonFrom_none_eq_some]
  constructor
  · rintro ⟨ch, rest, d, rfl, hch, hrest⟩
    obtain ⟨u, w, t', hu, rfl, hend⟩ := parseJsonFrom_some_iff.mp hrest
    exact ⟨ch :: u, w, t', isNumeral_cons.mpr ⟨d, hch, hu⟩, rfl, hend⟩
  · rintro ⟨_ | ⟨ch, u⟩, w, t', hnum, rfl, hend⟩
    · exact absurd rfl hnum.ne_nil
    · obtain ⟨d, hch, hu⟩ := isNumeral_cons.mp hnum
      exact ⟨ch, u ++ t', d, rfl, hch, parseJsonFrom_some_iff.mpr ⟨u, w, t', hu, rfl, hend⟩⟩

/-- Where a number must begin, the parse accepts the numerals of at least one word, with commas between them, and the
closing bracket (40_construction.md R105). -/
theorem parseJsonFrom_none_iff_numerals {t : List Byte} {ws : List Word} :
    parseJsonFrom none t = some ws ↔
      ∃ nums, nums ≠ [] ∧ List.Forall₂ IsNumeral nums ws ∧ t = List.intercalate [chComma] nums ++ [chClose] := by
  induction ws generalizing t with
  | nil =>
    rw [parseJsonFrom_none_iff]
    constructor
    · rintro ⟨num, w, t', -, -, ⟨-, hws⟩ | ⟨rest, ws', -, hws, -⟩⟩ <;> cases hws
    · rintro ⟨nums, hne, hall, -⟩
      exact absurd (List.forall₂_nil_right_iff.mp hall) hne
  | cons w ws ih =>
    rw [parseJsonFrom_none_iff]
    constructor
    · rintro ⟨num, w', t', hnum, rfl, ⟨rfl, hws⟩ | ⟨rest, ws', rfl, hws, hrest⟩⟩
      · cases hws
        exact ⟨[num], List.cons_ne_nil _ _, .cons hnum .nil, by simp⟩
      · cases hws
        obtain ⟨_ | ⟨num', nums⟩, hne, hall, rfl⟩ := ih.mp hrest
        · exact absurd rfl hne
        · exact ⟨num :: num' :: nums, List.cons_ne_nil _ _, .cons hnum hall, by simp⟩
    · rintro ⟨_ | ⟨num, _ | ⟨num', nums⟩⟩, hne, hall, rfl⟩
      · exact absurd rfl hne
      · obtain ⟨hnum, hnil⟩ := List.forall₂_cons.mp hall
        cases hnil
        exact ⟨num, w, [chClose], hnum, by simp, .inl ⟨rfl, rfl⟩⟩
      · obtain ⟨hnum, hall⟩ := List.forall₂_cons.mp hall
        have hrest := ih.mpr ⟨num' :: nums, List.cons_ne_nil _ _, hall, rfl⟩
        exact ⟨num, w, _, hnum, by simp, .inr ⟨_, ws, rfl, rfl, hrest⟩⟩

theorem parseJson_eq_some_iff {t : List Byte} {ws : List Word} :
    parseJson t = some ws ↔
      (t = [chOpen, chClose] ∧ ws = []) ∨ ∃ rest, t = chOpen :: rest ∧ parseJsonFrom none rest = some ws := by
  unfold parseJson
  split
  next hempty =>
    have hclose : parseJsonFrom none [chClose] = none := rfl
    subst hempty
    simp [hclose, eq_comm]
  next hempty =>
    cases t with
    | nil => simp
    | cons ch rest => simp [hempty, Option.ite_none_right_eq_some]

/-- Settles O21: `[]` is the text of no word, and any other text of the grammar is `[` and the numerals. -/
theorem jsonParseAcceptsExactlyTheGrammar : Obligations.JsonParseAcceptsExactlyTheGrammar := by
  intro t ws
  rw [parseJson_eq_some_iff]
  constructor
  · rintro (⟨rfl, rfl⟩ | ⟨rest, rfl, hrest⟩)
    · exact ⟨[], .nil, rfl⟩
    · obtain ⟨nums, -, hall, rfl⟩ := parseJsonFrom_none_iff_numerals.mp hrest
      exact ⟨nums, hall, rfl⟩
  · rintro ⟨nums, hall, rfl⟩
    by_cases hnil : nums = []
    · subst hnil
      cases hall
      exact .inl ⟨rfl, rfl⟩
    · exact .inr ⟨_, rfl, parseJsonFrom_none_iff_numerals.mpr ⟨nums, hnil, hall, rfl⟩⟩

end Sys2Proof.Machine
end

section
/-! SUPPORT. FROMHEX, FROMHEXL, FROMJSON and FROMARRAY (40_construction.md R103 to R107): each is a capacity check and
a parse of the input, which gives the register to write or none. -/

namespace Sys2Proof.Machine

variable {s : State}

/-- A FormatError of the parse and one of the placement are one FormatError (40_construction.md R104, R106). -/
theorem orFormatError_bind {α β : Type} (x : Option α) (f : α → Option β) (k : β → Result) :
    (orFormatError x s fun y => orFormatError (f y) s k) = orFormatError (x.bind f) s k := by
  cases x <;> rfl

/-- A command that writes the register its text gives raises FormatError where it gives none. -/
theorem raises_format {i : Instr} {va : VNum} {x : Option VReg}
    (hexec : exec i s = orFormatError x s fun v => completeVreg va v s) (hx : x = none) : Raises 3 i s := by
  rw [hx] at hexec
  exact raises_of_exec_eq hexec

/-- It writes the register where its text gives one and the register it names exists. -/
theorem State.Inv.answers_construct (h : s.Inv) {i : Instr} {va : VNum} {x : Option VReg} {v : VReg}
    (hexec : exec i s = orFormatError x s fun v => completeVreg va v s) (hx : x = some v)
    (hva : va.toNat < s.cfg.nv) : Answers (exec i s) fun t => t.vreg va = v ∧ IntoVector va s t := by
  rw [hexec, hx]
  exact h.answers_completeVreg hva v

/-! FROMHEX -/

theorem exec_fromhex (h : s.Inv) {va : VNum} {d : List (BitVec 4)} (hd : parseHex s.input = some d) :
    exec (.fromhex va) s = withCapacity (impliedLength d.length) s
      (orFormatError (placeHex d (impliedLength d.length)) s fun v => completeVreg va v s) := by
  rw [exec, execFromhex, h.withInput_eq, hd, orFormatError_some]

/-- The words of the implied length hold every digit, so the placement gives them. -/
theorem placeHex_impliedLength (d : List (BitVec 4)) :
    placeHex d (impliedLength d.length) =
      some (VReg.make (impliedLength d.length) (placedWords (wordCount (4 * d.length)) d)) := by
  obtain ⟨v, hv⟩ := placeHex_implied d
  obtain ⟨-, -, rfl⟩ := placeHex_eq_some_iff.mp hv
  rw [hv, wordCount_implied]

/-- Settles O19: the parse, then the capacity check of the implied length, at which the placement cannot fail. -/
theorem fromhexConstructsFromText : Obligations.FromhexConstructsFromText := by
  refine fun va => ⟨layout_va va 0x02, fun s h => ⟨fun hnone => ?_, fun d hd => ⟨fun hlt => ?_, fun hle hva => ?_⟩⟩⟩
  · have hexec : exec (.fromhex va) s = raise .format s := by rw [exec, execFromhex, h.withInput_eq, hnone]; rfl
    exact raises_of_exec_eq hexec
  · exact raises_of_exec_eq ((exec_fromhex h hd).trans (withCapacity_of_lt hlt))
  · exact h.answers_construct ((exec_fromhex h hd).trans (withCapacity_of_le hle)) (placeHex_impliedLength d) hva

/-! FROMHEXL -/

theorem exec_fromhexl (h : s.Inv) {va : VNum} {imm : Word} (hle : imm.toNat ≤ s.cfg.maxlen) :
    exec (.fromhexl va imm) s =
      orFormatError ((parseHex s.input).bind fun d => placeHex d imm.toNat) s fun v => completeVreg va v s := by
  rw [exec, execFromhexl, withCapacity_of_le hle, h.withInput_eq, orFormatError_bind]

/-- The placed words fit the length where no digit puts a one at an index of the length or above
(40_construction.md R102). -/
theorem fitsLength_placedWords_iff {len : Nat} {d : List (BitVec 4)} :
    FitsLength len (placedWords (wordCount len) d) ↔
      ∀ i, len ≤ i → i < 32 * wordCount len →
        (placedWord (wordCount len) d (i / 32)).testBit (i % 32) = false := by
  rw [FitsLength, length_placedWords]
  refine (and_iff_right rfl).trans (forall₃_congr fun i _ hi => ?_)
  have hword : (placedWords (wordCount len) d).getD (i / 32) 0#32 =
      BitVec.ofNat 32 (placedWord (wordCount len) d (i / 32)) := by
    have hi : i / 32 < wordCount len := by omega
    simp [placedWords, hi]
  rw [hword, BitVec.getLsbD_ofNat, decide_eq_true (Nat.mod_lt i (by decide)), Bool.true_and]

/-- Settles O20: the capacity check, then the parse and the placement, each cause of whose failure is named. -/
theorem fromhexlConstructsOrRefusesText : Obligations.FromhexlConstructsOrRefusesText := by
  refine fun va imm => ⟨layout_va_imm imm va 0x03,
    fun s h => ⟨fun hlt => ?_, fun hle => ⟨fun hnone => ?_, fun d hd => ?_⟩⟩⟩
  · exact raises_of_exec_eq (i := .fromhexl va imm) (withCapacity_of_lt hlt)
  · exact raises_format (exec_fromhexl h hle) (by rw [hnone]; rfl)
  · have hexec : exec (.fromhexl va imm) s =
        orFormatError (placeHex d imm.toNat) s fun v => completeVreg va v s := by
      rw [exec_fromhexl h hle, hd, Option.bind_some]
    refine ⟨fun hmany => ?_, fun _ hbit => ?_, fun hfew hbits hva => ?_⟩
    · refine raises_format hexec (Option.eq_none_iff_forall_ne_some.mpr fun v hv => ?_)
      obtain ⟨hfew, -, -⟩ := placeHex_eq_some_iff.mp hv
      exact absurd hfew (Nat.not_le.mpr hmany)
    · refine raises_format hexec (Option.eq_none_iff_forall_ne_some.mpr fun v hv => ?_)
      obtain ⟨-, hfits, -⟩ := placeHex_eq_some_iff.mp hv
      obtain ⟨i, hi, hi', hone⟩ := hbit
      exact Bool.false_ne_true ((fitsLength_placedWords_iff.mp hfits i hi hi').symm.trans hone)
    · exact h.answers_construct hexec
        (placeHex_eq_some_iff.mpr ⟨hfew, fitsLength_placedWords_iff.mpr hbits, rfl⟩) hva

/-! FROMJSON -/

theorem exec_fromjson (h : s.Inv) {va : VNum} {imm : Word} (hle : imm.toNat ≤ s.cfg.maxlen) :
    exec (.fromjson va imm) s =
      orFormatError ((parseJson s.input).bind fun ws => placeJson ws imm.toNat) s fun v => completeVreg va v s := by
  rw [exec, execFromjson, withCapacity_of_le hle, h.withInput_eq, orFormatError_bind]

/-- The text gives a register where it is the grammar's text of words that fit the length. -/
theorem parseJson_bind_placeJson_iff {t : List Byte} {len : Nat} {v : VReg} :
    ((parseJson t).bind fun ws => placeJson ws len) = some v ↔
      ∃ ws, IsJsonText t ws ∧ FitsLength len ws ∧ v = VReg.make len ws := by
  simp only [Option.bind_eq_some_iff, jsonParseAcceptsExactlyTheGrammar t, placeJson_eq_some_iff]

/-- Settles O22: the capacity check, then the parse and the placement, which give a register for fitting words alone. -/
theorem fromjsonConstructsFromWords : Obligations.FromjsonConstructsFromWords := by
  refine fun va imm => ⟨layout_va_imm imm va 0x04,
    fun s h => ⟨fun hlt => ?_, fun hle => ⟨fun hno => ?_, fun ws htext hfits hva => ?_⟩⟩⟩
  · exact raises_of_exec_eq (i := .fromjson va imm) (withCapacity_of_lt hlt)
  · refine raises_format (exec_fromjson h hle) (Option.eq_none_iff_forall_ne_some.mpr fun v hv => hno ?_)
    obtain ⟨ws, htext, hfits, -⟩ := parseJson_bind_placeJson_iff.mp hv
    exact ⟨ws, htext, hfits⟩
  · exact h.answers_construct (exec_fromjson h hle)
      (parseJson_bind_placeJson_iff.mpr ⟨ws, htext, hfits, rfl⟩) hva

/-! FROMARRAY -/

theorem exec_fromarray (h : s.Inv) {va : VNum} (hle : s.ilen.toNat ≤ s.cfg.maxlen) :
    exec (.fromarray va) s =
      orFormatError ((boolsOfBytes s.input).map placeBools) s fun v => completeVreg va v s := by
  rw [exec, execFromarray, withCapacity_of_le hle, h.withInput_eq]
  cases boolsOfBytes s.input <;> rfl

theorem boolOfByte_eq_some_iff {b : Byte} {x : Bool} :
    boolOfByte b = some x ↔ (b = 0x00#8 ∨ b = 0x01#8) ∧ x = decide (b = 0x01#8) := by
  unfold boolOfByte
  split
  next hone => simp [hone, eq_comm]
  next hone => simp [hone, eq_comm (b := x)]

/-- A boolean array has the bytes 0x00 and 0x01 alone (40_construction.md R107). -/
theorem boolsOfBytes_eq_some_iff {t : List Byte} {bs : List Bool} :
    boolsOfBytes t = some bs ↔ (∀ b ∈ t, b = 0x00#8 ∨ b = 0x01#8) ∧ bs = t.map fun b => decide (b = 0x01#8) := by
  induction t generalizing bs with
  | nil => simp [boolsOfBytes, eq_comm (b := bs)]
  | cons b t ih =>
    have hcons : boolsOfBytes (b :: t) = some bs ↔
        ∃ x, boolOfByte b = some x ∧ ∃ xs, boolsOfBytes t = some xs ∧ bs = x :: xs := by
      rw [boolsOfBytes]
      cases boolOfByte b <;> cases boolsOfBytes t <;> simp [eq_comm (b := bs)]
    simp only [hcons, ih, boolOfByte_eq_some_iff, and_assoc, exists_and_left, exists_eq_left, List.forall_mem_cons,
      List.map_cons]

theorem forall_mem_input_iff {P : Byte → Prop} : (∀ b ∈ s.input, P b) ↔ ∀ k < s.ilen.toNat, P (s.ibuf.read k) := by
  simp [State.input, Memory.readAll]

/-- Settles O23: the capacity check of ILEN, then the bytes; the register has the bits they stand for and is sound. -/
theorem fromarrayConstructsFromBooleans : Obligations.FromarrayConstructsFromBooleans := by
  refine fun va => ⟨layout_va va 0x05, fun s h => ⟨fun hlt => ?_, fun hle => ⟨fun hbad => ?_, fun hgood hva => ?_⟩⟩⟩
  · exact raises_of_exec_eq (i := .fromarray va) (withCapacity_of_lt hlt)
  · have hnone : boolsOfBytes s.input = none := by
      refine Option.eq_none_iff_forall_ne_some.mpr fun bs hbs => ?_
      obtain ⟨k, hk, hzero, hone⟩ := hbad
      obtain ⟨hgood, -⟩ := boolsOfBytes_eq_some_iff.mp hbs
      exact (forall_mem_input_iff.mp hgood k hk).elim hzero hone
    exact raises_format (exec_fromarray h hle) (by rw [hnone]; rfl)
  · have hbs := boolsOfBytes_eq_some_iff.mpr ⟨forall_mem_input_iff.mpr hgood, rfl⟩
    have hlen := boolsOfBytes_input_length hbs
    have hsound := placeBools_sound _ (hlen ▸ hle)
    refine (h.answers_construct (exec_fromarray h hle) (by rw [hbs]; rfl) hva).imp ?_
    rintro t ⟨hv, hinto⟩
    rw [hv]
    refine ⟨rfl, hlen, ?_, fun k hk => ?_, hsound.padding, hinto⟩
    · rw [hsound.word_count, ← hlen]
      rfl
    · simp [bit_placeBools, State.input, Memory.readAll, hk]

end Sys2Proof.Machine
end

section
/-! SUPPORT. The bit access commands (41_bit_access.md R130 to R135): each checks that its register is constructed, then
its index where it has one, and completes into that register or into RES. -/

namespace Sys2Proof.Machine

variable {s : State} {i : Instr} {va : VNum} {n : Word}

/-! What each command runs -/

theorem exec_size_eq : exec (.size va) s = withVector va s fun v => completeRes v.len s := rfl

theorem exec_get_eq : exec (.get va n) s =
    withVector va s fun v => withIndex v n s fun k => completeRes (v.bit k).toNat s := rfl

theorem exec_set_eq (f : Bool) : exec (.set va n f) s =
    withVector va s fun v => withIndex v n s fun k => completeVreg va { v with words := setBit v.words k f } s := rfl

theorem exec_toggle_eq : exec (.toggle va n) s =
    withVector va s fun v => withIndex v n s fun k => completeVreg va { v with words := flipBit v.words k } s := rfl

theorem exec_reset_eq : exec (.reset va) s =
    withVector va s fun v => completeVreg va (VReg.make v.len (List.replicate (wordCount v.len) 0#32)) s := rfl

/-- What NOT makes of a register (42_whole_vector.md R154). -/
def VReg.complement (v : VReg) : VReg := { v with words := maskLast v.len (v.lanes.map (fun w => ~~~w)) }

theorem exec_vnot_eq : exec (.vnot va) s = withVector va s fun v => completeVreg va v.complement s := rfl

/-! The checks -/

theorem withVector_of_valid {k : VReg → Result} (hv : (s.vreg va).valid = true) :
    withVector va s k = k (s.vreg va) := if_pos hv

theorem withIndex_of_lt {v : VReg} {k : Nat → Result} (hn : n.toNat < v.len) : withIndex v n s k = k n.toNat :=
  if_pos hn

theorem withIndex_of_le {v : VReg} {k : Nat → Result} (hn : v.len ≤ n.toNat) : withIndex v n s k = raise .index s :=
  if_neg (Nat.not_lt.mpr hn)

/-- A command whose first check is that V[va] is constructed (60_exceptions.md R218). -/
theorem raises_uninitialised {k : VReg → Result} (hexec : exec i s = withVector va s k)
    (hv : (s.vreg va).valid = false) : Raises 5 i s := by
  rw [withVector, if_neg (by simp [hv])] at hexec
  exact raises_of_exec_eq hexec

/-- A command that checks its index after that (41_bit_access.md R130). -/
theorem raises_index {k : VReg → Nat → Result} (hexec : exec i s = withVector va s fun v => withIndex v n s (k v))
    (hv : (s.vreg va).valid = true) (hn : (s.vreg va).len ≤ n.toNat) : Raises 1 i s := by
  rw [withVector_of_valid hv, withIndex_of_le hn] at hexec
  exact raises_of_exec_eq hexec

/-! How a command ends -/

/-- A write of RES and completion, and the rest is framed (60_exceptions.md R212). -/
theorem answers_completeRes (m : Nat) (s : State) :
    Answers (completeRes m s) fun t => t.res = BitVec.ofNat 32 m ∧ IntoRes s t := ⟨_, rfl, rfl, rfl⟩

/-- `State.Inv.answers_completeVreg` for a constructed register, which exists in every state. -/
theorem answers_completeVreg_of_valid (hv : (s.vreg va).valid = true) (v : VReg) :
    Answers (completeVreg va v s) fun t => t.vreg va = v ∧ IntoVector va s t :=
  ⟨_, rfl, vreg_setVreg_same s va v (vreg_mem_of_valid s va hv).left, fun b hb => vreg_setVreg_ne s va b v hb, rfl⟩

/-! The commands on a constructed register, with the index in range -/

theorem exec_get (hv : (s.vreg va).valid = true) (hn : n.toNat < (s.vreg va).len) :
    exec (.get va n) s = completeRes ((s.vreg va).bit n.toNat).toNat s := by
  rw [exec_get_eq, withVector_of_valid hv, withIndex_of_lt hn]

theorem exec_set (f : Bool) (hv : (s.vreg va).valid = true) (hn : n.toNat < (s.vreg va).len) :
    exec (.set va n f) s =
      completeVreg va { s.vreg va with words := setBit (s.vreg va).words n.toNat f } s := by
  rw [exec_set_eq, withVector_of_valid hv, withIndex_of_lt hn]

theorem exec_toggle (hv : (s.vreg va).valid = true) (hn : n.toNat < (s.vreg va).len) :
    exec (.toggle va n) s = completeVreg va { s.vreg va with words := flipBit (s.vreg va).words n.toNat } s := by
  rw [exec_toggle_eq, withVector_of_valid hv, withIndex_of_lt hn]

theorem exec_vnot (hv : (s.vreg va).valid = true) :
    exec (.vnot va) s = completeVreg va (s.vreg va).complement s := by
  rw [exec_vnot_eq, withVector_of_valid hv]

/-- The word of an index in range is one that a constructed register holds (10_state.md R23). -/
theorem State.Inv.wordOf_lt_length (h : s.Inv) (hv : (s.vreg va).valid = true) {k : Nat} (hk : k < (s.vreg va).len) :
    wordOf k < (s.vreg va).words.length := by
  rw [(sound_operand hv h.vregs_sound).word_count]
  exact wordOf_lt_wordCount hk

/-! One command -/

/-- Settles O24: a length of at most MAXLEN is what RES holds (00_scope.md R7). -/
theorem sizeReadsTheLength : Obligations.SizeReadsTheLength := by
  refine fun va => ⟨layout_va va 0x10, fun s h => ⟨raises_uninitialised exec_size_eq, fun hv => ?_⟩⟩
  have hlen : (s.vreg va).len < 2 ^ 32 := by
    have hle := (sound_operand hv h.vregs_sound).len_le
    have hmaxlen := h.cfg_legal.maxlen_le
    omega
  rw [exec_size_eq, withVector_of_valid hv]
  refine (answers_completeRes _ s).imp ?_
  rintro t ⟨hres, hinto⟩
  exact ⟨by rw [hres, BitVec.toNat_ofNat, Nat.mod_eq_of_lt hlen], hinto⟩

/-- Settles O25: the two checks, then the bit at its word and position (00_scope.md R15). -/
theorem getReadsOneBit : Obligations.GetReadsOneBit := by
  refine fun va n => ⟨layout_va_imm n va 0x11, fun s =>
    ⟨raises_uninitialised exec_get_eq, raises_index exec_get_eq, fun hv hn => ?_⟩⟩
  rw [exec_get hv hn]
  refine (answers_completeRes _ s).imp ?_
  rintro t ⟨hres, hinto⟩
  refine ⟨hres.trans ?_, hinto⟩
  rw [bit_def, wordOf, posOf]
  cases ((s.vreg va).words.getD (n.toNat / 32) 0#32).getLsbD (n.toNat % 32) <;> rfl

/-- Settles O26: the two checks, then `setBit`, whose one changed bit is `bit_setBit`. -/
theorem setWritesOneBit : Obligations.SetWritesOneBit := by
  refine fun va n f => ⟨rfl, fun s h =>
    ⟨raises_uninitialised (exec_set_eq f), raises_index (exec_set_eq f), fun hv hn => ?_⟩⟩
  rw [exec_set f hv hn]
  refine (answers_completeVreg_of_valid hv _).imp ?_
  rintro t ⟨hreg, hinto⟩
  rw [hreg]
  exact ⟨hv, rfl, length_setBit _ _ _, fun j => bit_setBit _ _ j f (h.wordOf_lt_length hv hn), hinto⟩

/-- Settles O27: the two checks, then `flipBit`, whose one changed bit is `bit_flipBit`. -/
theorem toggleFlipsOneBit : Obligations.ToggleFlipsOneBit := by
  refine fun va n => ⟨layout_va_imm n va 0x13, fun s h =>
    ⟨raises_uninitialised exec_toggle_eq, raises_index exec_toggle_eq, fun hv hn => ?_⟩⟩
  rw [exec_toggle hv hn]
  refine (answers_completeVreg_of_valid hv _).imp ?_
  rintro t ⟨hreg, hinto⟩
  rw [hreg]
  exact ⟨hv, rfl, length_flipBit _ _, fun j => bit_flipBit _ _ j (h.wordOf_lt_length hv hn), hinto⟩

/-- Settles O28: RESET writes the register of zero words of the same length. -/
theorem resetCommandClearsEveryBit : Obligations.ResetCommandClearsEveryBit := by
  refine fun va => ⟨layout_va va 0x14, fun s => ⟨raises_uninitialised exec_reset_eq, fun hv => ?_⟩⟩
  rw [exec_reset_eq, withVector_of_valid hv]
  exact answers_completeVreg_of_valid hv _

/-! One command twice -/

theorem flipBit_flipBit (ws : List Word) (k : Nat) : flipBit (flipBit ws k) k = ws := by
  have hinv : (fun w : Word => w ^^^ bitMask k) ∘ (fun w => w ^^^ bitMask k) = id := by
    funext w
    simp
  rw [flipBit, flipBit, List.modify_modify_eq, hinv, List.modify_id]

theorem setBit_setBit (ws : List Word) (k : Nat) (f : Bool) : setBit (setBit ws k f) k f = setBit ws k f := by
  rw [setBit, setBit, List.modify_modify_eq]
  congr 1
  funext w
  cases f with
  | false => simp [BitVec.and_assoc]
  | true => simp [BitVec.or_assoc]

/-- A word of a register is its bits at the 32 indices of the word (00_scope.md R10). -/
theorem getLsbD_getD_words (v : VReg) (j : Nat) {p : Nat} (hp : p < 32) :
    (v.words.getD j 0#32).getLsbD p = v.bit (32 * j + p) := by
  have hword : wordOf (32 * j + p) = j := by rw [wordOf]; omega
  have hpos : posOf (32 * j + p) = p := by rw [posOf]; omega
  rw [bit_def, hword, hpos]

/-- Registers with as many words and the same bits hold the same words. -/
theorem words_eq_of_bit_eq {v w : VReg} (hlen : v.words.length = w.words.length) (hbit : ∀ k, v.bit k = w.bit k) :
    v.words = w.words := by
  refine List.ext_getElem hlen fun j hv hw => BitVec.eq_of_getLsbD_eq fun p hp => ?_
  rw [← List.getD_eq_getElem _ 0#32 hv, ← List.getD_eq_getElem _ 0#32 hw, getLsbD_getD_words v j hp,
    getLsbD_getD_words w j hp, hbit]

/-- NOT is its own inverse where the padding is zero (10_state.md R25). -/
theorem VReg.Sound.complement_complement {maxlen : Nat} {v : VReg} (h : v.Sound maxlen) :
    v.complement.complement = v := by
  have hbit (k : Nat) : v.complement.complement.bit k = v.bit k := by
    rw [VReg.complement, bit_complement, VReg.complement, bit_complement]
    by_cases hk : k < v.len
    · simp [hk]
    · simp [hk, Sound.bit_high h (Nat.le_of_not_lt hk)]
  have hwords : v.complement.complement.words = v.words :=
    words_eq_of_bit_eq (by simp [VReg.complement, h.word_count]) hbit
  exact congrArg (fun ws => { v with words := ws }) hwords

/-- The state that `completeVreg` answers. -/
def State.completedVreg (s : State) (va : VNum) (v : VReg) : State :=
  { s.setVreg va v with status := statusCompleted s.status }

theorem completeVreg_eq (va : VNum) (v : VReg) (s : State) : completeVreg va v s = .next (s.completedVreg va v) := rfl

theorem vreg_completedVreg (hv : (s.vreg va).valid = true) (v : VReg) : (s.completedVreg va v).vreg va = v :=
  vreg_setVreg_same s va v (vreg_mem_of_valid s va hv).left

/-- Of two completed writes of one register the second stands. -/
theorem completedVreg_completedVreg (s : State) (va : VNum) (v w : VReg) :
    (s.completedVreg va v).completedVreg va w = s.completedVreg va w := by
  simp [State.completedVreg, State.setVreg, statusCompleted]

/-- To write the value that a register holds is to complete alone. -/
theorem completedVreg_self (hv : (s.vreg va).valid = true) :
    s.completedVreg va (s.vreg va) = { s with status := { s.status with err := 0 } } := by
  have hset : s.vregs.set va.toNat (s.vreg va) = s.vregs := by
    have hlt := (vreg_mem_of_valid s va hv).left
    rw [State.vreg, List.getD_eq_getElem _ _ hlt, List.set_getElem_self]
  simp [State.completedVreg, State.setVreg, statusCompleted, hset]

/-- A command that writes V[va] and, from the state it answers, writes back the value there was. -/
theorem answers_execAll_twice {v : VReg} (hv : (s.vreg va).valid = true) (honce : exec i s = completeVreg va v s)
    (hback : exec i (s.completedVreg va v) = completeVreg va (s.vreg va) (s.completedVreg va v)) :
    Answers (execAll [i, i] s) fun t => t = { s with status := { s.status with err := 0 } } := by
  rw [completeVreg_eq] at honce
  rw [completeVreg_eq, completedVreg_completedVreg, completedVreg_self hv] at hback
  exact ⟨_, by simp only [execAll, honce, hback], rfl⟩

theorem vnot_twice (h : s.Inv) (hv : (s.vreg va).valid = true) :
    Answers (execAll [.vnot va, .vnot va] s) fun t => t = { s with status := { s.status with err := 0 } } := by
  have hreg := vreg_completedVreg hv (s.vreg va).complement
  refine answers_execAll_twice hv (exec_vnot hv) ?_
  rw [exec_vnot (by rw [hreg]; exact hv), hreg, (sound_operand hv h.vregs_sound).complement_complement]

theorem toggle_twice (hv : (s.vreg va).valid = true) (hn : n.toNat < (s.vreg va).len) :
    Answers (execAll [.toggle va n, .toggle va n] s) fun t =>
      t = { s with status := { s.status with err := 0 } } := by
  have hreg := vreg_completedVreg hv { s.vreg va with words := flipBit (s.vreg va).words n.toNat }
  refine answers_execAll_twice hv (exec_toggle hv hn) ?_
  rw [exec_toggle (by rw [hreg]; exact hv) (by rw [hreg]; exact hn), hreg, flipBit_flipBit]

theorem set_twice (f : Bool) (hv : (s.vreg va).valid = true) (hn : n.toNat < (s.vreg va).len) :
    Answers (exec (.set va n f) s) fun t => exec (.set va n f) t = .next t := by
  have hreg := vreg_completedVreg hv { s.vreg va with words := setBit (s.vreg va).words n.toNat f }
  refine ⟨s.completedVreg va _, exec_set f hv hn, ?_⟩
  beta_reduce
  rw [exec_set f (by rw [hreg]; exact hv) (by rw [hreg]; exact hn), hreg, setBit_setBit, completeVreg_eq,
    completedVreg_completedVreg]

/-- Settles O55: `complement` and `flipBit` are their own inverses and `setBit` is idempotent. -/
theorem twiceRestoresAndSetIsIdempotent : Obligations.TwiceRestoresAndSetIsIdempotent :=
  fun _ _ _ f h hv => ⟨vnot_twice h hv, fun hn => ⟨toggle_twice hv hn, set_twice f hv hn⟩⟩

end Sys2Proof.Machine
end

section
/-! SUPPORT. The population count of a word (42_whole_vector.md R152): arithmetic on a word whose fields make no carry
and no borrow is arithmetic field by field, so that the first two levels of the tree count each nibble by itself, the
third adds the nibbles of each byte, and the multiply adds the bytes. -/

namespace Sys2Proof.Machine

/-! Arithmetic field by field -/

theorem toNat_append_eq {m n : Nat} (x : BitVec m) (y : BitVec n) :
    (x ++ y).toNat = 2 ^ n * x.toNat + y.toNat := by
  rw [BitVec.toNat_append, Nat.shiftLeft_eq, Nat.mul_comm, Nat.two_pow_add_eq_or_of_lt y.isLt]

/-- Addition field by field, where the low fields make no carry. -/
theorem append_add_append {m n : Nat} (a c : BitVec m) (b d : BitVec n) (h : b.toNat + d.toNat < 2 ^ n) :
    (a ++ b) + (c ++ d) = (a + c) ++ (b + d) := by
  have hsum : 2 ^ n * a.toNat + b.toNat + (2 ^ n * c.toNat + d.toNat) =
      2 ^ n * (a.toNat + c.toNat) + (b.toNat + d.toNat) := by ring
  apply BitVec.eq_of_toNat_eq
  rw [BitVec.toNat_add, toNat_append_eq, toNat_append_eq, toNat_append_eq, BitVec.toNat_add, BitVec.toNat_add, hsum,
    Nat.mod_eq_of_lt h, Nat.pow_add, Nat.mul_comm (2 ^ m), Nat.mod_mul, Nat.mul_add_mod,
    Nat.mul_add_div (Nat.two_pow_pos n), Nat.mod_eq_of_lt h, Nat.div_eq_of_lt h, Nat.add_zero, Nat.add_comm]

/-- Subtraction field by field, where the low fields make no borrow. -/
theorem append_sub_append {m n : Nat} (a c : BitVec m) (b d : BitVec n) (h : d ≤ b) :
    (a ++ b) - (c ++ d) = (a - c) ++ (b - d) := by
  have hcarry : (b - d).toNat + d.toNat < 2 ^ n := by
    rw [BitVec.toNat_sub_of_le h, Nat.sub_add_cancel h]
    exact b.isLt
  rw [BitVec.sub_eq_iff_eq_add, append_add_append _ _ _ _ hcarry, BitVec.sub_add_cancel, BitVec.sub_add_cancel]

/-- A masked shift field by field, where the mask of the low field clears what the high field shifts into it. -/
theorem append_shiftRight_and {m n k : Nat} (u M : BitVec m) (x t : BitVec n) (h : t.toNat < 2 ^ (n - k)) :
    ((u ++ x) >>> k) &&& (M ++ t) = ((u >>> k) &&& M) ++ ((x >>> k) &&& t) := by
  apply BitVec.eq_of_getLsbD_eq
  intro i _
  simp only [BitVec.getLsbD_and, BitVec.getLsbD_append, BitVec.getLsbD_ushiftRight]
  by_cases hi : i < n
  · by_cases hik : k + i < n
    · simp [hi, hik]
    · have hle : 2 ^ (n - k) ≤ 2 ^ i := Nat.pow_le_pow_right (by decide) (by omega)
      have ht : t.getLsbD i = false := Nat.testBit_lt_two_pow (h.trans_le hle)
      rw [if_pos hi, ht, Bool.and_false, if_pos hi, Bool.and_false]
  · have hik : ¬ k + i < n := by omega
    simp [hi, hik, Nat.add_sub_assoc (Nat.le_of_not_lt hi)]

/-! The count, nibble by nibble -/

theorem popcount32_eq_cpop (w : Word) : popcount32 w = w.cpop.toNat := by
  have hrec (n : Nat) : (List.range n).countP w.getLsbD = w.cpopNatRec n 0 := by
    induction n with
    | zero => rfl
    | succ n ih =>
      rw [List.range_succ, List.countP_append, ih, BitVec.cpopNatRec_succ, BitVec.cpopNatRec_eq (0 + _), Nat.zero_add,
        List.countP_singleton]
      cases w.getLsbD n <;> rfl
  rw [BitVec.toNat_cpop, ← hrec, popcount32]

/-- The first level of the tree, at any width: for `m` = 0b01..0101 each pair of bits becomes its count
(42_whole_vector.md R152). -/
def pairCounts {n : Nat} (m w : BitVec n) : BitVec n := w - ((w >>> 1) &&& m)

/-- The second level of the tree, at any width: for `m` = 0b0011..0011 each nibble becomes the sum of its two pairs
(42_whole_vector.md R152). -/
def nibbleCounts {n : Nat} (m w : BitVec n) : BitVec n := (w &&& m) + ((w >>> 2) &&& m)

theorem pairCounts_append {m : Nat} (M u : BitVec m) (x : BitVec 4) :
    pairCounts (M ++ 5#4) (u ++ x) = pairCounts M u ++ pairCounts 5#4 x := by
  have hle : ∀ x : BitVec 4, (x >>> 1) &&& 5#4 ≤ x := by decide
  rw [pairCounts, append_shiftRight_and _ _ _ _ (by decide), append_sub_append _ _ _ _ (hle x)]
  rfl

theorem nibbleCounts_append {m : Nat} (M u : BitVec m) (x : BitVec 4) :
    nibbleCounts (M ++ 3#4) (u ++ x) = nibbleCounts M u ++ nibbleCounts 3#4 x := by
  have hlt : ∀ x : BitVec 4, (x &&& 3#4).toNat + ((x >>> 2) &&& 3#4).toNat < 2 ^ 4 := by decide
  rw [nibbleCounts, append_shiftRight_and _ _ _ _ (by decide), BitVec.and_append, append_add_append _ _ _ _ (hlt x)]
  rfl

theorem nibbleCounts_pairCounts (x : BitVec 4) : nibbleCounts 3#4 (pairCounts 5#4 x) = x.cpop := by
  revert x
  decide

/-- The word of eight nibbles, the first the least significant. -/
def nibbles (x : Fin 8 → BitVec 4) : Word := x 7 ++ x 6 ++ x 5 ++ x 4 ++ x 3 ++ x 2 ++ x 1 ++ x 0

theorem exists_eq_nibbles (w : Word) : ∃ x, w = nibbles x := by
  refine ⟨fun j => w.extractLsb' (4 * j) 4, ?_⟩
  unfold nibbles
  iterate 7 rw [BitVec.extractLsb'_append_extractLsb'_eq_extractLsb' (by rfl)]
  exact BitVec.extractLsb'_eq_self.symm

theorem nibbleCounts_nibbles (x : Fin 8 → BitVec 4) :
    nibbleCounts 0x33333333#32 (pairCounts 0x55555555#32 (nibbles x)) = nibbles fun j => (x j).cpop := by
  have hfives : 0x55555555#32 = nibbles fun _ => 5#4 := by decide
  have hthrees : 0x33333333#32 = nibbles fun _ => 3#4 := by decide
  rw [hfives, hthrees]
  unfold nibbles
  iterate 7 rw [pairCounts_append]
  iterate 7 rw [nibbleCounts_append]
  simp only [nibbleCounts_pairCounts]

/-! The upper levels of the tree -/

/-- The third level of the tree: each byte becomes the sum of its two nibbles (42_whole_vector.md R152). -/
def byteCounts (w : Word) : Word := (w + (w >>> 4)) &&& 0x0F0F0F0F#32

theorem popcountTree_eq (w : Word) : popcountTree w =
    (byteCounts (nibbleCounts 0x33333333#32 (pairCounts 0x55555555#32 w)) * 0x01010101#32) >>> 24 := rfl

/-- The counts of two nibbles add up within a nibble. -/
theorem cpop_add_cpop_lt (x y : BitVec 4) : x.cpop.toNat + y.cpop.toNat < 2 ^ 4 := by
  have hx := BitVec.toNat_cpop_le x
  have hy := BitVec.toNat_cpop_le y
  omega

theorem append_cpop_add {m : Nat} (u v : BitVec m) (x y : BitVec 4) :
    (u ++ x.cpop) + (v ++ y.cpop) = (u + v) ++ (x.cpop + y.cpop) :=
  append_add_append u v _ _ (cpop_add_cpop_lt x y)

theorem nibbles_shiftRight (x : Fin 8 → BitVec 4) :
    nibbles x >>> 4 = 0#4 ++ x 7 ++ x 6 ++ x 5 ++ x 4 ++ x 3 ++ x 2 ++ x 1 := by
  apply BitVec.eq_of_toNat_eq
  simp only [nibbles, BitVec.toNat_ushiftRight, Nat.shiftRight_eq_div_pow, toNat_append_eq]
  rw [Nat.mul_add_div (by decide), Nat.div_eq_of_lt (x 0).isLt]
  simp

theorem toNat_byteCounts_nibbles (x : Fin 8 → BitVec 4) : (byteCounts (nibbles fun j => (x j).cpop)).toNat =
    2 ^ 24 * ((x 7).cpop.toNat + (x 6).cpop.toNat) + 2 ^ 16 * ((x 5).cpop.toNat + (x 4).cpop.toNat) +
      2 ^ 8 * ((x 3).cpop.toNat + (x 2).cpop.toNat) + ((x 1).cpop.toNat + (x 0).cpop.toNat) := by
  have hmask : 0x0F0F0F0F#32 =
      0#4 ++ BitVec.allOnes 4 ++ 0#4 ++ BitVec.allOnes 4 ++ 0#4 ++ BitVec.allOnes 4 ++ 0#4 ++ BitVec.allOnes 4 := by
    decide
  rw [byteCounts, nibbles_shiftRight, hmask, nibbles]
  iterate 7 rw [append_cpop_add]
  iterate 7 rw [BitVec.and_append]
  simp only [BitVec.and_allOnes, BitVec.and_zero, toNat_append_eq, BitVec.toNat_add,
    Nat.mod_eq_of_lt (cpop_add_cpop_lt _ _), BitVec.toNat_ofNat]
  ring

/-- The multiply adds the four bytes into the top one, whose lower neighbours make no carry. -/
theorem mul_ones_div {a b c d : Nat} (ha : a ≤ 8) (hb : b ≤ 8) (hc : c ≤ 8) (hd : d ≤ 8) :
    (2 ^ 24 * a + 2 ^ 16 * b + 2 ^ 8 * c + d) * 0x01010101 % 2 ^ 32 / 2 ^ 24 = a + b + c + d := by
  have hprod : (2 ^ 24 * a + 2 ^ 16 * b + 2 ^ 8 * c + d) * 0x01010101 =
      2 ^ 32 * (2 ^ 16 * a + 2 ^ 8 * (a + b) + (a + b + c)) +
        (2 ^ 24 * (a + b + c + d) + (2 ^ 16 * (b + c + d) + 2 ^ 8 * (c + d) + d)) := by ring
  rw [hprod, Nat.mul_add_mod, Nat.mod_eq_of_lt (by omega), Nat.mul_add_div (by decide), Nat.div_eq_of_lt (by omega),
    Nat.add_zero]

theorem toNat_popcountTree (w : Word) : (popcountTree w).toNat = w.cpop.toNat := by
  obtain ⟨x, rfl⟩ := exists_eq_nibbles w
  have hle (i j : Fin 8) : (x i).cpop.toNat + (x j).cpop.toNat ≤ 8 :=
    Nat.add_le_add (BitVec.toNat_cpop_le (x i)) (BitVec.toNat_cpop_le (x j))
  rw [popcountTree_eq, nibbleCounts_nibbles, BitVec.toNat_ushiftRight, BitVec.toNat_mul, toNat_byteCounts_nibbles,
    Nat.shiftRight_eq_div_pow, BitVec.toNat_ofNat]
  refine (mul_ones_div (hle 7 6) (hle 5 4) (hle 3 2) (hle 1 0)).trans ?_
  simp only [nibbles, BitVec.toNat_cpop_append]
  ring

/-- Settles O31: the tree counts the nibbles and adds the counts up; a word has 32 bits. -/
theorem popcountTreeCountsOneBits : Obligations.PopcountTreeCountsOneBits := fun w => by
  rw [popcount32_eq_cpop]
  exact ⟨toNat_popcountTree w, BitVec.toNat_cpop_le w⟩

end Sys2Proof.Machine
end

section
/-! SUPPORT. The one bits of a vector: the sum of the population counts of its words is the number of its set indices
(42_whole_vector.md R153), because its padding is zero (10_state.md R25). -/

namespace Sys2Proof.Machine

/-- The bits at the first 32 * n indices, counted word by word (00_scope.md R10). -/
theorem countP_bit_range_words (v : VReg) (n : Nat) :
    (List.range (32 * n)).countP v.bit = ((List.range n).map fun j => popcount32 (v.word j)).sum := by
  induction n with
  | zero => rfl
  | succ n ih =>
    have hword : ((List.range 32).map (32 * n + ·)).countP v.bit = popcount32 (v.word n) := by
      rw [List.countP_map, popcount32]
      refine List.countP_congr fun p hp => ?_
      rw [VReg.word, getLsbD_getD_words v n (List.mem_range.1 hp), Function.comp_apply]
    rw [Nat.mul_succ, List.range_add, List.countP_append, ih, hword, List.range_succ, List.map_append, List.sum_append,
      List.map_singleton, List.sum_singleton]

theorem VReg.Sound.popcount_eq_countP {maxlen : Nat} {v : VReg} (h : v.Sound maxlen) :
    v.popcount = (List.range v.len).countP v.bit := by
  obtain ⟨k, hk⟩ : ∃ k, 32 * wordCount v.len = v.len + k := Nat.exists_eq_add_of_le (by rw [wordCount]; omega)
  have hhigh : ((List.range k).map (v.len + ·)).countP v.bit = 0 := by
    rw [List.countP_map, List.countP_eq_zero]
    intro j _
    simp [Sound.bit_high h (Nat.le_add_right v.len j)]
  calc v.popcount
      = ((List.range (wordCount v.len)).map fun j => popcount32 (v.word j)).sum := by
        rw [VReg.popcount, VReg.lanes, List.map_map]
        rfl
    _ = (List.range (v.len + k)).countP v.bit := by rw [← countP_bit_range_words, hk]
    _ = (List.range v.len).countP v.bit := by rw [List.range_add, List.countP_append, hhigh, Nat.add_zero]

/-- Sound registers are equal in length and words where they are in length and in every bit below it
(42_whole_vector.md R151). -/
theorem VReg.Sound.words_eq_iff {maxlen : Nat} {v w : VReg} (hv : v.Sound maxlen) (hw : w.Sound maxlen)
    (hlen : v.len = w.len) : v.words = w.words ↔ ∀ k, k < v.len → v.bit k = w.bit k := by
  refine ⟨fun h k _ => by rw [bit_def, bit_def, h], fun h => ?_⟩
  refine words_eq_of_bit_eq (by rw [hv.word_count, hw.word_count, hlen]) fun k => ?_
  by_cases hk : k < v.len
  · exact h k hk
  · rw [Sound.bit_high hv (Nat.le_of_not_lt hk), Sound.bit_high hw (hlen ▸ Nat.le_of_not_lt hk)]

theorem countP_and_add_countP_or {α : Type} (p q : α → Bool) (l : List α) :
    (l.countP fun x => p x && q x) + (l.countP fun x => p x || q x) = l.countP p + l.countP q := by
  induction l with
  | nil => rfl
  | cons x xs ih =>
    simp only [List.countP_cons]
    cases p x <;> cases q x <;> simp <;> omega

end Sys2Proof.Machine
end

section
/-! SUPPORT. The whole-vector commands (42_whole_vector.md R150 to R160): COPY, EQUALS, COUNT and NOT, then AND, OR and
XOR as one command over the function that each applies to a lane. -/

namespace Sys2Proof.Machine

variable {s : State} {i : Instr} {va vb : VNum} {f : Word → Word → Word} {g : Bool → Bool → Bool}

/-- A command word of VA and VB alone (30_encoding.md R71). -/
theorem layout_va_vb (vb va : VNum) (op : BitVec 8) : layout 0 0 false vb va op = 0#48 ++ vb ++ va ++ op := rfl

/-! What each command runs -/

theorem exec_copy_eq : exec (.copy va vb) s =
    withVector vb s fun v => completeVreg va (VReg.make v.len v.words) s := rfl

theorem exec_equals_eq : exec (.equals va vb) s =
    withVector va s fun a => withVector vb s fun b => completeRes (sameVector a b).toNat s := rfl

theorem exec_count_eq : exec (.count va) s = withVector va s fun v => completeRes v.popcount s := rfl

/-! Two operands -/

/-- A command whose first two checks are that V[va] and V[vb] are constructed (60_exceptions.md R218). -/
theorem raises_uninitialised_pair {k : VReg → VReg → Result}
    (hexec : exec i s = withVector va s fun a => withVector vb s (k a))
    (hv : (s.vreg va).valid = false ∨ (s.vreg vb).valid = false) : Raises 5 i s := by
  by_cases hva : (s.vreg va).valid = true
  · rw [withVector_of_valid hva] at hexec
    exact raises_uninitialised hexec (hv.resolve_left (by simp [hva]))
  · exact raises_uninitialised hexec (by simpa using hva)

/-! COPY, EQUALS, COUNT and NOT -/

/-- Settles O29: a constructed register is made of its length and its words. -/
theorem copyTakesTheSourceValue : Obligations.CopyTakesTheSourceValue := by
  refine fun va vb => ⟨layout_va_vb vb va 0x20, fun s h => ⟨raises_uninitialised exec_copy_eq, fun hv hva => ?_⟩⟩
  have hmake : VReg.make (s.vreg vb).len (s.vreg vb).words = s.vreg vb := by rw [VReg.make, ← hv]
  rw [exec_copy_eq, withVector_of_valid hv, hmake]
  exact h.answers_completeVreg hva _

theorem VReg.Sound.sameVector_iff {maxlen : Nat} {v w : VReg} (hv : v.Sound maxlen) (hw : w.Sound maxlen) :
    sameVector v w = true ↔ v.len = w.len ∧ v.words = w.words := by
  simp [sameVector, lanes_eq_words _ hv.word_count, lanes_eq_words _ hw.word_count]

/-- Settles O30: the lanes of a sound register are its words, and its words are its length and its bits. -/
theorem equalsComparesLengthAndBits : Obligations.EqualsComparesLengthAndBits := by
  refine fun va vb => ⟨layout_va_vb vb va 0x21, fun s h =>
    ⟨raises_uninitialised_pair exec_equals_eq, fun hva hvb => ?_⟩⟩
  have ha := sound_operand hva h.vregs_sound
  have hb := sound_operand hvb h.vregs_sound
  rw [exec_equals_eq, withVector_of_valid hva, withVector_of_valid hvb]
  refine (answers_completeRes _ s).imp ?_
  rintro t ⟨hres, hinto⟩
  have hone : t.res = 1 ↔ (s.vreg va).len = (s.vreg vb).len ∧ (s.vreg va).words = (s.vreg vb).words := by
    rw [← ha.sameVector_iff hb, hres]
    cases sameVector (s.vreg va) (s.vreg vb) <;> decide
  refine ⟨?_, hone, hone.trans (and_congr_right fun hlen => ha.words_eq_iff hb hlen), hinto⟩
  rw [hres]
  cases sameVector (s.vreg va) (s.vreg vb) <;> decide

/-- COUNT on a constructed register: its set indices, whose number RES can hold (00_scope.md R7). -/
theorem State.Inv.answers_count (h : s.Inv) (hv : (s.vreg va).valid = true) :
    Answers (exec (.count va) s) fun t =>
      t.res.toNat = (List.range (s.vreg va).len).countP (s.vreg va).bit ∧ IntoRes s t := by
  have hsound := sound_operand hv h.vregs_sound
  have hlt : (List.range (s.vreg va).len).countP (s.vreg va).bit < 2 ^ 32 := by
    have hcount : _ ≤ (List.range (s.vreg va).len).length := List.countP_le_length (p := (s.vreg va).bit)
    have hlen := hsound.len_le
    have hmaxlen := h.cfg_legal.maxlen_le
    rw [List.length_range] at hcount
    omega
  rw [exec_count_eq, withVector_of_valid hv, hsound.popcount_eq_countP]
  refine (answers_completeRes _ s).imp ?_
  rintro t ⟨hres, hinto⟩
  exact ⟨by rw [hres, BitVec.toNat_ofNat, Nat.mod_eq_of_lt hlt], hinto⟩

/-- Settles O32: the set indices, and the sum over the words that they are. -/
theorem countCountsSetIndices : Obligations.CountCountsSetIndices := by
  refine fun va => ⟨layout_va va 0x22, fun s h => ⟨raises_uninitialised exec_count_eq, fun hv => ?_⟩⟩
  have hsound := sound_operand hv h.vregs_sound
  have hwords : (List.range (s.vreg va).len).countP (s.vreg va).bit = ((s.vreg va).words.map popcount32).sum := by
    rw [← hsound.popcount_eq_countP, VReg.popcount, lanes_eq_words _ hsound.word_count]
  refine (h.answers_count hv).imp ?_
  rintro t ⟨hres, hinto⟩
  exact ⟨hres, hres.trans hwords, hinto⟩

/-- Settles O33: the complement of a sound register is sound, and bit by bit it is `bit_complement`. -/
theorem notComplementsAndMasks : Obligations.NotComplementsAndMasks := by
  refine fun va => ⟨layout_va va 0x23, fun s h => ⟨raises_uninitialised exec_vnot_eq, fun hv => ?_⟩⟩
  have hsound := sound_operand hv h.vregs_sound
  have hcomp : (s.vreg va).complement.Sound s.cfg.maxlen := sound_complement hsound
  rw [exec_vnot hv]
  refine (answers_completeVreg_of_valid hv _).imp ?_
  rintro t ⟨hreg, hinto⟩
  rw [hreg]
  refine ⟨hv, rfl, hcomp.word_count.trans hsound.word_count.symm, fun j hj => ?_, hcomp.padding, hinto⟩
  rw [VReg.complement, bit_complement, decide_eq_true hj, Bool.true_and]

/-! AND, OR and XOR -/

/-- The command checks two operands (42_whole_vector.md R155) and applies `f` to their lanes (R160), which is `g` on
their bits and leaves zero padding zero. -/
structure ActsLanewise (i : Instr) (va vb : VNum) (f : Word → Word → Word) (g : Bool → Bool → Bool) : Prop where
  exec_eq : ∀ s, exec i s = withPair va vb s fun a b => completeVreg va (lanewise f a b) s
  getLsbD_eq : ∀ (x y : Word) (p : Nat), p < 32 → (f x y).getLsbD p = g (x.getLsbD p) (y.getLsbD p)
  pad_eq : g false false = false

theorem vand_actsLanewise (va vb : VNum) : ActsLanewise (.vand va vb) va vb (fun x y => x &&& y) and :=
  ⟨fun _ => rfl, fun _ _ _ _ => BitVec.getLsbD_and, rfl⟩

theorem vor_actsLanewise (va vb : VNum) : ActsLanewise (.vor va vb) va vb (fun x y => x ||| y) or :=
  ⟨fun _ => rfl, fun _ _ _ _ => BitVec.getLsbD_or, rfl⟩

theorem vxor_actsLanewise (va vb : VNum) : ActsLanewise (.vxor va vb) va vb (fun x y => x ^^^ y) xor :=
  ⟨fun _ => rfl, fun _ _ _ _ => BitVec.getLsbD_xor, rfl⟩

theorem ActsLanewise.raises_uninitialised (hi : ActsLanewise i va vb f g)
    (hv : (s.vreg va).valid = false ∨ (s.vreg vb).valid = false) : Raises 5 i s :=
  raises_uninitialised_pair (hi.exec_eq s) hv

theorem ActsLanewise.raises_lengthMismatch (hi : ActsLanewise i va vb f g) (hva : (s.vreg va).valid = true)
    (hvb : (s.vreg vb).valid = true) (hlen : (s.vreg va).len ≠ (s.vreg vb).len) : Raises 2 i s := by
  have hexec := hi.exec_eq s
  rw [withPair, withVector_of_valid hva, withVector_of_valid hvb, if_neg hlen] at hexec
  exact raises_of_exec_eq hexec

theorem ActsLanewise.exec_of_len_eq (hi : ActsLanewise i va vb f g) (hva : (s.vreg va).valid = true)
    (hvb : (s.vreg vb).valid = true) (hlen : (s.vreg va).len = (s.vreg vb).len) :
    exec i s = completeVreg va (lanewise f (s.vreg va) (s.vreg vb)) s := by
  rw [hi.exec_eq, withPair, withVector_of_valid hva, withVector_of_valid hvb, if_pos hlen]

/-- The boolean function at every index, the padding included. -/
theorem ActsLanewise.bit_eq (hi : ActsLanewise i va vb f g) {maxlen : Nat} {a b : VReg} (ha : a.Sound maxlen)
    (hb : b.Sound maxlen) (hlen : a.len = b.len) (j : Nat) : (lanewise f a b).bit j = g (a.bit j) (b.bit j) := by
  by_cases hj : j < a.len
  · exact bit_lanewise f g a b hlen hi.getLsbD_eq j hj
  · have hge := Nat.le_of_not_lt hj
    have hsound := sound_lanewise f g hi.getLsbD_eq hi.pad_eq hlen ha hb
    rw [Sound.bit_high hsound hge, Sound.bit_high ha hge, Sound.bit_high hb (hlen ▸ hge), hi.pad_eq]

/-- Settles O34: each of the three acts lanewise, so one proof serves them. -/
theorem andOrXorActBitByBit : Obligations.AndOrXorActBitByBit := by
  refine fun va vb => ⟨layout_va_vb vb va 0x24, layout_va_vb vb va 0x25, layout_va_vb vb va 0x26, fun s h i g hig => ?_⟩
  obtain ⟨f, hi⟩ : ∃ f, ActsLanewise i va vb f g := by
    obtain ⟨rfl, rfl⟩ | ⟨rfl, rfl⟩ | ⟨rfl, rfl⟩ := hig
    · exact ⟨_, vand_actsLanewise va vb⟩
    · exact ⟨_, vor_actsLanewise va vb⟩
    · exact ⟨_, vxor_actsLanewise va vb⟩
  refine ⟨hi.raises_uninitialised, hi.raises_lengthMismatch, fun hva hvb hlen => ?_⟩
  have ha := sound_operand hva h.vregs_sound
  have hb := sound_operand hvb h.vregs_sound
  rw [hi.exec_of_len_eq hva hvb hlen]
  refine (answers_completeVreg_of_valid hva _).imp ?_
  rintro t ⟨hreg, hinto⟩
  rw [hreg]
  exact ⟨hva, rfl, (length_lanewise f _ _ hlen).trans ha.word_count.symm, hi.bit_eq ha hb hlen, hinto⟩

/-! COUNT after AND and after OR -/

theorem ActsLanewise.answers_execAll_count (hi : ActsLanewise i va vb f g) (h : s.Inv) (hva : (s.vreg va).valid = true)
    (hvb : (s.vreg vb).valid = true) (hlen : (s.vreg va).len = (s.vreg vb).len) :
    Answers (execAll [i, .count va] s) fun t =>
      t.res.toNat = (List.range (s.vreg va).len).countP fun j => g ((s.vreg va).bit j) ((s.vreg vb).bit j) := by
  have ha := sound_operand hva h.vregs_sound
  have hb := sound_operand hvb h.vregs_sound
  have hsound := sound_lanewise f g hi.getLsbD_eq hi.pad_eq hlen ha hb
  have hreg := vreg_completedVreg hva (lanewise f (s.vreg va) (s.vreg vb))
  have hinv : (s.completedVreg va (lanewise f (s.vreg va) (s.vreg vb))).Inv := h.wroteVreg hva hsound
  obtain ⟨t, ht, hres, -⟩ := hinv.answers_count (by rw [hreg]; exact hva)
  have hexec := hi.exec_of_len_eq hva hvb hlen
  rw [completeVreg_eq] at hexec
  refine ⟨t, by simp only [execAll, hexec, ht], ?_⟩
  beta_reduce
  rw [hres, hreg]
  exact List.countP_congr fun j _ => by rw [hi.bit_eq ha hb hlen]

/-- Settles O56: inclusion and exclusion over the indices below the common length. -/
theorem inclusionExclusionOfCounts : Obligations.InclusionExclusionOfCounts := by
  intro s va vb h hva hvb hlen
  refine ((vand_actsLanewise va vb).answers_execAll_count h hva hvb hlen).imp fun x hx => ?_
  refine ((vor_actsLanewise va vb).answers_execAll_count h hva hvb hlen).imp fun y hy => ?_
  refine (h.answers_count hva).imp fun a ha => ?_
  refine (h.answers_count hvb).imp fun b hb => ?_
  rw [hx, hy, ha.left, hb.left, ← hlen]
  exact countP_and_add_countP_or _ _ _

end Sys2Proof.Machine
end

section
/-! SUPPORT. The serialisation commands (43_serialization.md R180 to R184): each checks that its register is constructed
and emits one byte string, which the host then reads as the output. First what the six commands share, then those that
write bits and indices. -/

namespace Sys2Proof.Machine

variable {s t : State} {i : Instr} {va : VNum} {out : List Byte} {k : Nat}

/-! The output buffer -/

/-- Bytes above a written string read as before. -/
theorem read_writeAll_of_le {m : Memory} (hm : m.wf = true) (hk : out.length ≤ k) :
    (m.writeAll 0 out).read k = m.read k := by
  rw [read_writeAll m 0 k out hm, if_neg (by omega)]

/-- A length that OBUF holds is one that OLEN holds (00_scope.md R9). -/
theorem State.Inv.toNat_ofNat_of_le_obufCap (h : s.Inv) {n : Nat} (hn : n ≤ s.cfg.obufCap) :
    (BitVec.ofNat 32 n).toNat = n := by
  have hcap := h.cfg_legal.obuf_le
  rw [BitVec.toNat_ofNat, Nat.mod_eq_of_lt (by omega)]

@[simp] theorem State.length_output (s : State) : s.output.length = s.olen.toNat := readAll_length _ _ _

theorem olen_of_output_eq (h : t.output = out) : t.olen.toNat = out.length := by rw [← h, t.length_output]

theorem read_obuf_of_output_eq (h : t.output = out) (hk : k < out.length) : t.obuf.read k = out.getD k 0#8 := by
  rw [← olen_of_output_eq h] at hk
  rw [← h, State.output, readAll_getD _ _ _ _ hk, Nat.zero_add]

/-- An output that fits OBUF is what the host reads, and the rest is framed (43_serialization.md R180). -/
theorem State.Inv.answers_emit (h : s.Inv) (hfit : out.length ≤ s.cfg.obufCap) :
    Answers (emit out s) fun t => t.output = out ∧ IntoOutput s t := by
  have holen := h.toNat_ofNat_of_le_obufCap hfit
  refine ⟨_, emit_next.mpr ⟨hfit, rfl⟩, ?_, rfl, fun k hk => ?_⟩
  · rw [State.output, holen]
    exact readAll_writeAll _ _ _ h.obuf_within.canonical
  · exact read_writeAll_of_le h.obuf_within.canonical (holen.symm.trans_le hk)

/-! The frame -/

/-- A serialisation command has no destination register and is in neither of the other two classes. -/
theorem classes_of_serialises (hs : i.serialises = true) :
    i.dest = none ∧ i.writesRes = false ∧ i.iterates = false := by
  cases i <;> simp [Instr.serialises] at hs <;> exact ⟨rfl, rfl, rfl⟩

/-- No command changes a byte of OBUF at the OLEN it leaves or above, whatever it does (43_serialization.md R180). -/
theorem Effect.read_obuf_of_olen_le (h : Effect i s t) (hinv : s.Inv) (hk : t.olen.toNat ≤ k) :
    t.obuf.read k = s.obuf.read k := by
  cases h with
  | emitted out _ hfit =>
    rw [hinv.toNat_ofNat_of_le_obufCap hfit] at hk
    exact read_writeAll_of_le hinv.obuf_within.canonical hk
  | _ => rfl

/-- Settles O45, from what an effect keeps, since a serialisation command is in no other class. -/
theorem serialisersFrame : Obligations.SerialisersFrame := by
  intro i s t hinv hs h
  have he := exec_effect h
  obtain ⟨hdest, hres, hiter⟩ := classes_of_serialises hs
  obtain ⟨hcfg, hibuf, hilen, hops, hreads⟩ := he.keeps_inputs
  obtain ⟨hitpos, hsame⟩ := he.iterator_eq hiter
  refine ⟨he.vreg_of_dest_none hdest, hcfg, he.res_eq (.inl hres), hitpos, hilen, fun _ => hibuf ▸ rfl, hops, hreads,
    hsame, he.stickyErrseen, fun _ k => he.read_obuf_of_olen_le hinv, fun herr => ?_⟩
  obtain ⟨e, rfl⟩ := he.raised_of_err_ne_zero herr
  exact ⟨rfl, fun _ => rfl⟩

/-! What each command runs -/

/-- The command checks that V[va] is constructed and emits the string `f` of it, which fits every legal OBUF
(43_serialization.md R180, 00_scope.md R9). -/
structure Emits (i : Instr) (va : VNum) (f : VReg → List Byte) : Prop where
  exec_eq : ∀ s, exec i s = withVector va s fun v => emit (f v) s
  fits : ∀ (c : Config) (v : VReg), c.Legal → v.len ≤ c.maxlen → (f v).length ≤ c.obufCap

theorem toarray_emits (va : VNum) : Emits (.toarray va) va arrayBytes :=
  ⟨fun _ => rfl, fun c v hc hv => let ⟨hfit, _⟩ := outputs_fit c hc v hv; hfit⟩

theorem tointarray_emits (va : VNum) : Emits (.tointarray va) va intArrayBytes :=
  ⟨fun _ => rfl, fun c v hc hv => let ⟨_, hfit, _⟩ := outputs_fit c hc v hv; hfit⟩

theorem tostring_emits (va : VNum) : Emits (.tostring va) va stringBytes :=
  ⟨fun _ => rfl, fun c v hc hv => let ⟨_, _, hfit, _⟩ := outputs_fit c hc v hv; hfit⟩

theorem tobinstr_emits (va : VNum) : Emits (.tobinstr va) va binStringBytes :=
  ⟨fun _ => rfl, fun c v hc hv => let ⟨_, _, _, hfit, _⟩ := outputs_fit c hc v hv; hfit⟩

theorem tohex_emits (va : VNum) : Emits (.tohex va) va hexBytes :=
  ⟨fun _ => rfl, fun c v hc hv => let ⟨_, _, _, _, hfit, _⟩ := outputs_fit c hc v hv; hfit⟩

theorem tojson_emits (va : VNum) : Emits (.tojson va) va jsonBytes :=
  ⟨fun _ => rfl, fun c v hc hv => let ⟨_, _, _, _, _, hfit⟩ := outputs_fit c hc v hv; hfit⟩

theorem Emits.raises_uninitialised {f : VReg → List Byte} (hi : Emits i va f) (hv : (s.vreg va).valid = false) :
    Raises 5 i s :=
  Machine.raises_uninitialised (hi.exec_eq s) hv

/-- On a constructed register the output is the command's string of it. -/
theorem Emits.answers {f : VReg → List Byte} (hi : Emits i va f) (h : s.Inv) (hv : (s.vreg va).valid = true) :
    Answers (exec i s) fun t => t.output = f (s.vreg va) ∧ IntoOutput s t := by
  rw [hi.exec_eq, withVector_of_valid hv]
  exact h.answers_emit (hi.fits _ _ h.cfg_legal (sound_operand hv h.vregs_sound).len_le)

/-! One byte per bit: TOARRAY, TOSTRING and TOBINSTR -/

theorem getD_arrayBytes {v : VReg} (hk : k < v.len) :
    (arrayBytes v).getD k 0#8 = if v.bit k then 0x01#8 else 0x00#8 := by
  simp [arrayBytes, VReg.bits, hk]

theorem getD_stringBytes {v : VReg} (hk : k < v.len) :
    (stringBytes v).getD k 0#8 = if v.bit k then chOne else chZero := by
  simp [stringBytes, VReg.bits, hk]

theorem getD_binStringBytes {v : VReg} (hk : k < v.len) :
    (binStringBytes v).getD k 0#8 = if v.bit (v.len - 1 - k) then chOne else chZero := by
  simp [binStringBytes, hk]

/-- TOBINSTR reverses TOSTRING (43_serialization.md R184). -/
theorem binStringBytes_eq_reverse (v : VReg) : binStringBytes v = (stringBytes v).reverse := by
  refine List.ext_getElem (by simp) fun k hbin hstr => ?_
  simp [binStringBytes, stringBytes, VReg.bits]

/-- Settles O35: the output is `arrayBytes`, read byte by byte. -/
theorem toarrayWritesBooleans : Obligations.ToarrayWritesBooleans := by
  refine fun va => ⟨layout_va va 0x30, fun s h => ⟨(toarray_emits va).raises_uninitialised, fun hv => ?_⟩⟩
  refine ((toarray_emits va).answers h hv).imp ?_
  rintro t ⟨hout, hinto⟩
  refine ⟨(olen_of_output_eq hout).trans (length_arrayBytes _), fun k hk => ?_, hinto⟩
  rw [read_obuf_of_output_eq hout (by rwa [length_arrayBytes]), getD_arrayBytes hk]

/-- Settles O37: the outputs are `stringBytes` and `binStringBytes`, one the reverse of the other. -/
theorem bitStringsInBothOrders : Obligations.BitStringsInBothOrders := by
  refine fun va => ⟨layout_va va 0x32, layout_va va 0x33, fun s h => ⟨fun hv =>
    ⟨(tostring_emits va).raises_uninitialised hv, (tobinstr_emits va).raises_uninitialised hv⟩, fun hv => ?_⟩⟩
  have hbin := (tobinstr_emits va).answers h hv
  constructor
  · refine ((tostring_emits va).answers h hv).imp ?_
    rintro t ⟨hout, hinto⟩
    refine ⟨(olen_of_output_eq hout).trans (length_stringBytes _), fun k hk => ?_, hinto, hbin.imp ?_⟩
    · rw [read_obuf_of_output_eq hout (by rwa [length_stringBytes])]
      exact getD_stringBytes hk
    · rintro u ⟨hrev, -⟩
      rw [hrev, hout, binStringBytes_eq_reverse]
  · refine hbin.imp ?_
    rintro t ⟨hout, hinto⟩
    refine ⟨(olen_of_output_eq hout).trans (length_binStringBytes _), fun k hk => ?_, hinto⟩
    rw [read_obuf_of_output_eq hout (by rwa [length_binStringBytes])]
    exact getD_binStringBytes hk

/-! Four bytes per index: TOINTARRAY -/

/-- Element `b` of the piece of element `m`, where every piece has `n` elements. -/
theorem getD_flatMap {α β : Type} {f : α → List β} {n : Nat} (hf : ∀ x, (f x).length = n) {l : List α} {m b : Nat}
    (hm : m < l.length) (hb : b < n) (x : α) (y : β) :
    (l.flatMap f).getD (n * m + b) y = (f (l.getD m x)).getD b y := by
  induction l generalizing m with
  | nil => exact absurd hm (Nat.not_lt_zero m)
  | cons a l ih =>
    rw [List.flatMap_cons]
    cases m with
    | zero => rw [Nat.mul_zero, Nat.zero_add, List.getD_append _ _ _ _ (by rwa [hf]), List.getD_cons_zero]
    | succ m =>
      have hge : (f a).length ≤ n * (m + 1) + b := by rw [hf, Nat.mul_succ]; omega
      have hsub : n * (m + 1) + b - (f a).length = n * m + b := by rw [hf, Nat.mul_succ]; omega
      rw [List.getD_append_right _ _ _ _ hge, hsub, ih (Nat.lt_of_succ_lt_succ hm), List.getD_cons_succ]

/-- Byte `b` of an index, the least significant first (20_memory.md R51). -/
theorem toNat_getD_indexBytes (n : Nat) {b : Nat} (hb : b < 4) :
    ((indexBytes n).getD b 0#8).toNat = n / 2 ^ (8 * b) % 2 ^ 8 := by
  match b with
  | 0 => simp [indexBytes]
  | 1 => simp [indexBytes]
  | 2 => simp [indexBytes]
  | 3 => simp [indexBytes]

/-- Settles O36: the output is `intArrayBytes`, four bytes of each set index. -/
theorem tointarrayWritesIndices : Obligations.TointarrayWritesIndices := by
  refine fun va => ⟨layout_va va 0x31, fun s h => ⟨(tointarray_emits va).raises_uninitialised, fun hv => ?_⟩⟩
  refine ((tointarray_emits va).answers h hv).imp ?_
  rintro t ⟨hout, hinto⟩
  have hlen := length_intArrayBytes (s.vreg va)
  refine ⟨(olen_of_output_eq hout).trans hlen, fun m b (hm : m < (s.vreg va).indices.length) hb => ?_, hinto⟩
  rw [read_obuf_of_output_eq hout (by omega), intArrayBytes, getD_flatMap length_indexBytes hm hb 0,
    toNat_getD_indexBytes _ hb]
  rfl

end Sys2Proof.Machine
end

section
/-! SUPPORT. TOHEX and TOJSON (43_serialization.md R185, R186): the digits of a word and the numeral of a word, and the
texts that they make up. -/

namespace Sys2Proof.Machine

/-! The hex text -/

/-- The eight digits of a word, the most significant first (43_serialization.md R185). -/
def wordDigits (w : Word) : List (BitVec 4) := (List.range 8).map fun k => w.extractLsb' (4 * (7 - k)) 4

@[simp] theorem length_wordDigits (w : Word) : (wordDigits w).length = 8 := by simp [wordDigits]

theorem wordHexChars_eq (w : Word) : wordHexChars w = (wordDigits w).map hexChar := by
  rw [wordHexChars, wordDigits, List.map_map]
  rfl

theorem toNat_hexChar (d : BitVec 4) :
    (hexChar d).toNat = if d.toNat < 10 then 0x30 + d.toNat else 0x61 + (d.toNat - 10) := by
  revert d
  decide

/-- The character at place `k` of a word, counted from the least significant digit. -/
theorem toNat_getD_wordHexChars (w : Word) {k : Nat} (hk : k < 8) :
    ((wordHexChars w).getD (7 - k) 0#8).toNat =
      if w.toNat / 16 ^ k % 16 < 10 then 0x30 + w.toNat / 16 ^ k % 16 else 0x61 + (w.toNat / 16 ^ k % 16 - 10) := by
  have hchar : (wordHexChars w).getD (7 - k) 0#8 = hexChar (w.extractLsb' (4 * (7 - (7 - k))) 4) := by
    simp [wordHexChars, show 7 - k < 8 by omega]
  have hdigit : (w.extractLsb' (4 * (7 - (7 - k))) 4).toNat = w.toNat / 16 ^ k % 16 := by
    rw [BitVec.extractLsb'_toNat, Nat.shiftRight_eq_div_pow, Nat.sub_sub_self (Nat.le_of_lt_succ hk), Nat.pow_mul]
  rw [hchar, toNat_hexChar, hdigit]

/-- Settles O38: the output is `hexBytes`, eight characters of each word. -/
theorem tohexWritesWords : Obligations.TohexWritesWords := by
  refine fun va => ⟨layout_va va 0x34, fun s h => ⟨(tohex_emits va).raises_uninitialised, fun hv => ?_⟩⟩
  refine ((tohex_emits va).answers h hv).imp ?_
  rintro t ⟨hout, hinto⟩
  have hlen := length_hexBytes (s.vreg va)
  refine ⟨(olen_of_output_eq hout).trans hlen, fun j k (hj : j < wordCount (s.vreg va).len) hk => ?_, hinto⟩
  have hlanes : j < (s.vreg va).lanes.length := hj.trans_eq (length_lanes _).symm
  rw [read_obuf_of_output_eq hout (by omega), hexBytes, getD_flatMap length_wordHexChars hlanes (by omega) 0#32,
    getD_lanes _ _ hj]
  exact toNat_getD_wordHexChars _ hk

/-! The JSON text -/

/-- The digit character of a number below 10 (00_scope.md R11). -/
theorem decDigit_ofNat {n : Nat} (hn : n < 10) : decDigit (BitVec.ofNat 8 (chZero.toNat + n)) = some n := by
  rw [decDigit_eq_some_iff]
  simp only [chZero]
  bv_omega

theorem isNumeral_singleton {ch : Byte} {w : Word} : IsNumeral [ch] w ↔ decDigit ch = some w.toNat := by
  simp [isNumeral_cons, numeralRest_nil]

/-- A numeral of a number other than zero, and one more digit. -/
theorem IsNumeral.append_digit {u : List Byte} {w w' : Word} {ch : Byte} {d : Nat} (h : IsNumeral u w)
    (hne : w.toNat ≠ 0) (hch : decDigit ch = some d) (hw : w'.toNat = 10 * w.toNat + d) : IsNumeral (u ++ [ch]) w' := by
  cases u with
  | nil => exact absurd rfl h.ne_nil
  | cons c u =>
    obtain ⟨n, hc, hdigits, hlead, hvalue⟩ := isNumeral_cons.mp h
    obtain ⟨hrange, rfl⟩ := decDigit_eq_some_iff.mp hch
    rw [List.cons_append, isNumeral_cons]
    refine ⟨n, hc, List.forall_mem_append.mpr ⟨hdigits, List.forall_mem_singleton.mpr hrange⟩, fun hn => ?_, ?_⟩
    · rw [hlead hn, hn] at hvalue
      exact absurd hvalue.symm hne
    · rw [List.foldl_append, hvalue, hw]
      rfl

/-- The numeral that the fuel admits is one of the grammar (43_serialization.md R186). -/
theorem isNumeral_decNumeral {fuel : Nat} {w : Word} (hw : w.toNat < 10 ^ (fuel + 1)) :
    IsNumeral (decNumeral (fuel + 1) w.toNat) w := by
  induction fuel generalizing w with
  | zero =>
    have hsmall : w.toNat < 10 := hw
    rw [decNumeral, if_pos hsmall, isNumeral_singleton]
    exact decDigit_ofNat hsmall
  | succ fuel ih =>
    rw [decNumeral]
    split
    next hsmall =>
      rw [isNumeral_singleton]
      exact decDigit_ofNat hsmall
    next hbig =>
      have htens : (w / 10#32).toNat = w.toNat / 10 := BitVec.toNat_udiv
      have hrec : IsNumeral (decNumeral (fuel + 1) (w.toNat / 10)) (w / 10#32) := by
        rw [← htens]
        exact ih (by rw [htens, Nat.div_lt_iff_lt_mul (by decide), ← Nat.pow_succ]; exact hw)
      exact hrec.append_digit (by omega) (decDigit_ofNat (Nat.mod_lt _ (by decide))) (by omega)

/-- A word has at most ten digits (43_serialization.md R186). -/
theorem isNumeral_decChars (w : Word) : IsNumeral (decChars w) w := isNumeral_decNumeral (by omega)

theorem jsonItems_eq_intercalate (ws : List Word) : jsonItems ws = List.intercalate [chComma] (ws.map decChars) := by
  induction ws with
  | nil => rfl
  | cons w ws ih =>
    cases ws with
    | nil => simp [jsonItems]
    | cons x ws =>
      rw [jsonItems, ih]
      · simp
      · simp

theorem isJsonText_jsonText (ws : List Word) : IsJsonText (jsonText ws) ws := by
  refine ⟨ws.map decChars, List.forall₂_map_left_iff.mpr (List.forall₂_same.mpr fun w _ => isNumeral_decChars w), ?_⟩
  rw [jsonText, jsonItems_eq_intercalate]
  rfl

/-- The lanes of a sound register are its words (10_state.md R23). -/
theorem VReg.Sound.isJsonText_jsonBytes {maxlen : Nat} {v : VReg} (h : v.Sound maxlen) :
    IsJsonText (jsonBytes v) v.words := by
  rw [jsonBytes, lanes_eq_words v h.word_count]
  exact isJsonText_jsonText _

/-- Settles O39: the output is `jsonBytes`, a text of the grammar for the words. -/
theorem tojsonWritesTheCanonicalText : Obligations.TojsonWritesTheCanonicalText := by
  refine fun va => ⟨layout_va va 0x35, fun s h => ⟨(tojson_emits va).raises_uninitialised, fun hv => ?_⟩⟩
  refine ((tojson_emits va).answers h hv).imp ?_
  rintro t ⟨hout, hinto⟩
  have hlen := length_jsonText_le (s.vreg va).lanes
  rw [length_lanes] at hlen
  exact ⟨hout ▸ (sound_operand hv h.vregs_sound).isJsonText_jsonBytes, (olen_of_output_eq hout).trans_le hlen, hinto⟩

end Sys2Proof.Machine
end

section
/-! SUPPORT. The serialised texts parsed again (43_serialization.md R187, R188): the digits of a word and the word of
eight digits are inverse, and the register that the parse of an output places is the one it is the output of. -/

namespace Sys2Proof.Machine

variable {maxlen : Nat} {v w : VReg}

/-! A word and its digits -/

/-- A digit after digits, in a word. -/
theorem setWidth_shiftLeft_or_setWidth {n : Nat} (x : BitVec n) (d : BitVec 4) :
    (x.setWidth 32 <<< 4) ||| d.setWidth 32 = (x ++ d).setWidth 32 := by
  ext p hp
  by_cases hlow : p < 4
  · simp [hlow, BitVec.getLsbD_append]
  · simp [hlow, BitVec.getLsbD_append, BitVec.getLsbD_of_ge d p (Nat.le_of_not_lt hlow)]

theorem digitsWord_nibbles (x : Fin 8 → BitVec 4) :
    digitsWord [x 7, x 6, x 5, x 4, x 3, x 2, x 1, x 0] = nibbles x := by
  have hfirst : (0#32 <<< 4) ||| (x 7).setWidth 32 = (x 7).setWidth 32 := by simp
  simp only [digitsWord, List.foldl_cons, List.foldl_nil, hfirst, setWidth_shiftLeft_or_setWidth]
  exact BitVec.setWidth_eq _

/-- Digit `j` of a word, counted from the least significant: the digits above it and below it fall away. -/
theorem extractLsb'_nibbles (x : Fin 8 → BitVec 4) (j : Fin 8) : (nibbles x).extractLsb' (4 * j) 4 = x j := by
  apply BitVec.eq_of_toNat_eq
  rw [BitVec.extractLsb'_toNat, Nat.shiftRight_eq_div_pow, nibbles]
  simp only [toNat_append_eq]
  fin_cases j <;> simp <;> omega

theorem wordDigits_nibbles (x : Fin 8 → BitVec 4) :
    wordDigits (nibbles x) = [x 7, x 6, x 5, x 4, x 3, x 2, x 1, x 0] :=
  calc wordDigits (nibbles x)
      = [7, 6, 5, 4, 3, 2, 1, 0].map fun j : Fin 8 => (nibbles x).extractLsb' (4 * j) 4 := rfl
    _ = [x 7, x 6, x 5, x 4, x 3, x 2, x 1, x 0] := by
      simp only [extractLsb'_nibbles, List.map_cons, List.map_nil]

theorem digitsWord_wordDigits (w : Word) : digitsWord (wordDigits w) = w := by
  obtain ⟨x, rfl⟩ := exists_eq_nibbles w
  rw [wordDigits_nibbles, digitsWord_nibbles]

theorem wordDigits_digitsWord {ds : List (BitVec 4)} (h : ds.length = 8) : wordDigits (digitsWord ds) = ds := by
  match ds, h with
  | [a, b, c, d, e, f, g, i], _ =>
    have hdigits := digitsWord_nibbles ![i, g, f, e, d, c, b, a]
    exact (congrArg wordDigits hdigits).trans (wordDigits_nibbles _)

/-! Words and their digits -/

theorem groupWords_succ (n : Nat) (p : List (BitVec 4)) :
    groupWords (n + 1) p = digitsWord (p.take 8) :: groupWords n (p.drop 8) := by
  rw [groupWords, List.range_succ_eq_map, List.map_cons, List.map_map, groupWords]
  congr 1
  refine List.map_congr_left fun j _ => ?_
  rw [Function.comp_apply, Nat.mul_succ, List.drop_drop, Nat.add_comm]

theorem groupWords_flatMap_wordDigits (ws : List Word) : groupWords ws.length (ws.flatMap wordDigits) = ws := by
  induction ws with
  | nil => rfl
  | cons w ws ih =>
    have hlen := length_wordDigits w
    rw [List.length_cons, groupWords_succ, List.flatMap_cons, List.take_left' hlen, List.drop_left' hlen,
      digitsWord_wordDigits, ih]

theorem flatMap_wordDigits_groupWords {n : Nat} {p : List (BitVec 4)} (hp : p.length = 8 * n) :
    (groupWords n p).flatMap wordDigits = p := by
  induction n generalizing p with
  | zero => exact (List.length_eq_zero_iff.mp hp).symm
  | succ n ih =>
    have htake : (p.take 8).length = 8 := by rw [List.length_take]; omega
    have hdrop : (p.drop 8).length = 8 * n := by rw [List.length_drop]; omega
    rw [groupWords_succ, List.flatMap_cons, wordDigits_digitsWord htake, ih hdrop, List.take_append_drop]

theorem length_flatMap_wordDigits (ws : List Word) : (ws.flatMap wordDigits).length = 8 * ws.length := by
  simp [Nat.mul_comm]

/-- The digits of words are placed in these words (40_construction.md R102). -/
theorem placedWords_flatMap_wordDigits (ws : List Word) : placedWords ws.length (ws.flatMap wordDigits) = ws := by
  have hlen := length_flatMap_wordDigits ws
  have hgroup := groupWords_eq_placedWords hlen.le
  rw [hlen, Nat.sub_self, List.replicate_zero, List.nil_append, groupWords_flatMap_wordDigits] at hgroup
  exact hgroup.symm

/-- The digits of placed words are the digits that were placed, with zeros before them (40_construction.md R102). -/
theorem flatMap_wordDigits_placedWords {n : Nat} {d : List (BitVec 4)} (hd : d.length ≤ 8 * n) :
    (placedWords n d).flatMap wordDigits = List.replicate (8 * n - d.length) 0#4 ++ d := by
  rw [← groupWords_eq_placedWords hd]
  refine flatMap_wordDigits_groupWords ?_
  rw [List.length_append, List.length_replicate, Nat.sub_add_cancel hd]

/-! Hex characters -/

theorem isHexDigit_hexChar (d : BitVec 4) : IsHexDigit (hexChar d) d := by
  rw [← hexDigit_eq_some_iff]
  revert d
  decide

/-- The character TOHEX writes for a digit is the one read, in lower case (43_serialization.md R187). -/
theorem IsHexDigit.lowerHex_eq {ch : Byte} {d : BitVec 4} (h : IsHexDigit ch d) : lowerHex ch = hexChar d := by
  apply BitVec.eq_of_toNat_eq
  rw [toNat_hexChar, lowerHex]
  rcases h with ⟨hlo, hhi, hd⟩ | ⟨hlo, hhi, hd⟩ | ⟨hlo, hhi, hd⟩
  · rw [if_neg (by omega), if_pos (by omega)]
    omega
  · rw [if_neg (by omega), if_neg (by omega)]
    omega
  · rw [if_pos ⟨hlo, hhi⟩, if_neg (by omega)]
    bv_omega

theorem map_lowerHex_eq {u : List Byte} {d : List (BitVec 4)} (h : List.Forall₂ IsHexDigit u d) :
    u.map lowerHex = d.map hexChar := by
  induction h with
  | nil => rfl
  | cons hch _ ih => rw [List.map_cons, List.map_cons, hch.lowerHex_eq, ih]

/-- A text of digits does not begin with "0x", since 'x' is no digit (40_construction.md R101). -/
theorem not_hexPrefixed_of_forall₂ {u : List Byte} {d : List (BitVec 4)} (h : List.Forall₂ IsHexDigit u d) :
    ¬∃ u', HexPrefixed u u' := by
  rintro ⟨u', rfl | rfl⟩
  all_goals
    obtain _ | ⟨-, _ | ⟨hx, -⟩⟩ := h
    simp [IsHexDigit] at hx

/-! The outputs parsed again -/

theorem VReg.make_of_valid (hv : v.valid = true) : VReg.make v.len v.words = v := by rw [VReg.make, ← hv]

theorem VReg.Sound.fitsLength (h : v.Sound maxlen) : FitsLength v.len v.words :=
  fitsLength_iff.mpr ⟨h.word_count, padClear_iff_padBits.mpr h.padding⟩

theorem hexBytes_eq (v : VReg) : hexBytes v = (v.lanes.flatMap wordDigits).map hexChar := by
  rw [hexBytes, List.map_flatMap]
  exact congrArg v.lanes.flatMap (funext wordHexChars_eq)

theorem parseHex_hexBytes (hlen : 0 < v.len) : parseHex (hexBytes v) = some (v.lanes.flatMap wordDigits) := by
  have hdigits : List.Forall₂ IsHexDigit (hexBytes v) (v.lanes.flatMap wordDigits) := by
    rw [hexBytes_eq, List.forall₂_map_left_iff, List.forall₂_same]
    exact fun d _ => isHexDigit_hexChar d
  rw [parseHex_eq_some_iff, stripHexPrefix_of_not_prefixed (not_hexPrefixed_of_forall₂ hdigits)]
  refine ⟨List.ne_nil_of_length_pos ?_, hdigits⟩
  rw [length_flatMap_wordDigits, length_lanes, wordCount]
  omega

/-- The hex text of a vector that is not empty gives the vector at its length (43_serialization.md R187). -/
theorem VReg.Sound.place_hexBytes (h : v.Sound maxlen) (hv : v.valid = true) (hlen : 0 < v.len) :
    ((parseHex (hexBytes v)).bind fun d => placeHex d v.len) = some v := by
  have hplaced : placedWords (wordCount v.len) (v.words.flatMap wordDigits) = v.words := by
    rw [← h.word_count, placedWords_flatMap_wordDigits]
  rw [parseHex_hexBytes hlen, Option.bind_some, lanes_eq_words v h.word_count, placeHex_eq_some_iff, hplaced,
    VReg.make_of_valid hv]
  exact ⟨by rw [length_flatMap_wordDigits, h.word_count], h.fitsLength, rfl⟩

/-- The JSON text of a vector gives the vector at its length (43_serialization.md R188). -/
theorem VReg.Sound.place_jsonBytes (h : v.Sound maxlen) (hv : v.valid = true) :
    ((parseJson (jsonBytes v)).bind fun ws => placeJson ws v.len) = some v :=
  parseJson_bind_placeJson_iff.mpr ⟨v.words, h.isJsonText_jsonBytes, h.fitsLength, (VReg.make_of_valid hv).symm⟩

theorem boolsOfBytes_arrayBytes (v : VReg) : boolsOfBytes (arrayBytes v) = some v.bits := by
  rw [boolsOfBytes_eq_some_iff, arrayBytes]
  constructor
  · simp only [List.mem_map, forall_exists_index, and_imp]
    rintro _ b - rfl
    cases b
    · exact .inl rfl
    · exact .inr rfl
  · rw [List.map_map]
    exact (List.map_id'' (fun b => by cases b <;> rfl) _).symm

/-- Sound registers of one length with the same bits below it are one register. -/
theorem VReg.Sound.eq_of_bit_eq (hv : v.Sound maxlen) (hw : w.Sound maxlen) (hvalid : v.valid = w.valid)
    (hlen : v.len = w.len) (hbit : ∀ k, k < v.len → v.bit k = w.bit k) : v = w := by
  have hwords := (hv.words_eq_iff hw hlen).mpr hbit
  cases v
  cases w
  simp_all

/-- The boolean array of a vector gives the vector (43_serialization.md R181, 40_construction.md R107). -/
theorem VReg.Sound.place_arrayBytes (h : v.Sound maxlen) (hv : v.valid = true) :
    (boolsOfBytes (arrayBytes v)).map placeBools = some v := by
  have hlen : v.bits.length = v.len := length_bits v
  rw [boolsOfBytes_arrayBytes, Option.map_some, Option.some.injEq]
  refine (placeBools_sound v.bits (hlen.trans_le h.len_le)).eq_of_bit_eq h hv.symm hlen fun k hk => ?_
  rw [bit_placeBools, bits_getD v k (hlen ▸ hk)]

end Sys2Proof.Machine
end

section
/-! SUPPORT. The round trips (43_serialization.md R181, R187, R188): a serialisation command leaves its text as the
output, and the construction command that reads this text places the register that the text gives. -/

namespace Sys2Proof.Machine

variable {s t u : State} {i : Instr} {va vb : VNum}

/-! One command after another -/

theorem Emits.output_of_next {f : VReg → List Byte} (hi : Emits i va f) (h : s.Inv) (hv : (s.vreg va).valid = true)
    (hexec : exec i s = .next t) : t.output = f (s.vreg va) := by
  obtain ⟨t', ht', hout, -⟩ := hi.answers h hv
  cases hexec.symm.trans ht'
  exact hout

/-- The length of a constructed register as an immediate (00_scope.md R7). -/
theorem State.Inv.toNat_ofNat_len (h : s.Inv) (hv : (s.vreg va).valid = true) :
    (BitVec.ofNat 32 (s.vreg va).len).toNat = (s.vreg va).len := by
  have hlen := (sound_operand hv h.vregs_sound).len_le
  have hmaxlen := h.cfg_legal.maxlen_le
  rw [BitVec.toNat_ofNat, Nat.mod_eq_of_lt (by omega)]

theorem IntoVector.err_eq_zero (h : IntoVector va s t) : t.status.err = 0 := by
  obtain ⟨-, ht⟩ := h
  rw [ht]

/-- A command that writes the register its text gives completes with ERR 0 (60_exceptions.md R212). -/
theorem State.Inv.answers_rebuild (h : u.Inv) {x : Option VReg} {v : VReg}
    (hexec : exec i u = orFormatError x u fun v => completeVreg vb v u) (hx : x = some v) (hvb : vb.toNat < u.cfg.nv) :
    Answers (exec i u) fun t => t.status.err = 0 ∧ t.vreg vb = v := by
  refine (h.answers_construct hexec hx hvb).imp ?_
  rintro t ⟨hreg, hinto⟩
  exact ⟨hinto.err_eq_zero, hreg⟩

/-! TOARRAY, then FROMARRAY -/

/-- Settles O54: the length is that of the array, which the register had. -/
theorem booleanArrayRoundTrip : Obligations.BooleanArrayRoundTrip := by
  intro s t u va vb h hv hexec hu hcfg hin hvb
  have hsound := sound_operand hv h.vregs_sound
  rw [(toarray_emits va).output_of_next h hv hexec] at hin
  have hilen : u.ilen.toNat = (s.vreg va).len := by
    rw [← length_arrayBytes, ← hin, State.input, readAll_length]
  have hle : u.ilen.toNat ≤ u.cfg.maxlen := by
    rw [hilen, hcfg]
    exact hsound.len_le
  exact hu.answers_rebuild (exec_fromarray hu hle) (hin ▸ hsound.place_arrayBytes hv) hvb

/-! TOJSON, then FROMJSON -/

/-- FROMJSON on the JSON text of a sound register, with its length as the immediate. -/
theorem State.Inv.answers_fromjson (h : u.Inv) {v : VReg} {imm : Word} (hsound : v.Sound u.cfg.maxlen)
    (hv : v.valid = true) (himm : imm.toNat = v.len) (hin : u.input = jsonBytes v) (hvb : vb.toNat < u.cfg.nv) :
    Answers (exec (.fromjson vb imm) u) fun t => t.status.err = 0 ∧ t.vreg vb = v := by
  refine h.answers_rebuild (exec_fromjson h (himm.trans_le hsound.len_le)) ?_ hvb
  rw [hin, himm]
  exact hsound.place_jsonBytes hv

/-- Settles O53: the output is the JSON text of the register. -/
theorem jsonRoundTrip : Obligations.JsonRoundTrip := by
  intro s t u va vb h hv hexec hu hcfg hin hvb
  rw [(tojson_emits va).output_of_next h hv hexec] at hin
  exact hu.answers_fromjson (hcfg ▸ sound_operand hv h.vregs_sound) hv (h.toNat_ofNat_len hv) hin hvb

/-! FROMHEX, then TOHEX -/

/-- FROMHEX that completes has parsed its text and placed the digits. -/
theorem State.Inv.fromhex_completed (h : s.Inv) (hva : va.toNat < s.cfg.nv) (hexec : exec (.fromhex va) s = .next t)
    (herr : t.status.err = 0) :
    ∃ d, parseHex s.input = some d ∧
      t.vreg va = VReg.make (impliedLength d.length) (placedWords (wordCount (4 * d.length)) d) := by
  cases hd : parseHex s.input with
  | none =>
    rw [exec, execFromhex, h.withInput_eq, hd, orFormatError_none, raise_next] at hexec
    subst hexec
    exact absurd herr (errCode_ne_zero .format)
  | some d =>
    rw [exec_fromhex h hd, placeHex_impliedLength, orFormatError_some, withCapacity_next, completeVreg_next] at hexec
    obtain ⟨-, rfl⟩ | ⟨-, rfl⟩ := hexec
    · exact ⟨d, rfl, vreg_setVreg_same s va _ (h.vreg_count ▸ hva)⟩
    · exact absurd herr (errCode_ne_zero .capacity)

/-- The hex text of the register that FROMHEX makes of the digits of `u` (43_serialization.md R187). -/
theorem hexBytes_fromhex {u : List Byte} {d : List (BitVec 4)} (h : List.Forall₂ IsHexDigit u d) :
    hexBytes (VReg.make (impliedLength d.length) (placedWords (wordCount (4 * d.length)) d)) =
      List.replicate (8 * ((u.length + 7) / 8) - u.length) 0x30#8 ++ u.map lowerHex := by
  have hcount : wordCount (4 * d.length) = (d.length + 7) / 8 := by rw [wordCount]; omega
  have hlanes := lanes_eq_words (VReg.make (impliedLength d.length) (placedWords (wordCount (4 * d.length)) d))
    ((length_placedWords _ d).trans (wordCount_implied _).symm)
  rw [hexBytes_eq, hlanes, VReg.make, flatMap_wordDigits_placedWords (by omega), List.map_append, List.map_replicate,
    map_lowerHex_eq h, h.length_eq, hcount]
  rfl

theorem tohex_of_fromhex (h : s.Inv) (hva : va.toNat < s.cfg.nv) (hexec : exec (.fromhex va) s = .next t)
    (herr : t.status.err = 0) :
    Answers (exec (.tohex va) t) fun u =>
      ∃ h, (HexPrefixed s.input h ∨ ((¬∃ h', HexPrefixed s.input h') ∧ h = s.input)) ∧
        u.output = List.replicate (8 * ((h.length + 7) / 8) - h.length) 0x30#8 ++ h.map lowerHex := by
  obtain ⟨d, hd, hreg⟩ := h.fromhex_completed hva hexec herr
  obtain ⟨-, hdigits⟩ := parseHex_eq_some_iff.mp hd
  have hv : (t.vreg va).valid = true := by rw [hreg]; rfl
  refine ((tohex_emits va).answers ((exec_effect hexec).inv h) hv).imp ?_
  rintro u ⟨hout, -⟩
  exact ⟨stripHexPrefix s.input, stripHexPrefix_eq_iff.mp rfl, by rw [hout, hreg, hexBytes_fromhex hdigits]⟩

/-! TOHEX, then FROMHEXL -/

/-- FROMHEXL on the hex text of a sound register that is not empty, with its length as the immediate. -/
theorem State.Inv.answers_fromhexl (h : u.Inv) {v : VReg} {imm : Word} (hsound : v.Sound u.cfg.maxlen)
    (hv : v.valid = true) (himm : imm.toNat = v.len) (hlen : 0 < v.len) (hin : u.input = hexBytes v)
    (hvb : vb.toNat < u.cfg.nv) :
    Answers (exec (.fromhexl vb imm) u) fun t => t.status.err = 0 ∧ t.vreg vb = v := by
  refine h.answers_rebuild (exec_fromhexl h (himm.trans_le hsound.len_le)) ?_ hvb
  rw [hin, himm]
  exact hsound.place_hexBytes hv hlen

theorem lanes_eq_nil {v : VReg} (hlen : v.len = 0) : v.lanes = [] := by rw [VReg.lanes, hlen]; rfl

/-- Settles O52: the placed digits are the digits written, and a text of no digit is refused. -/
theorem hexRoundTrip : Obligations.HexRoundTrip := by
  refine ⟨fun s t va h hva => tohex_of_fromhex h hva, fun s t u va vb h hv hexec hu hcfg hin hvb => ?_⟩
  have hsound := sound_operand hv h.vregs_sound
  rw [(tohex_emits va).output_of_next h hv hexec] at hin
  refine ⟨fun hlen => ?_, fun hlen => ⟨?_, fun y hy hyin hyvb => ?_⟩⟩
  · exact hu.answers_fromhexl (hcfg ▸ hsound) hv (h.toNat_ofNat_len hv) hlen hin hvb
  · rw [hexBytes, lanes_eq_nil hlen, List.flatMap_nil] at hin
    exact raises_format (exec_fromhexl hu (Nat.zero_le _)) (by rw [hin]; rfl)
  · have hempty : (s.vreg va).Sound y.cfg.maxlen := ⟨hsound.word_count, hlen ▸ Nat.zero_le _, hsound.padding⟩
    have htext : jsonBytes (s.vreg va) = [chOpen, chClose] := by rw [jsonBytes, lanes_eq_nil hlen]; rfl
    exact hy.answers_fromjson hempty hv hlen.symm (hyin.trans htext.symm) hyvb

end Sys2Proof.Machine
end

section
/-! SUPPORT. The iteration commands (44_iteration.md R200 to R202): what ITSTART and one ITNEXT answer, and the walk of
an iterator over a vector register that no command changes in between. -/

namespace Sys2Proof.Machine

variable {s t : State} {va : VNum}

/-! ITSTART -/

theorem exec_itstart_eq : exec (.itstart va) s =
    withVector va s fun _ => complete { s with status := statusItStarted va s.status, itpos := 0 } := rfl

theorem exec_itstart (hv : (s.vreg va).valid = true) : exec (.itstart va) s =
    .next { s with status := statusCompleted (statusItStarted va s.status), itpos := 0 } := by
  rw [exec_itstart_eq, withVector_of_valid hv, complete]

/-- Settles O40: past the check of its register ITSTART always completes. -/
theorem itstartStartsTheIterator : Obligations.ItstartStartsTheIterator :=
  fun va => ⟨layout_va va 0x40, fun _ => ⟨raises_uninitialised exec_itstart_eq, exec_itstart⟩⟩

/-! ITNEXT -/

theorem raises_itnext (ha : s.status.itactive = false) : Raises 5 .itnext s := by
  have hexec : exec .itnext s = raise .uninitialisedVector s := by rw [exec, execItnext, if_neg (by simp [ha])]
  exact raises_of_exec_eq hexec

/-- The iterator's next position after a pair does not wrap (00_scope.md R7). -/
theorem State.Inv.toNat_itpos_succ (h : s.Inv) : (s.itpos + 1).toNat = s.itpos.toNat + 1 := by
  have hpos := h.itpos_le
  have hmaxlen := h.cfg_legal.maxlen_le
  exact BitVec.toNat_add_of_lt (show s.itpos.toNat + 1 < 2 ^ 32 by omega)

/-- An active iterator walks a constructed register (44_iteration.md R202), so ITNEXT gets past both of its checks. -/
theorem State.Inv.exec_itnext_pair (h : s.Inv) (ha : s.status.itactive = true)
    (hlt : s.itpos.toNat < (s.vreg s.status.itvreg).len) :
    exec .itnext s =
      .next
        { s with
          res := s.itpos
          status := statusCompleted (statusItPair ((s.vreg s.status.itvreg).bit s.itpos.toNat) s.status)
          itpos := s.itpos + 1 } := by
  rw [exec, execItnext, if_pos ha, withVector_of_valid (h.itvreg_valid ha), if_pos hlt, complete]

theorem State.Inv.exec_itnext_exhausted (h : s.Inv) (ha : s.status.itactive = true)
    (hle : (s.vreg s.status.itvreg).len ≤ s.itpos.toNat) :
    exec .itnext s = .next { s with status := statusCompleted (statusItExhausted s.status) } := by
  rw [exec, execItnext, if_pos ha, withVector_of_valid (h.itvreg_valid ha), if_neg (Nat.not_lt.mpr hle), complete]

/-- Settles O41: the register of an active iterator is constructed, and ITPOS does not wrap. -/
theorem itnextReportsTheNextPair : Obligations.ItnextReportsTheNextPair :=
  ⟨rfl, fun _ h => ⟨raises_itnext,
    fun ha hlt => ⟨_, h.exec_itnext_pair ha hlt, h.toNat_itpos_succ, rfl⟩, h.exec_itnext_exhausted⟩⟩

/-! The walk -/

/-- A state of the walk over V[va] of `s` after n ITNEXTs: the iterator stands at index n, or at the end where the
vector has no index n, and the register file is that of `s`. -/
structure WalkedTo (s : State) (va : VNum) (n : Nat) (t : State) : Prop where
  inv : t.Inv
  itactive_eq : t.status.itactive = true
  itvreg_eq : t.status.itvreg = va
  vregs_eq : t.vregs = s.vregs
  itpos_eq : t.itpos.toNat = min n (s.vreg va).len

/-- What the host reads after the ITNEXT at index n of a vector: the pair of this index, or the end
(44_iteration.md R201). -/
structure Reports (v : VReg) (n : Nat) (t : State) : Prop where
  err_eq : t.status.err = 0
  pair : n < v.len → t.res.toNat = n ∧ t.status.itbit = v.bit n ∧ t.status.itdone = false
  exhausted : v.len ≤ n → t.status.itdone = true ∧ t.status.itbit = false

theorem State.Inv.answers_itstart (h : s.Inv) (hv : (s.vreg va).valid = true) :
    Answers (exec (.itstart va) s) (WalkedTo s va 0) := by
  have hexec := exec_itstart hv
  exact ⟨_, hexec, (exec_effect hexec).inv h, rfl, rfl, rfl, (Nat.zero_min _).symm⟩

/-- One ITNEXT of the walk: it reports the index it stands at and moves on. -/
theorem WalkedTo.answers_itnext {n : Nat} (hw : WalkedTo s va n t) :
    Answers (exec .itnext t) fun u => WalkedTo s va (n + 1) u ∧ Reports (s.vreg va) n u := by
  obtain ⟨hinv, ha, hvreg, hvregs, hpos⟩ := hw
  have hreg : t.vreg t.status.itvreg = s.vreg va := by rw [hvreg, vreg_congr t s hvregs]
  by_cases hn : n < (s.vreg va).len
  · have hitpos : t.itpos.toNat = n := by omega
    have hexec := hinv.exec_itnext_pair ha (by rw [hreg, hitpos]; exact hn)
    have hnext := hinv.toNat_itpos_succ
    rw [hreg, hitpos] at hexec
    exact ⟨_, hexec, ⟨(exec_effect hexec).inv hinv, ha, hvreg, hvregs, hnext.trans (by omega)⟩,
      rfl, fun _ => ⟨hitpos, rfl, rfl⟩, fun hle => absurd hn (Nat.not_lt.mpr hle)⟩
  · have hexec := hinv.exec_itnext_exhausted ha (by rw [hreg]; omega)
    exact ⟨_, hexec, ⟨(exec_effect hexec).inv hinv, ha, hvreg, hvregs, hpos.trans (by omega)⟩,
      rfl, fun hlt => absurd hlt hn, fun _ => ⟨rfl, rfl⟩⟩

/-- More ITNEXTs of the walk, of which the last reports the index it has come to. -/
theorem WalkedTo.answers_execAll_itnext {n : Nat} (hw : WalkedTo s va n t) (k : Nat) :
    Answers (execAll (List.replicate (k + 1) .itnext) t) fun u =>
      WalkedTo s va (n + k + 1) u ∧ Reports (s.vreg va) (n + k) u := by
  induction k generalizing n t with
  | zero =>
    obtain ⟨u, hexec, hu⟩ := hw.answers_itnext
    exact ⟨u, by simp only [List.replicate, execAll, hexec], hu⟩
  | succ k ih =>
    obtain ⟨u, hexec, hwalked, -⟩ := hw.answers_itnext
    rw [List.replicate_succ, execAll, hexec, ← Nat.succ_add_eq_add_succ n k]
    exact ih hwalked

/-- Settles O42: the walk from ITSTART, which stands at index 0. -/
theorem iteratorReportsEveryPairOnce : Obligations.IteratorReportsEveryPairOnce := by
  intro s va k h hv
  obtain ⟨t, hexec, hw⟩ := h.answers_itstart hv
  rw [execAll, hexec]
  refine (hw.answers_execAll_itnext k).imp ?_
  rw [Nat.zero_add]
  rintro u ⟨hwalked, hrep⟩
  have hpos := hwalked.itpos_eq
  refine ⟨hrep.err_eq, hwalked.vregs_eq, fun hlt => ?_, fun hle => ?_⟩
  · obtain ⟨hres, hbit, hdone⟩ := hrep.pair hlt
    exact ⟨hres, hbit, hdone, by omega⟩
  · obtain ⟨hdone, hbit⟩ := hrep.exhausted hle
    exact ⟨hdone, hbit, by omega⟩

end Sys2Proof.Machine
end

section
/-! SUPPORT. The errors (60_exceptions.md R213, R220): which check of a command wins where several fail, and which error
codes a command can leave. -/

namespace Sys2Proof

/-! The errors of a command -/

/-- The table of 60_exceptions.md R213, read by command. -/
def Instr.mayRaise (i : Instr) (e : Machine.Err) : Bool :=
  match i with
  | .new _ _ => e = .capacity
  | .fromhex _ | .fromhexl _ _ | .fromjson _ _ | .fromarray _ => e = .format || e = .capacity
  | .get _ _ | .set _ _ _ | .toggle _ _ => e = .index || e = .uninitialisedVector
  | .vand _ _ | .vor _ _ | .vxor _ _ => e = .lengthMismatch || e = .uninitialisedVector
  | _ => e = .uninitialisedVector

variable {i : Instr}

theorem Instr.mayRaise_index_iff : i.mayRaise .index = true ↔
    (∃ a n, i = .get a n) ∨ (∃ a n f, i = .set a n f) ∨ ∃ a n, i = .toggle a n := by
  cases i <;> simp [mayRaise]

theorem Instr.mayRaise_lengthMismatch_iff : i.mayRaise .lengthMismatch = true ↔
    (∃ a b, i = .vand a b) ∨ (∃ a b, i = .vor a b) ∨ ∃ a b, i = .vxor a b := by
  cases i <;> simp [mayRaise]

theorem Instr.mayRaise_format_iff : i.mayRaise .format = true ↔
    (∃ a, i = .fromhex a) ∨ (∃ a n, i = .fromhexl a n) ∨ (∃ a n, i = .fromjson a n) ∨ ∃ a, i = .fromarray a := by
  cases i <;> simp [mayRaise]

theorem Instr.mayRaise_capacity_iff : i.mayRaise .capacity = true ↔
    (∃ a n, i = .new a n) ∨ (∃ a, i = .fromhex a) ∨ (∃ a n, i = .fromhexl a n) ∨ (∃ a n, i = .fromjson a n) ∨
      ∃ a, i = .fromarray a := by
  cases i <;> simp [mayRaise]

/-- The commands with a vector operand are those that construct nothing (60_exceptions.md R218, R219). -/
theorem Instr.mayRaise_uninitialisedVector_iff :
    i.mayRaise .uninitialisedVector = true ↔ ¬i.mayRaise .capacity = true := by
  cases i <;> simp [mayRaise]

theorem Instr.not_mayRaise_illegalCommand : ¬i.mayRaise .illegalCommand = true := by
  cases i <;> simp [mayRaise]

end Sys2Proof

namespace Sys2Proof.Machine

variable {s t : State}

/-! The order of the checks -/

theorem withInput_of_le {k : List Byte → Result} (h : s.ilen.toNat ≤ s.cfg.ibufCap) :
    withInput s k = k s.input := if_pos h

/-- FROMHEX parses its text before it looks at the length the text implies (40_construction.md R103). -/
theorem raises_fromhex_format {va : VNum} (hle : s.ilen.toNat ≤ s.cfg.ibufCap)
    (hnone : parseHex s.input = none) : Raises 3 (.fromhex va) s := by
  have hexec : exec (.fromhex va) s = raise .format s := by
    rw [exec, execFromhex, withInput_of_le hle, hnone, orFormatError_none]
  exact raises_of_exec_eq hexec

/-- Settles O16: each clause is about the first check of its command that fails. -/
theorem errorPrecedence : Obligations.ErrorPrecedence := by
  refine fun s => ⟨fun c r hd => issue_of_illegal hd, fun a n f hv => ⟨?_, ?_, ?_⟩, fun a b hv => ⟨?_, ?_, ?_, ?_⟩,
    raises_itnext, fun a n hlt => ⟨?_, ?_⟩, fun a hlt => ?_, fun a => raises_fromhex_format⟩
  · exact raises_uninitialised exec_get_eq hv
  · exact raises_uninitialised (exec_set_eq f) hv
  · exact raises_uninitialised exec_toggle_eq hv
  · exact (vand_actsLanewise a b).raises_uninitialised hv
  · exact (vor_actsLanewise a b).raises_uninitialised hv
  · exact (vxor_actsLanewise a b).raises_uninitialised hv
  · exact raises_uninitialised_pair exec_equals_eq hv
  · exact raises_of_exec_eq (i := .fromhexl a n) (withCapacity_of_lt hlt)
  · exact raises_of_exec_eq (i := .fromjson a n) (withCapacity_of_lt hlt)
  · exact raises_of_exec_eq (i := .fromarray a) (withCapacity_of_lt hlt)

/-! The errors of a result, by the checks it is made of -/

/-- A next state has ERR 0, or the code of an error that `p` allows. -/
def OnlyRaises (p : Err → Bool) (r : Result) : Prop :=
  ∀ t, r = .next t → t.status.err = 0 ∨ ∃ e, p e = true ∧ t.status.err = errCode e

namespace OnlyRaises

variable {p : Err → Bool}

theorem raise {e : Err} (he : p e = true) : OnlyRaises p (raise e s) := by
  intro t ht
  rw [(raise_next e s t).mp ht]
  exact .inr ⟨e, he, rfl⟩

theorem complete : OnlyRaises p (complete s) := by
  intro t ht
  rw [(complete_next s t).mp ht]
  exact .inl rfl

theorem fault {f : Fault} : OnlyRaises p (.fault f) := by
  intro t ht
  cases ht

theorem ite {c : Prop} [Decidable c] {r r' : Result} (hr : OnlyRaises p r) (hr' : OnlyRaises p r') :
    OnlyRaises p (if c then r else r') := by
  split
  · exact hr
  · exact hr'

theorem completeRes {n : Nat} : OnlyRaises p (completeRes n s) := complete

theorem completeVreg {va : VNum} {v : VReg} : OnlyRaises p (completeVreg va v s) := complete

theorem emit {out : List Byte} : OnlyRaises p (emit out s) := ite complete fault

theorem withVector {va : VNum} {k : VReg → Result} (he : p .uninitialisedVector = true)
    (hk : ∀ v, OnlyRaises p (k v)) : OnlyRaises p (withVector va s k) := ite (hk _) (raise he)

theorem withIndex {v : VReg} {n : Word} {k : Nat → Result} (he : p .index = true) (hk : ∀ j, OnlyRaises p (k j)) :
    OnlyRaises p (withIndex v n s k) := ite (hk _) (raise he)

theorem withCapacity {len : Nat} {k : Result} (he : p .capacity = true) (hk : OnlyRaises p k) :
    OnlyRaises p (withCapacity len s k) := ite hk (raise he)

theorem withPair {va vb : VNum} {k : VReg → VReg → Result} (he : p .uninitialisedVector = true)
    (he' : p .lengthMismatch = true) (hk : ∀ a b, OnlyRaises p (k a b)) : OnlyRaises p (withPair va vb s k) :=
  withVector he fun a => withVector he fun b => ite (hk a b) (raise he')

theorem withInput {k : List Byte → Result} (hk : ∀ t, OnlyRaises p (k t)) : OnlyRaises p (withInput s k) :=
  ite (hk _) fault

theorem orFormatError {α : Type} {x : Option α} {k : α → Result} (he : p .format = true)
    (hk : ∀ y, OnlyRaises p (k y)) : OnlyRaises p (orFormatError x s k) := by
  cases x with
  | none => exact raise he
  | some y => exact hk y

end OnlyRaises

/-- A command raises no error that the table does not give it. -/
theorem exec_onlyRaises (i : Instr) (s : State) : OnlyRaises i.mayRaise (exec i s) :=
  match i with
  | .new _ _ => .withCapacity rfl .completeVreg
  | .fromhex va => show OnlyRaises _ (execFromhex va s) from
      .withInput fun _ => .orFormatError rfl fun _ => .withCapacity rfl <| .orFormatError rfl fun _ => .completeVreg
  | .fromhexl _ _ | .fromjson _ _ => .withCapacity rfl <| .withInput fun _ => .orFormatError rfl fun _ =>
      .orFormatError rfl fun _ => .completeVreg
  | .fromarray _ => .withCapacity rfl <| .withInput fun _ => .orFormatError rfl fun _ => .completeVreg
  | .get _ _ => .withVector rfl fun _ => .withIndex rfl fun _ => .completeRes
  | .set va n f => show OnlyRaises _ (execSet va n f s) from
      .withVector rfl fun _ => .withIndex rfl fun _ => .completeVreg
  | .toggle _ _ => .withVector rfl fun _ => .withIndex rfl fun _ => .completeVreg
  | .vand _ _ | .vor _ _ | .vxor _ _ => .withPair rfl rfl fun _ _ => .completeVreg
  | .equals _ _ => .withVector rfl fun _ => .withVector rfl fun _ => .completeRes
  | .size _ | .count _ => .withVector rfl fun _ => .completeRes
  | .reset _ | .copy _ _ | .vnot _ => .withVector rfl fun _ => .completeVreg
  | .toarray _ | .tointarray _ | .tostring _ | .tobinstr _ | .tohex _ | .tojson _ => .withVector rfl fun _ => .emit
  | .itstart _ => .withVector rfl fun _ => .complete
  | .itnext => .ite (.withVector rfl fun _ => .ite .complete .complete) (.raise rfl)

theorem errCode_eq_four_iff {e : Err} : errCode e = 4 ↔ e = .illegalCommand := by cases e <;> decide

/-- Only the decoder finds a word illegal; no command does (60_exceptions.md R217). -/
theorem Effect.err_ne_four {i : Instr} (h : Effect i s t) : t.status.err ≠ 4 := by
  cases h with
  | raised e he => exact fun h4 => he (errCode_eq_four_iff.mp h4)
  | _ => simp

/-- Settles O14, by the error a command raises; of a word, by what it decodes to. -/
theorem errorCodesAndTheirCommands : Obligations.ErrorCodesAndTheirCommands := by
  refine ⟨fun i s t h => ?_, fun s t c h => ?_⟩
  · obtain h0 | ⟨e, he, herr⟩ := exec_onlyRaises i s t h
    · exact .inl h0
    cases e with
    | index => exact .inr (.inl ⟨herr, Instr.mayRaise_index_iff.mp he⟩)
    | lengthMismatch => exact .inr (.inr (.inl ⟨herr, Instr.mayRaise_lengthMismatch_iff.mp he⟩))
    | format => exact .inr (.inr (.inr (.inl ⟨herr, Instr.mayRaise_format_iff.mp he⟩)))
    | illegalCommand => exact absurd he Instr.not_mayRaise_illegalCommand
    | uninitialisedVector =>
      exact .inr (.inr (.inr (.inr (.inl
        ⟨herr, fun hc => Instr.mayRaise_uninitialisedVector_iff.mp he (Instr.mayRaise_capacity_iff.mpr hc)⟩))))
    | capacity => exact .inr (.inr (.inr (.inr (.inr ⟨herr, Instr.mayRaise_capacity_iff.mp he⟩))))
  · cases hd : decode s.cfg.nv c with
    | command i =>
      have hexec : exec i s = .next t := (issue_of_command hd).symm.trans h
      exact iff_of_false (exec_effect hexec).err_ne_four (by simp)
    | illegal r =>
      have ht := (raise_next _ s t).mp ((issue_of_illegal hd).symm.trans h)
      exact iff_of_true (by rw [ht]; rfl) ⟨r, rfl⟩

end Sys2Proof.Machine
end

section
/-! SUPPORT. The reset state (70_reset_and_hazards.md R240, R241): what its registers read, and that RESET() and
power-on both reach it. -/

namespace Sys2Proof.Machine

/-- In a register file of reset registers every register reads as unconstructed (10_state.md R21). -/
theorem vreg_of_vregs_eq_replicate {t : State} {n : Nat} (h : t.vregs = List.replicate n VReg.reset) (a : VNum) :
    t.vreg a = VReg.reset := by
  rw [State.vreg, h, List.getD_eq_getElem?_getD, List.getElem?_getD_replicate_default_eq]

/-- STATUS reads 0 where every field of it is 0 (10_state.md R29, R36). -/
@[simp] theorem Status.word_reset : Status.reset.word = 0#32 := by decide

/-- The four configuration registers report the parameters alone (10_state.md R42). -/
theorem regValue_of_cfg_eq {s t : State} (h : t.cfg = s.cfg) {x : RegName}
    (hx : x = .cfgNv ∨ x = .cfgMaxlen ∨ x = .cfgIbufCap ∨ x = .cfgObufCap) : regValue x t = regValue x s := by
  obtain rfl | rfl | rfl | rfl := hx <;> simp only [regValue, h]

/-- Settles O8: RESET() and power-on reach the same state of the BVALU, whatever the host holds, and every piece of it
has its reset value. -/
theorem resetSetsEveryResetValue : Obligations.ResetSetsEveryResetValue := by
  unfold Obligations.ResetSetsEveryResetValue
  intro atReset
  have hreset (c : Config) (ops : List HostOp) (reads : List HostValue) :
      atReset c { State.resetOf c with hostOps := ops, hostReads := reads } :=
    ⟨fun a _ => vreg_of_vregs_eq_replicate rfl a, List.length_replicate, rfl, Status.word_reset, rfl, fun _ => rfl,
      rfl, fun _ => rfl, rfl, rfl⟩
  refine ⟨fun s => ⟨hostReset s, rfl, hreset s.cfg s.hostOps s.hostReads, fun _ hx => ?_⟩, fun c => hreset c [] [], rfl⟩
  exact regValue_of_cfg_eq (hostReset_cfg s) hx

/-- Settles O9: the power-on state of legal parameters meets the invariant, and the test environment's are legal. -/
theorem resetMeetsTheInvariant : Obligations.ResetMeetsTheInvariant := by
  have hlegal : Config.testEnvironment.Legal := by constructor <;> decide
  exact ⟨fun _ hc => resetOf_inv hc, resetOf_inv hlegal⟩

end Sys2Proof.Machine
end
